-- ==== Sys2Proof/Word.lean ====
section
/-! DEFINITION. The word types of the block: bytes and symbols, codes, host words (R4, R5). -/

namespace Sys2Proof

/-- A byte of a buffer, or a symbol (a colour index): a value 0..255 (R6). -/
abbrev Byte := BitVec 8

/-- An LZW code: a value 0..4095 (00_scope.md glossary, R85). -/
abbrev Code := BitVec 12

/-- A host word: `ARG0`, `ARG1`, `FINFO` (`ARGW` = 32, R4). -/
abbrev Word := BitVec 32

end Sys2Proof
end

