-- ==== Sys2Proof/Config.lean ====
section
/-! DEFINITION. The parameters of R4 that the spec fixes, and the free values: what the spec leaves
unspecified is an opaque constant here, so that no proof can know it (assumption log 5 and 10). -/

namespace Sys2Proof.Config

/-- `DICT_MAX`: the most entries a dictionary has, literals and control codes included (R4). -/
@[simp] abbrev dictMax : Nat := 4096

/-- `CW_MAX`: the largest code width (R4). -/
@[simp] abbrev cwMax : Nat := 12

/-- `MCS_MIN` and `MCS_MAX`: the legal minimum code sizes (R4). -/
@[simp] abbrev mcsMin : Nat := 2
@[simp] abbrev mcsMax : Nat := 8

/-- `SB_MAX`: the largest sub-block payload (R4). -/
@[simp] abbrev sbMax : Nat := 255

/-- `FIELD_MAX`: the largest width of a raw bit field (R4). -/
@[simp] abbrev fieldMax : Nat := 16

/-- The default of `POSW` (R4, D7); an instance's own value stands in `State.posw`. -/
@[simp] abbrev poswDefault : Nat := 32

/-- Free bits for draw `draw`, register `reg`: what a register of a fixed width holds in `FAULT`
mode (R40, X2). No value of it is known (log 5). -/
opaque freeBits (w draw reg : Nat) : BitVec w

/-- A free number, cut by its user to the register's width (R40, X2; log 5). -/
opaque freeNat (draw reg : Nat) : Nat

/-- A free flag (R40, X2; log 5). -/
opaque freeFlag (draw reg : Nat) : Bool

/-- A free optional code, for `PREV` and `CAND` (R40, X2; log 5). -/
opaque freeCode (draw reg : Nat) : Option Code

/-- Free buffer contents (R40, X2; log 5). -/
opaque freeBytes (draw reg : Nat) : List Byte

/-- What a length register of `posw` bits reads when its buffer holds `len ≥ 2^posw` items: the
spec gives the register's width and leaves the buffers unbounded (R27, R34, R35; log 10). -/
opaque overlong (posw len : Nat) : Nat

end Sys2Proof.Config
end

