-- ==== Sys2Proof/Syntax.lean ====
section
/-! DEFINITION. The instructions: one constructor per row of spec/opcode_table.json (R80): the
commands with their operands, the codes of the code stream by class, the sub-block tokens. -/

namespace Sys2Proof

/-- The six classes of a code read by the decoder (R86). -/
inductive CodeClass where
  | clear | eoi | literal | dict | kwkwk | invalid
  deriving DecidableEq, Repr

/-- The three instruction formats of the opcode table (R80). -/
inductive Format where
  | cmd | code | subblock
  deriving DecidableEq, Repr

/-- An instruction of the block (R80). Scalar operands of a command are the whole 32-bit `ARG0` and
`ARG1` (R84); `data` is the host's byte-sequence operand (R81). -/
inductive Instr where
  /-- 0x00 (R221). -/
  | nop
  /-- 0x01 (R222). -/
  | reset
  /-- 0x10 (R121). -/
  | rdOpen (data : List Byte)
  /-- 0x11 (R122). -/
  | rdU8
  /-- 0x12 (R123). -/
  | rdU16
  /-- 0x13, `ARG0` = the expected byte (R124). -/
  | rdExpect (k : Word)
  /-- 0x14, `ARG0` = the byte count (R125). -/
  | rdBytes (n : Word)
  /-- 0x15 (R126). -/
  | rdSubblocks
  /-- 0x16 (R127). -/
  | rdImagedata
  /-- 0x20 (R141). -/
  | cbLoad (data : List Byte)
  /-- 0x21, `ARG0` = the field width (R142). -/
  | brGet (w : Word)
  /-- 0x22 (R143). -/
  | brRewind
  /-- 0x30, `ARG0` = the minimum code size (R150). -/
  | decStart (mcs : Word)
  /-- 0x31 (R151). -/
  | decStep
  /-- 0x32 (R160). -/
  | decRun
  /-- 0x40, `ARG0` = the minimum code size (R181). -/
  | encStart (mcs : Word)
  /-- 0x41, `ARG0` = the symbol (R182). -/
  | encPut (sym : Word)
  /-- 0x42 (R187). -/
  | encEnd
  /-- 0x50 (R203). -/
  | wrOpen
  /-- 0x51, `ARG0` = the byte (R204). -/
  | wrU8 (v : Word)
  /-- 0x52, `ARG0` = the 16-bit value (R205). -/
  | wrU16 (v : Word)
  /-- 0x53, `ARG0` = the value, `ARG1` = its width (R206). -/
  | bwPut (v w : Word)
  /-- 0x54 (R207). -/
  | bwFlush
  /-- 0x55 (R208). -/
  | wrSubblocks
  /-- Any unassigned opcode (R83). -/
  | illegal (op : Byte)
  /-- A code equal to `CLR` (R152). -/
  | clear (c : Code)
  /-- A code equal to `EOI` (R153). -/
  | eoi (c : Code)
  /-- A code below `CLR` (R154). -/
  | literal (c : Code)
  /-- The code of a dynamic entry (R155). -/
  | dict (c : Code)
  /-- A code equal to `NEXT` with a previous code present (R156). -/
  | kwkwk (c : Code)
  /-- Any other code (R157). -/
  | invalid (c : Code)
  /-- A size byte 1..255 and its payload (R90). -/
  | sbData (size : Byte) (payload : List Byte)
  /-- The size byte 0 that ends a run (R90). -/
  | sbEnd
  deriving DecidableEq, Repr

/-- The code `c` as an instruction of class `k`. -/
def CodeClass.toInstr (k : CodeClass) (c : Code) : Instr :=
  match k with
  | .clear => .clear c
  | .eoi => .eoi c
  | .literal => .literal c
  | .dict => .dict c
  | .kwkwk => .kwkwk c
  | .invalid => .invalid c

/-- The opcode table's format of an instruction (R80). -/
def Instr.format : Instr → Format
  | .nop | .reset | .rdOpen _ | .rdU8 | .rdU16 | .rdExpect _ | .rdBytes _ | .rdSubblocks
  | .rdImagedata | .cbLoad _ | .brGet _ | .brRewind | .decStart _ | .decStep | .decRun
  | .encStart _ | .encPut _ | .encEnd | .wrOpen | .wrU8 _ | .wrU16 _ | .bwPut _ _ | .bwFlush
  | .wrSubblocks | .illegal _ => .cmd
  | .clear _ | .eoi _ | .literal _ | .dict _ | .kwkwk _ | .invalid _ => .code
  | .sbData _ _ | .sbEnd => .subblock

end Sys2Proof
end

