-- ==== Sys2Proof/WellFormed.lean ====
section
/-! DEFINITION. Which terms of `Instr` are instructions: an `ILLEGAL` opcode is unassigned (R83), a
data token's size byte is 1..255 and counts its payload (R90). Operand ranges of commands are no
part of this: a command out of its range exists and raises a fault (R224). Which class a code has
depends on the decoder's state (R86) and is checked where it is executed. -/

namespace Sys2Proof

/-- The opcodes R83 lists as unassigned. -/
def unassigned (op : Byte) : Bool :=
  let n := op.toNat
  (0x02 ≤ n && n ≤ 0x0F) || (0x17 ≤ n && n ≤ 0x1F) || (0x23 ≤ n && n ≤ 0x2F) ||
    (0x33 ≤ n && n ≤ 0x3F) || (0x43 ≤ n && n ≤ 0x4F) || (0x56 ≤ n && n ≤ 0xFF)

/-- The check every instruction that the machine fetches passes. -/
def Instr.wellFormed : Instr → Bool
  | .illegal op => unassigned op
  | .sbData size payload => size.toNat != 0 && size.toNat == payload.length
  | .nop | .reset | .rdOpen _ | .rdU8 | .rdU16 | .rdExpect _ | .rdBytes _ | .rdSubblocks
  | .rdImagedata | .cbLoad _ | .brGet _ | .brRewind | .decStart _ | .decStep | .decRun
  | .encStart _ | .encPut _ | .encEnd | .wrOpen | .wrU8 _ | .wrU16 _ | .bwPut _ _ | .bwFlush
  | .wrSubblocks | .clear _ | .eoi _ | .literal _ | .dict _ | .kwkwk _ | .invalid _ | .sbEnd =>
    true

end Sys2Proof
end

