-- ==== Sys2Proof/Decode.lean ====
section
/-! DEFINITION. The decoder and, after it, the encoder, for the three formats of R80: a command is
the opcode in `CMD` with `ARG0`, `ARG1` and `data` (R81), a code is one field of the packed stream
whose class depends on the decoder's registers (R85, R86), a sub-block token is a size byte and its
payload (R90). Last, the bits of an instruction as spec/opcode_table.json numbers them. -/

namespace Sys2Proof

/-! ## Opcodes (R82) -/

def opNop : Byte := 0x00
def opReset : Byte := 0x01
def opRdOpen : Byte := 0x10
def opRdU8 : Byte := 0x11
def opRdU16 : Byte := 0x12
def opRdExpect : Byte := 0x13
def opRdBytes : Byte := 0x14
def opRdSubblocks : Byte := 0x15
def opRdImagedata : Byte := 0x16
def opCbLoad : Byte := 0x20
def opBrGet : Byte := 0x21
def opBrRewind : Byte := 0x22
def opDecStart : Byte := 0x30
def opDecStep : Byte := 0x31
def opDecRun : Byte := 0x32
def opEncStart : Byte := 0x40
def opEncPut : Byte := 0x41
def opEncEnd : Byte := 0x42
def opWrOpen : Byte := 0x50
def opWrU8 : Byte := 0x51
def opWrU16 : Byte := 0x52
def opBwPut : Byte := 0x53
def opBwFlush : Byte := 0x54
def opWrSubblocks : Byte := 0x55

/-! ## Commands -/

/-- What the host presents with a command: the opcode written to `CMD`, the operand registers and
the byte-sequence operand (R26, R81). -/
structure CmdWords where
  op : Byte
  arg0 : Word
  arg1 : Word
  data : List Byte
  deriving DecidableEq, Repr

/-- The command a write of `CMD` issues (R82); every opcode outside the map is `ILLEGAL` (R83), and
operands a command does not use are ignored (R81). -/
def decodeCommand (w : CmdWords) : Instr :=
  match w.op.toNat with
  | 0x00 => .nop
  | 0x01 => .reset
  | 0x10 => .rdOpen w.data
  | 0x11 => .rdU8
  | 0x12 => .rdU16
  | 0x13 => .rdExpect w.arg0
  | 0x14 => .rdBytes w.arg0
  | 0x15 => .rdSubblocks
  | 0x16 => .rdImagedata
  | 0x20 => .cbLoad w.data
  | 0x21 => .brGet w.arg0
  | 0x22 => .brRewind
  | 0x30 => .decStart w.arg0
  | 0x31 => .decStep
  | 0x32 => .decRun
  | 0x40 => .encStart w.arg0
  | 0x41 => .encPut w.arg0
  | 0x42 => .encEnd
  | 0x50 => .wrOpen
  | 0x51 => .wrU8 w.arg0
  | 0x52 => .wrU16 w.arg0
  | 0x53 => .bwPut w.arg0 w.arg1
  | 0x54 => .bwFlush
  | 0x55 => .wrSubblocks
  | _ => .illegal w.op

/-! ## Codes -/

/-- The decoder's registers that give a code its class (R86). -/
structure CodeContext where
  mcs : Nat
  next : Nat
  prev : Option Code
  deriving DecidableEq, Repr

/-- The class of a code value; the tests are made in the order of R86. -/
def classify (x : CodeContext) (c : Code) : CodeClass :=
  if c.toNat = 2 ^ x.mcs then .clear
  else if c.toNat = 2 ^ x.mcs + 1 then .eoi
  else if c.toNat < 2 ^ x.mcs then .literal
  else if c.toNat < x.next then .dict
  else if c.toNat = x.next ∧ x.prev.isSome then .kwkwk
  else .invalid

/-- The instruction a code is for the decoder that reads it (R86). -/
def decodeCode (x : CodeContext) (c : Code) : Instr := (classify x c).toInstr c

/-! ## Sub-block tokens -/

/-- Why a byte sequence holds no sub-block token. -/
inductive DecodeError where
  /-- No byte is left for the size (R126: the terminator is missing). -/
  | noSizeByte
  /-- Fewer payload bytes are left than the size byte says (R126). -/
  | shortPayload
  deriving DecidableEq, Repr

/-- What a decoder answers: the instruction and the bytes after it, or a rejection by name. -/
inductive Decoded where
  | ok (i : Instr) (rest : List Byte)
  | rejected (e : DecodeError)
  deriving DecidableEq, Repr

/-- The sub-block token at the head of a byte sequence (R90). -/
def decodeToken : List Byte → Decoded
  | [] => .rejected .noSizeByte
  | n :: rest =>
    if n = 0 then .ok .sbEnd rest
    else if rest.length < n.toNat then .rejected .shortPayload
    else .ok (.sbData n (rest.take n.toNat)) (rest.drop n.toNat)

/-! ## The decoder over the three formats, and the encoder -/

/-- An instruction in the form its format gives it: the command's registers, the code value (laid
into the stream by `PutBits` in `CW` bits, R85), the token's bytes. -/
inductive Encoded where
  | command (w : CmdWords)
  | code (c : Code)
  | token (bytes : List Byte)
  deriving DecidableEq, Repr

/-- The decoder. The context matters to codes only. -/
def decode (x : CodeContext) : Encoded → Decoded
  | .command w => .ok (decodeCommand w) []
  | .code c => .ok (decodeCode x c) []
  | .token bytes => decodeToken bytes

/-- A command without operands. -/
def bare (op : Byte) : Encoded := .command ⟨op, 0, 0, []⟩

/-- The encoder (R82, R85, R90); operands a command ignores are encoded as 0 (log 20). -/
def encode : Instr → Encoded
  | .nop => bare opNop
  | .reset => bare opReset
  | .rdOpen data => .command ⟨opRdOpen, 0, 0, data⟩
  | .rdU8 => bare opRdU8
  | .rdU16 => bare opRdU16
  | .rdExpect k => .command ⟨opRdExpect, k, 0, []⟩
  | .rdBytes n => .command ⟨opRdBytes, n, 0, []⟩
  | .rdSubblocks => bare opRdSubblocks
  | .rdImagedata => bare opRdImagedata
  | .cbLoad data => .command ⟨opCbLoad, 0, 0, data⟩
  | .brGet w => .command ⟨opBrGet, w, 0, []⟩
  | .brRewind => bare opBrRewind
  | .decStart mcs => .command ⟨opDecStart, mcs, 0, []⟩
  | .decStep => bare opDecStep
  | .decRun => bare opDecRun
  | .encStart mcs => .command ⟨opEncStart, mcs, 0, []⟩
  | .encPut sym => .command ⟨opEncPut, sym, 0, []⟩
  | .encEnd => bare opEncEnd
  | .wrOpen => bare opWrOpen
  | .wrU8 v => .command ⟨opWrU8, v, 0, []⟩
  | .wrU16 v => .command ⟨opWrU16, v, 0, []⟩
  | .bwPut v w => .command ⟨opBwPut, v, w, []⟩
  | .bwFlush => bare opBwFlush
  | .wrSubblocks => bare opWrSubblocks
  | .illegal op => bare op
  | .clear c => .code c
  | .eoi c => .code c
  | .literal c => .code c
  | .dict c => .code c
  | .kwkwk c => .code c
  | .invalid c => .code c
  | .sbData size payload => .token (size :: payload)
  | .sbEnd => .token [0]

/-- The registers of a command as one number: the opcode in bits 7:0, `ARG0` in bits 39:8, `ARG1`
in bits 71:40 (the order of the triple of R94; log 15). `data` is no part of it. -/
def CmdWords.number (w : CmdWords) : Nat :=
  w.op.toNat + w.arg0.toNat * 2 ^ 8 + w.arg1.toNat * 2 ^ 40

/-- The command whose registers are the number `w`, with an empty `data` operand. -/
def CmdWords.ofNumber (w : Nat) : CmdWords :=
  ⟨BitVec.ofNat 8 w, BitVec.ofNat 32 (w / 2 ^ 8), BitVec.ofNat 32 (w / 2 ^ 40), []⟩

/-- Whether a row of `nbits` bits is read as a code: the table gives a command and a token byte 8
bits, a code 12, which are two whole bytes (log 15). -/
def isCodeRow (nbits : Nat) : Bool := 8 < nbits && nbits ≤ 16

/-- The decode in progress in which `State.withFetchWord` places a code: `MCS` = 8, one dynamic
entry (code 258), a previous code, so that every class of R86 has values (log 15). -/
def tableContext : CodeContext := ⟨8, 259, some 0⟩

/-- The instruction the decoder reads from the bits `w` of a table row of `nbits` bits: the opcode
first, then `ARG0` and `ARG1`; a row of a code is the code value (log 15). -/
def decodeTableWord (nbits w : Nat) : Option Instr :=
  if isCodeRow nbits then some (decodeCode tableContext (BitVec.ofNat 12 w))
  else some (decodeCommand (CmdWords.ofNumber w))

end Sys2Proof
end

