-- ==== Sys2Proof/Machine/State.lean ====
section
/-! DEFINITION. The state of one block instance (R10), the model's own fields beside it, the reasons
a step can stop, and the reset state (R38). -/

namespace Sys2Proof.Machine

/-- `MODE` (R11). -/
inductive Mode where
  | idle | dec | enc | fault
  deriving DecidableEq, Repr

/-- The cause of a fault (R231); `none` outside `FAULT` mode. -/
inductive Cause where
  | none | malformedStream | badMinCodeSize | invalidCode | symbolRange | illegalCommand
  | badOperand
  deriving DecidableEq, Repr

/-- A dictionary entry: the code of its prefix and the symbol that extends it (R28). -/
structure DictEntry where
  pfx : Code
  sym : Byte
  deriving DecidableEq, Repr

/-- `DICT` as (code, entry) pairs, codes strictly rising; an unlisted code holds no value (R28, X1;
log 11). -/
abbrev Memory := List (Nat × DictEntry)

/-- One access of the host to the block (R8, R223, R260), an input of the machine (log 1). -/
inductive HostAccess where
  /-- A write of register number `no` (R27); `data` is the operand presented with a write of `CMD`
  (R26, log 2). -/
  | write (no : Byte) (v : Word) (data : List Byte)
  /-- A read of register number `no` (R27). -/
  | read (no : Byte)
  /-- A read of the contents of `OIDX` (R223). -/
  | readOidx
  /-- A read of the contents of `EOUT` (R223). -/
  | readEout
  /-- A hardware reset (R260). -/
  | hardReset
  deriving DecidableEq, Repr

/-- What the host's last read delivered (log 1). -/
inductive HostSeen where
  | nothing
  | value (v : Nat)
  | bytes (b : List Byte)
  deriving DecidableEq, Repr

/-- The state of one instance. `ILEN` and `CLEN` are the lengths of `ibuf` and `cbuf` (R32, R33;
log 4). The last five fields are the model's own. -/
structure State where
  mode : Mode
  mcs : Nat
  cw : Nat
  next : Nat
  prev : Option Code
  cand : Option Code
  rpos : Nat
  bitpos : Nat
  acc : Byte
  nacc : Nat
  result : BitVec 16
  eoif : Bool
  exhf : Bool
  cause : Cause
  finfo : Word
  cmd : Byte
  arg0 : Word
  arg1 : Word
  dict : Memory
  ibuf : List Byte
  cbuf : List Byte
  oidx : List Byte
  pbuf : List Byte
  eout : List Byte
  /-- The parameter `POSW` (R4, R39): no step writes it (log 3). -/
  posw : Nat
  /-- The local `pay` of R126, empty between commands (log 13). -/
  pay : List Byte
  /-- How many draws of free values were made (log 5). -/
  draws : Nat
  /-- The host's accesses still to come, oldest first (log 1). -/
  pending : List HostAccess
  /-- What the host's last read delivered (log 1). -/
  seen : HostSeen
  deriving DecidableEq, Repr

/-- Why the model stops where no instruction of the spec is at fault. Every constructor is met only
in states no run reaches (log 14), and stopping there is safe. -/
inductive Fault where
  /-- Raised by the decoder and encoder meanings (`codecOk`): `MODE` is `DEC` or `ENC` and `MCS`,
  `CW` or `NEXT` is outside the range R12 to R14 give it there. Safe. -/
  | codecRegs
  /-- Raised by the data-code meanings (`emitSeq`): `Seq` of a code it is undefined for (R29), or a
  dictionary entry that holds no value (X1). Safe. -/
  | seqUndefined
  /-- Raised by the loops of `DEC_RUN` and `RD_SUBBLOCKS` when their bound is used up: they always
  end before it (R161, R126). Safe. -/
  | noProgress
  deriving DecidableEq, Repr

/-- Why the model gives an instruction no meaning. -/
inductive Refusal where
  /-- Raised by a refused arm of `exec`: no meaning written yet. Safe. -/
  | notModelled (mnemonic : String)
  /-- Raised by the code meanings outside `DEC` mode and the token meanings outside `IDLE`: nothing
  fetches the instruction there (R80, R224; log 12, 13). Safe. -/
  | neverFetched
  /-- Raised by the code meanings when the code value is not of the constructor's class in this
  state: the decoder reads another instruction from it (R86; log 12). Safe. -/
  | wrongClass
  deriving DecidableEq, Repr

/-- The machine right after reset (R38); `posw` is the spec's default (R4). -/
def State.reset : State where
  mode := .idle
  mcs := 0
  cw := 0
  next := 0
  prev := none
  cand := none
  rpos := 0
  bitpos := 0
  acc := 0
  nacc := 0
  result := 0
  eoif := false
  exhf := false
  cause := .none
  finfo := 0
  cmd := 0
  arg0 := 0
  arg1 := 0
  dict := []
  ibuf := []
  cbuf := []
  oidx := []
  pbuf := []
  eout := []
  posw := Config.poswDefault
  pay := []
  draws := 0
  pending := []
  seen := .nothing

end Sys2Proof.Machine
end

