-- ==== Sys2Proof/Machine/Ops.lean ====
section
/-! DEFINITION. The named operations of the machine: entering and leaving `FAULT` (R241, R222), the
order of checks of a command (R224), `ReadByte` and `ReadRun` (R120, R128), bits and fields (R51,
R52), `GetBits` (R140), `PutBits`, `Flush` and `Chunk` (R200 to R202), sub-block tokens (R90), and
the dictionary memory (R28). -/

namespace Sys2Proof.Machine

/-- What a step answers. -/
abbrev Result := Host.Outcome State Fault Refusal

/-! ## Fault entry and exit -/

/-- `raise c(info)` (R241). Only `MODE`, `CAUSE` and `FINFO` have defined values afterwards; every
other register, flag and buffer is a free value within its width, and the dictionary holds no value
(R40, X2; log 5). The model's own fields stay. -/
def State.raise (s : State) (c : Cause) (info : Nat) : State where
  mode := .fault
  mcs := Config.freeNat s.draws 0x07 % 2 ^ 4
  cw := Config.freeNat s.draws 0x08 % 2 ^ 4
  next := Config.freeNat s.draws 0x09 % 2 ^ 13
  prev := Config.freeCode s.draws 0x0A
  cand := Config.freeCode s.draws 0x0B
  rpos := Config.freeNat s.draws 0x0C % 2 ^ s.posw
  bitpos := Config.freeNat s.draws 0x0E % 2 ^ (s.posw + 3)
  acc := Config.freeBits 8 s.draws 0x20
  nacc := Config.freeNat s.draws 0x21 % 2 ^ 3
  result := Config.freeBits 16 s.draws 0x06
  eoif := Config.freeFlag s.draws 0x22
  exhf := Config.freeFlag s.draws 0x23
  cause := c
  finfo := BitVec.ofNat 32 info
  cmd := Config.freeBits 8 s.draws 0x00
  arg0 := Config.freeBits 32 s.draws 0x01
  arg1 := Config.freeBits 32 s.draws 0x02
  dict := []
  ibuf := Config.freeBytes s.draws 0x24
  cbuf := Config.freeBytes s.draws 0x25
  oidx := Config.freeBytes s.draws 0x26
  pbuf := Config.freeBytes s.draws 0x27
  eout := Config.freeBytes s.draws 0x28
  posw := s.posw
  pay := []
  draws := s.draws + 1
  pending := s.pending
  seen := s.seen

/-- A reset of the block (R222, R260): every piece of state takes the value of R38; the parameter,
the count of draws and the host's side stay (log 18). -/
def State.resetBlock (s : State) : State :=
  { State.reset with posw := s.posw, draws := s.draws, pending := s.pending, seen := s.seen }

/-! ## The order of checks of a command (R224) -/

/-- Checks 1 and 3 of R224 for a command legal only in mode `need`: ignored in `FAULT` mode (R225),
`IllegalCommand` in another mode (R236), else `k`. -/
def inMode (need : Mode) (op : Byte) (s : State) (k : Result) : Result :=
  if s.mode = .fault then .next s
  else if s.mode = need then k
  else .next (s.raise .illegalCommand op.toNat)

/-! ## Derived lengths and control codes -/

/-- `ILEN` (R18, R32; log 4). -/
def State.ilen (s : State) : Nat := s.ibuf.length

/-- `CLEN` (R19, R33; log 4). -/
def State.clen (s : State) : Nat := s.cbuf.length

/-- `CLR = 2^MCS` (R17). -/
def State.clr (s : State) : Nat := 2 ^ s.mcs

/-- `EOI = CLR + 1` (R17). -/
def State.eoiCode (s : State) : Nat := s.clr + 1

/-- The ranges R12, R13 and R14 give `MCS`, `CW` and `NEXT` while `MODE` is `DEC` or `ENC`. -/
abbrev State.CodecRegs (s : State) : Prop :=
  Config.mcsMin ≤ s.mcs ∧ s.mcs ≤ Config.mcsMax ∧ s.mcs + 1 ≤ s.cw ∧ s.cw ≤ Config.cwMax ∧
    s.clr + 2 ≤ s.next ∧ s.next ≤ Config.dictMax

/-- `k` in a state whose codec registers are in range; no run reaches another (log 14). -/
def codecOk (s : State) (k : Result) : Result :=
  if s.CodecRegs then k else .fault .codecRegs

/-! ## The byte cursor -/

/-- `ReadByte()` (R120): the byte at `RPOS` and the state past it, or none where it raises
`MalformedStream(ILEN)`. -/
def readByte (s : State) : Option (Byte × State) :=
  match s.ibuf[s.rpos]? with
  | none => none
  | some b => some (b, { s with rpos := s.rpos + 1 })

/-- `ReadRun(n)` (R128): `n` bytes from `RPOS`, or none where it raises `MalformedStream(ILEN)`. -/
def readRun (n : Nat) (s : State) : Option (List Byte × State) :=
  if s.ilen < s.rpos + n then none
  else some ((s.ibuf.drop s.rpos).take n, { s with rpos := s.rpos + n })

/-- Running out of input bytes (R120, R232): `MalformedStream` with the offset of the first missing
byte. -/
def State.underrun (s : State) : State := s.raise .malformedStream s.ilen

/-- `CBUF` replaced whole and the bit cursor rewound (R33, R278). -/
def State.loadCbuf (b : List Byte) (s : State) : State := { s with cbuf := b, bitpos := 0 }

/-! ## Sub-block tokens -/

/-- The number of bytes of a sub-block token (R90). -/
def tokenLength : Instr → Nat
  | .sbData _ payload => payload.length + 1
  | _ => 1

/-- The sub-block token at `RPOS` and the state past it, or none where the buffer ends inside it
(one turn of the loop of R126). -/
def fetchToken (s : State) : Option (Instr × State) :=
  match decodeToken (s.ibuf.drop s.rpos) with
  | .rejected _ => none
  | .ok i _ => some (i, { s with rpos := s.rpos + tokenLength i })

/-! ## Bits and fields -/

/-- `Bit(B, k)` (R52): bit `k mod 8` of byte `k div 8`. -/
def bitAt (b : List Byte) (k : Nat) : Nat := (b.getD (k / 8) 0).toNat / 2 ^ (k % 8) % 2

/-- `Field(B, p, w)` (R52): the bit met first is the least significant. -/
def field (b : List Byte) (p : Nat) : Nat → Nat
  | 0 => 0
  | w + 1 => field b p w + bitAt b (p + w) * 2 ^ w

/-- `GetBits(w)` (R140): the field at the bit cursor and the state past it, or none, with nothing
changed, when fewer than `w` bits are left. -/
def getBits (w : Nat) (s : State) : Option (Nat × State) :=
  if 8 * s.clen < s.bitpos + w then none
  else some (field s.cbuf s.bitpos w, { s with bitpos := s.bitpos + w })

/-- One turn of the loop of `PutBits` (R200): the bit `b` (0 or 1) placed in the partial byte. -/
def putBit (b : Nat) (s : State) : State :=
  let full := s.acc ||| (BitVec.ofNat 8 b <<< s.nacc)
  if s.nacc + 1 = 8 then { s with pbuf := s.pbuf ++ [full], acc := 0, nacc := 0 }
  else { s with acc := full, nacc := s.nacc + 1 }

/-- `PutBits(v, w)` (R200): the low `w` bits of `v`, least significant first. -/
def putBits (v : Nat) : Nat → State → State
  | 0, s => s
  | w + 1, s => putBits (v / 2) w (putBit (v % 2) s)

/-- `Flush()` (R201). -/
def flush (s : State) : State :=
  if 0 < s.nacc then { s with pbuf := s.pbuf ++ [s.acc], acc := 0, nacc := 0 } else s

/-- The canonical sub-block run of a payload (R90, R202), with a bound on the number of sub-blocks. -/
def subBlocks : Nat → List Byte → List Byte
  | 0, _ => [0]
  | _ + 1, [] => [0]
  | k + 1, b :: p =>
    let n := min Config.sbMax (b :: p).length
    BitVec.ofNat 8 n :: (b :: p).take n ++ subBlocks k ((b :: p).drop n)

/-- `Chunk()` (R202): the packed bytes move into `EOUT` as a sub-block run. -/
def chunk (s : State) : State :=
  { s with eout := s.eout ++ subBlocks s.pbuf.length s.pbuf, pbuf := [] }

/-! ## The dictionary memory -/

/-- What the dictionary holds at a code, if anything (R28). -/
def Memory.read : Memory → Nat → Option DictEntry
  | [], _ => none
  | (k, e) :: m, c => if k = c then some e else Memory.read m c

/-- A write of one entry; the list stays sorted. -/
def Memory.write : Memory → Nat → DictEntry → Memory
  | [], c, e => [(c, e)]
  | (k, d) :: m, c, e =>
    if c < k then (c, e) :: (k, d) :: m
    else if c = k then (c, e) :: m
    else (k, d) :: Memory.write m c e

/-- The canonical form from code `lo` on: codes strictly rising and below 4096 (R28). -/
def Memory.wfFrom : Nat → Memory → Bool
  | _, [] => true
  | lo, (k, _) :: m => lo ≤ k && k < Config.dictMax && Memory.wfFrom (k + 1) m

/-- The canonical form of the dictionary memory. -/
def Memory.wf (m : Memory) : Bool := Memory.wfFrom 0 m

/-- `Seq(c)` (R29) for a dictionary of size `next` over the literals below `clr`, with a bound on
the depth; none where R29 leaves it undefined or an entry holds no value. -/
def seqAux (d : Memory) (clr next : Nat) : Nat → Code → Option (List Byte)
  | 0, _ => none
  | k + 1, c =>
    if c.toNat < clr then some [c.setWidth 8]
    else if clr + 2 ≤ c.toNat ∧ c.toNat < next then
      match d.read c.toNat with
      | none => none
      | some e =>
        if e.pfx.toNat < c.toNat then (seqAux d clr next k e.pfx).map (· ++ [e.sym]) else none
    else none

/-- `Seq(c)` (R29). A prefix is a smaller code (R30 (a)), so the depth is at most `c + 1`. -/
def State.seq (s : State) (c : Code) : Option (List Byte) :=
  seqAux s.dict s.clr s.next (c.toNat + 1) c

/-- The first dynamic code in `[lo, hi)` whose entry is `(p, sym)`. -/
def lookupIn (lo hi : Nat) (p : Code) (sym : Byte) : Memory → Option Code
  | [] => none
  | (k, e) :: m =>
    if lo ≤ k ∧ k < hi ∧ e = ⟨p, sym⟩ then some (BitVec.ofNat 12 k) else lookupIn lo hi p sym m

/-- `Lookup(p, s)` (R31). -/
def State.lookup (s : State) (p : Code) (sym : Byte) : Option Code :=
  lookupIn (s.clr + 2) s.next p sym s.dict

/-- The entry `(p, sym)` written at index `NEXT` and `NEXT` moved past it (R28). -/
def State.insert (s : State) (p : Code) (sym : Byte) : State :=
  { s with dict := s.dict.write s.next ⟨p, sym⟩, next := s.next + 1 }

/-- `Append(f)` (R158): the decoder's width grows when the size REACHES `2^CW` (C2). -/
def append (f : Byte) (s : State) : State :=
  match s.prev with
  | none => s
  | some p =>
    if s.next < Config.dictMax then
      let t := s.insert p f
      if t.next = 2 ^ t.cw ∧ t.cw < Config.cwMax then { t with cw := t.cw + 1 } else t
    else s

/-- The insertion of R185: the encoder's width grows when the size EXCEEDS `2^CW` (C2). -/
def insertGrow (p : Code) (sym : Byte) (s : State) : State :=
  if s.next < Config.dictMax then
    let t := s.insert p sym
    if 2 ^ t.cw < t.next ∧ t.cw < Config.cwMax then { t with cw := t.cw + 1 } else t
  else s

end Sys2Proof.Machine
end

