-- ==== Sys2Proof/Machine/Flags.lean ====
section
/-! DEFINITION. The flags and the status word (R11, R22, R23): `EOIF` and `EXHF` are stored, `FULL`
and `STATUS` are views. -/

namespace Sys2Proof.Machine

/-- The number of a mode in `STATUS` (R11). -/
def Mode.number : Mode → Nat
  | .idle => 0
  | .dec => 1
  | .enc => 2
  | .fault => 7

/-- `FULL` (R22): 1 exactly when `NEXT = 4096`. -/
def State.full (s : State) : Bool := s.next == Config.dictMax

/-- `STATUS` (R23). -/
def State.status (s : State) : Word :=
  BitVec.ofNat 32 (s.mode.number + s.eoif.toNat * 2 ^ 4 + s.exhf.toNat * 2 ^ 5 + s.full.toNat * 2 ^ 6)

/-- The end-of-information code was consumed (R22, R153): a normal end of a decode (R244). -/
def State.endByEoi (s : State) : State := { s with eoif := true, mode := .idle }

/-- The bit cursor cannot satisfy another code read (R22, R159): a normal end (R244). -/
def State.endByExhaustion (s : State) : State := { s with exhf := true, mode := .idle }

/-- `CAUSE` as the register holds it (R231). -/
def Cause.number : Cause → Nat
  | .none => 0
  | .malformedStream => 1
  | .badMinCodeSize => 2
  | .invalidCode => 3
  | .symbolRange => 4
  | .illegalCommand => 5
  | .badOperand => 6

end Sys2Proof.Machine
end

