-- ==== Sys2Proof/Machine/Bus.lean ====
section
/-! DEFINITION. The host's side of the block: the numbered registers as the host reads and writes
them (R26, R27, R223), and the fetch of a command by a write of `CMD` (R220). -/

namespace Sys2Proof.Machine

/-- The register number of `CMD` (R27). -/
def regCmd : Byte := 0x00

/-- `PREV` or `CAND` as the host reads it (R15, R16): bit 12 present, bits 11:0 the code; none reads
0 (R38). -/
def codeReg : Option Code → Nat
  | none => 0
  | some c => 2 ^ 12 + c.toNat

/-- A length register (R27): the length, which a free value below `2^POSW` stands for where the
register cannot hold it (log 10). -/
def lengthReg (posw len : Nat) : Nat :=
  if len < 2 ^ posw then len else Config.overlong posw len % 2 ^ posw

/-- What a read of register number `no` delivers (R27). `CMD` reads 0 (R26); in `FAULT` mode it is
unspecified like every register but `STATUS`, `CAUSE` and `FINFO` (R40; log 8). -/
def State.readReg (s : State) (no : Byte) : Nat :=
  match no.toNat with
  | 0x00 => if s.mode = .fault then s.cmd.toNat else 0
  | 0x01 => s.arg0.toNat
  | 0x02 => s.arg1.toNat
  | 0x03 => s.status.toNat
  | 0x04 => s.cause.number
  | 0x05 => s.finfo.toNat
  | 0x06 => s.result.toNat
  | 0x07 => s.mcs
  | 0x08 => s.cw
  | 0x09 => s.next
  | 0x0A => codeReg s.prev
  | 0x0B => codeReg s.cand
  | 0x0C => s.rpos
  | 0x0D => lengthReg s.posw s.ilen
  | 0x0E => s.bitpos
  | 0x0F => lengthReg s.posw s.clen
  | 0x10 => lengthReg s.posw s.oidx.length
  | 0x11 => lengthReg s.posw s.pbuf.length
  | 0x12 => lengthReg s.posw s.eout.length
  | _ => 0

/-- A word the host stores in `ARG0` or `ARG1`: in `FAULT` mode these registers stay unspecified, so
a new free value stands there (R40; log 9). -/
def State.hostWord (s : State) (reg : Nat) (v : Word) : Word :=
  if s.mode = .fault then Config.freeBits 32 s.draws reg else v

/-- A write of a register other than `CMD` (R26, R27): `ARG0` and `ARG1` are stored, every other
write is ignored. -/
def State.writeReg (s : State) (no : Byte) (v : Word) : State :=
  match no.toNat with
  | 0x01 => { s with arg0 := s.hostWord 0x01 v, draws := s.draws + (if s.mode = .fault then 1 else 0) }
  | 0x02 => { s with arg1 := s.hostWord 0x02 v, draws := s.draws + (if s.mode = .fault then 1 else 0) }
  | _ => s

/-- The command that a write of `v` to `CMD` with operand `data` issues (R26): the opcode is the
register's 8 bits of `v` (log 19). -/
def State.command (s : State) (v : Word) (data : List Byte) : Instr :=
  decodeCommand ⟨v.setWidth 8, s.arg0, s.arg1, data⟩

/-- `CMD` holds the opcode written; in `FAULT` mode nothing happens but a reset, which clears it
(R225; log 8). -/
def State.latchCmd (s : State) (v : Word) : State :=
  if s.mode = .fault then s else { s with cmd := v.setWidth 8 }

/-- `s` with an instruction of the opcode table placed where the next step fetches it: a command in
the host's next access, its operands in `ARG0` and `ARG1`; a code in `CBUF`, in a decode in progress
that reads 12-bit codes, with `DEC_STEP` the host's next access (log 15, 16). -/
def State.placeTableWord (s : State) (nbits w : Nat) : State :=
  if isCodeRow nbits then
    { s with
      mode := .dec, mcs := tableContext.mcs, cw := 12, next := tableContext.next,
      prev := tableContext.prev, dict := [(258, ⟨0, 0⟩)], bitpos := 0,
      cbuf := [BitVec.ofNat 8 w, BitVec.ofNat 8 (w / 2 ^ 8)],
      pending := .write regCmd (opDecStep.setWidth 32) [] :: s.pending }
  else
    let c := CmdWords.ofNumber w
    { s with
      arg0 := c.arg0, arg1 := c.arg1,
      pending := .write regCmd (c.op.setWidth 32) [] :: s.pending }

end Sys2Proof.Machine
end

