-- ==== Sys2Proof/Machine/Operands.lean ====
section
/-! DEFINITION. Operand ranges of the commands (R82, R84): every check compares the whole 32-bit
value or the whole byte sequence; nothing is truncated, scaled or sign-extended. -/

namespace Sys2Proof.Machine

/-- A minimum code size operand, 2..8 (R150, R181). -/
abbrev mcsInRange (mcs : Word) : Prop := Config.mcsMin ≤ mcs.toNat ∧ mcs.toNat ≤ Config.mcsMax

/-- A raw field width, 1..16 (R142, R206). -/
abbrev widthInRange (w : Word) : Prop := 1 ≤ w.toNat ∧ w.toNat ≤ Config.fieldMax

/-- A byte operand, 0..255 (R124, R204). -/
abbrev byteInRange (v : Word) : Prop := v.toNat ≤ 255

/-- A 16-bit operand (R205). -/
abbrev u16InRange (v : Word) : Prop := v.toNat ≤ 65535

/-- A `data` operand shorter than `2^POSW` bytes (R121, R141). -/
abbrev dataInRange (posw : Nat) (data : List Byte) : Prop := data.length < 2 ^ posw

/-- `k` if the operand is in range, else the fault `c(info)` (check 4 of R224). -/
def checked (ok : Prop) [Decidable ok] (c : Cause) (info : Nat) (s : State) (k : Result) : Result :=
  if ok then k else .next (s.raise c info)

/-- The two bytes of a 16-bit field, low byte first (R53, R205). -/
def u16Bytes (v : Word) : List Byte := [v.setWidth 8, (v >>> 8).setWidth 8]

/-- The 16-bit value of two bytes, low byte first (R53, R123). -/
def u16Value (lo hi : Byte) : BitVec 16 := BitVec.ofNat 16 (lo.toNat + 256 * hi.toNat)

end Sys2Proof.Machine
end

