-- ==== Sys2Proof/Machine/BitReader.lean ====
section
/-! DEFINITION. The bit reader's commands (R141 to R143), legal in `IDLE` only. -/

namespace Sys2Proof.Machine

/-- `CB_LOAD` (R141). -/
def execCbLoad (data : List Byte) (s : State) : Result :=
  inMode .idle opCbLoad s <|
    checked (dataInRange s.posw data) .badOperand opCbLoad.toNat s <|
      .next (s.loadCbuf data)

/-- `BR_GET` (R142): too few bits is no fault and sets `EXHF`. -/
def execBrGet (w : Word) (s : State) : Result :=
  inMode .idle opBrGet s <|
    checked (widthInRange w) .badOperand opBrGet.toNat s <|
      match getBits w.toNat s with
      | none => .next { s with exhf := true }
      | some (v, t) => .next { t with result := BitVec.ofNat 16 v, exhf := false }

/-- `BR_REWIND` (R143). -/
def execBrRewind (s : State) : Result :=
  inMode .idle opBrRewind s (.next { s with bitpos := 0 })

end Sys2Proof.Machine
end

