-- ==== Sys2Proof/Machine/SubBlock.lean ====
section
/-! DEFINITION. The sub-block tokens as `RD_SUBBLOCKS` consumes them (R90, R126), after their fetch
has moved `RPOS` past them. The payload gathered so far is the local `pay` of R126 (log 13). -/

namespace Sys2Proof.Machine

/-- A token outside `IDLE`: the commands that fetch tokens are legal in `IDLE` only (R224). -/
def inRun (s : State) (k : Result) : Result :=
  if s.mode = .idle then k else .refused .neverFetched

/-- `SB_DATA` (R90): its payload follows what was gathered. -/
def execSbData (_size : Byte) (payload : List Byte) (s : State) : Result :=
  inRun s (.next { s with pay := s.pay ++ payload })

/-- `SB_END` (R90): the gathered payload becomes `CBUF`. -/
def execSbEnd (s : State) : Result :=
  inRun s (.next { s.loadCbuf s.pay with pay := [] })

/-- The loop of R126 from a state whose `pay` holds what was gathered, with a bound on its turns. -/
def runTokens : Nat → State → Result
  | 0, _ => .fault .noProgress
  | k + 1, s =>
    match fetchToken s with
    | none => .next s.underrun
    | some (.sbData size payload, t) =>
      match execSbData size payload t with
      | .next u => runTokens k u
      | stopped => stopped
    | some (_, t) => execSbEnd t

/-- The body of `RD_SUBBLOCKS` (R126): each turn consumes a byte of `IBUF`, which bounds the loop. -/
def readSubblocks (s : State) : Result := runTokens (s.ilen + 1) { s with pay := [] }

end Sys2Proof.Machine
end

