-- ==== Sys2Proof/Machine/ByteReader.lean ====
section
/-! DEFINITION. The byte reader's commands (R121 to R127), legal in `IDLE` only. -/

namespace Sys2Proof.Machine

/-- `RD_OPEN` (R121). -/
def execRdOpen (data : List Byte) (s : State) : Result :=
  inMode .idle opRdOpen s <|
    checked (dataInRange s.posw data) .badOperand opRdOpen.toNat s <|
      .next { s with ibuf := data, rpos := 0 }

/-- `RD_U8` (R122). -/
def execRdU8 (s : State) : Result :=
  inMode .idle opRdU8 s <|
    match readByte s with
    | none => .next s.underrun
    | some (b, t) => .next { t with result := b.setWidth 16 }

/-- `RD_U16` (R123): with one byte left, that byte is not delivered. -/
def execRdU16 (s : State) : Result :=
  inMode .idle opRdU16 s <|
    match readRun 2 s with
    | some ([lo, hi], t) => .next { t with result := u16Value lo hi }
    | _ => .next s.underrun

/-- `RD_EXPECT` (R124): the operand check precedes the read; a mismatch reports its offset. -/
def execRdExpect (k : Word) (s : State) : Result :=
  inMode .idle opRdExpect s <|
    checked (byteInRange k) .badOperand opRdExpect.toNat s <|
      match readByte s with
      | none => .next s.underrun
      | some (b, t) =>
        if b.toNat = k.toNat then .next { t with result := b.setWidth 16 }
        else .next (t.raise .malformedStream s.rpos)

/-- `RD_BYTES` (R125): every byte count is legal. -/
def execRdBytes (n : Word) (s : State) : Result :=
  inMode .idle opRdBytes s <|
    match readRun n.toNat s with
    | none => .next s.underrun
    | some (r, t) => .next (t.loadCbuf r)

/-- `RD_SUBBLOCKS` (R126). -/
def execRdSubblocks (s : State) : Result := inMode .idle opRdSubblocks s (readSubblocks s)

/-- `RD_IMAGEDATA` (R127): the minimum-code-size byte, then a sub-block run; the byte is delivered
in `RESULT` when the run has succeeded and is not range-checked. -/
def execRdImagedata (s : State) : Result :=
  inMode .idle opRdImagedata s <|
    match readByte s with
    | none => .next s.underrun
    | some (m, t) =>
      match readSubblocks t with
      | .next u => if u.mode = .fault then .next u else .next { u with result := m.setWidth 16 }
      | stopped => stopped

end Sys2Proof.Machine
end

