-- ==== Sys2Proof/Machine/Decoder.lean ====
section
/-! DEFINITION. The LZW decoder: the six code classes (R152 to R157) as the decoder executes a code
after `GetBits` has moved `BITPOS` past it, and the commands `DEC_START`, `DEC_STEP`, `DEC_RUN`
(R150, R151, R160). -/

namespace Sys2Proof.Machine

/-! ## Codes -/

/-- The registers that give a code its class (R86). -/
def State.codeContext (s : State) : CodeContext := ⟨s.mcs, s.next, s.prev⟩

/-- `k` where the code `c` is read with class `want`: the mode is `DEC`, the registers are in range
and the tests of R86 give that class (log 12). -/
def asClass (want : CodeClass) (c : Code) (s : State) (k : Result) : Result :=
  if s.mode = .dec then
    codecOk s (if classify s.codeContext c = want then k else .refused .wrongClass)
  else .refused .neverFetched

/-- The common tail of a data code (R151): emit the sequence, append an entry, remember the code. -/
def emitSeq (c : Code) (q : Option (List Byte)) (s : State) : Result :=
  match q with
  | some (f :: rest) =>
    .next { append f { s with oidx := s.oidx ++ (f :: rest) } with prev := some c }
  | _ => .fault .seqUndefined

/-- `CLEAR` (R152). -/
def execClear (c : Code) (s : State) : Result :=
  asClass .clear c s (.next { s with next := s.clr + 2, cw := s.mcs + 1, prev := none })

/-- `EOI` (R153). -/
def execEoi (c : Code) (s : State) : Result := asClass .eoi c s (.next s.endByEoi)

/-- `LITERAL` (R154): the one-symbol sequence of the same value. -/
def execLiteral (c : Code) (s : State) : Result :=
  asClass .literal c s (emitSeq c (some [c.setWidth 8]) s)

/-- `DICT` (R155): the sequence of the dynamic entry. -/
def execDict (c : Code) (s : State) : Result := asClass .dict c s (emitSeq c (s.seq c) s)

/-- `Seq(PREV) ++ [First(PREV)]` (R156). -/
def State.kwkwkSeq (s : State) : Option (List Byte) :=
  match s.prev.bind s.seq with
  | some (f :: rest) => some (f :: rest ++ [f])
  | _ => none

/-- `KWKWK` (R156): the previous sequence and its own first symbol. -/
def execKwkwk (c : Code) (s : State) : Result := asClass .kwkwk c s (emitSeq c s.kwkwkSeq s)

/-- `INVALID` (R157). -/
def execInvalid (c : Code) (s : State) : Result :=
  asClass .invalid c s (.next (s.raise .invalidCode c.toNat))

/-! ## Commands -/

/-- The meaning of a code of a class. -/
def runCode (k : CodeClass) (c : Code) (s : State) : Result :=
  match k with
  | .clear => execClear c s
  | .eoi => execEoi c s
  | .literal => execLiteral c s
  | .dict => execDict c s
  | .kwkwk => execKwkwk c s
  | .invalid => execInvalid c s

/-- The body of `DEC_STEP` (R151): read one code and execute it, or end by exhaustion (R159). -/
def stepCode (s : State) : Result :=
  codecOk s <|
    match getBits s.cw s with
    | none => .next s.endByExhaustion
    | some (v, t) => runCode (classify t.codeContext (BitVec.ofNat 12 v)) (BitVec.ofNat 12 v) t

/-- `DEC_START` (R150). -/
def execDecStart (mcs : Word) (s : State) : Result :=
  inMode .idle opDecStart s <|
    checked (mcsInRange mcs) .badMinCodeSize mcs.toNat s <|
      .next { s with
        mcs := mcs.toNat, cw := mcs.toNat + 1, next := 2 ^ mcs.toNat + 2, prev := none,
        oidx := [], bitpos := 0, eoif := false, exhf := false, mode := .dec }

/-- `DEC_STEP` (R151). -/
def execDecStep (s : State) : Result := inMode .dec opDecStep s (stepCode s)

/-- The body of `DEC_STEP` while `MODE = DEC`, with a bound on the number of codes (R160). -/
def decLoop : Nat → State → Result
  | 0, _ => .fault .noProgress
  | k + 1, s =>
    match stepCode s with
    | .next t => if t.mode = .dec then decLoop k t else .next t
    | stopped => stopped

/-- `DEC_RUN` (R160): every code but the last consumes bits of `CBUF`, which bounds the loop
(R161). -/
def execDecRun (s : State) : Result := inMode .dec opDecRun s (decLoop (8 * s.clen + 1) s)

end Sys2Proof.Machine
end

