-- ==== Sys2Proof/Machine/Encoder.lean ====
section
/-! DEFINITION. The LZW encoder's commands `ENC_START`, `ENC_PUT`, `ENC_END` (R181 to R187). -/

namespace Sys2Proof.Machine

/-- `ENC_START` (R181): unflushed bits are dropped, `EOUT` stays. -/
def execEncStart (mcs : Word) (s : State) : Result :=
  inMode .idle opEncStart s <|
    checked (mcsInRange mcs) .badMinCodeSize mcs.toNat s <|
      let t := { s with
        mcs := mcs.toNat, cw := mcs.toNat + 1, next := 2 ^ mcs.toNat + 2, cand := none,
        pbuf := [], acc := 0, nacc := 0 }
      .next { putBits t.clr t.cw t with mode := .enc }

/-- Emit, insert, grow, restart the candidate (R185); the code has the width in force before any
growth. -/
def emitInsert (p : Code) (sym : Byte) (s : State) : State :=
  { insertGrow p sym (putBits p.toNat s.cw s) with cand := some (sym.setWidth 12) }

/-- One symbol of the greedy walk (R183, R184, R185). -/
def walk (sym : Byte) (s : State) : State :=
  match s.cand with
  | none => { s with cand := some (sym.setWidth 12) }
  | some p =>
    match s.lookup p sym with
    | some c => { s with cand := some c }
    | none => emitInsert p sym s

/-- `ENC_PUT` (R182). -/
def execEncPut (sym : Word) (s : State) : Result :=
  inMode .enc opEncPut s <|
    codecOk s <|
      checked (sym.toNat < s.clr) .symbolRange sym.toNat s (.next (walk (sym.setWidth 8) s))

/-- The final candidate's code, if there is one (R187, R192). -/
def putCandidate (s : State) : State :=
  match s.cand with
  | none => s
  | some p => putBits p.toNat s.cw s

/-- The end-of-information code at the current width (R187). -/
def putEoi (s : State) : State := putBits s.eoiCode s.cw s

/-- `ENC_END` (R187): nothing is inserted and the width does not grow. -/
def execEncEnd (s : State) : Result :=
  inMode .enc opEncEnd s <|
    codecOk s <|
      .next { chunk (flush (putEoi (putCandidate s))) with cand := none, mode := .idle }

end Sys2Proof.Machine
end

