-- ==== Sys2Proof/Machine/System.lean ====
section
/-! DEFINITION. The system commands and the unassigned opcodes (R221, R222, R83). -/

namespace Sys2Proof.Machine

/-- `NOP` (R221): no register, flag or buffer changes; ignored in `FAULT` mode, which is the same. -/
def execNop (s : State) : Result := .next s

/-- `RESET` (R222): legal in every mode. -/
def execReset (s : State) : Result := .next s.resetBlock

/-- `ILLEGAL` (R83, R236): an unassigned opcode raises `IllegalCommand` in every mode but `FAULT`,
where it is ignored (R225). -/
def execIllegal (op : Byte) (s : State) : Result :=
  if s.mode = .fault then .next s else .next (s.raise .illegalCommand op.toNat)

end Sys2Proof.Machine
end

