-- ==== Sys2Proof/Machine/Writer.lean ====
section
/-! DEFINITION. The writer's commands (R203 to R208), legal in `IDLE` only; none writes a flag. -/

namespace Sys2Proof.Machine

/-- `WR_OPEN` (R203). -/
def execWrOpen (s : State) : Result :=
  inMode .idle opWrOpen s (.next { s with eout := [], pbuf := [], acc := 0, nacc := 0 })

/-- `WR_U8` (R204): straight to `EOUT`, past the bit writer. -/
def execWrU8 (v : Word) (s : State) : Result :=
  inMode .idle opWrU8 s <|
    checked (byteInRange v) .badOperand opWrU8.toNat s <|
      .next { s with eout := s.eout ++ [v.setWidth 8] }

/-- `WR_U16` (R205): low byte first. -/
def execWrU16 (v : Word) (s : State) : Result :=
  inMode .idle opWrU16 s <|
    checked (u16InRange v) .badOperand opWrU16.toNat s <|
      .next { s with eout := s.eout ++ u16Bytes v }

/-- `BW_PUT` (R206): the width is checked before the value. -/
def execBwPut (v w : Word) (s : State) : Result :=
  inMode .idle opBwPut s <|
    checked (widthInRange w) .badOperand opBwPut.toNat s <|
      checked (v.toNat < 2 ^ w.toNat) .badOperand opBwPut.toNat s <|
        .next (putBits v.toNat w.toNat s)

/-- `BW_FLUSH` (R207). -/
def execBwFlush (s : State) : Result := inMode .idle opBwFlush s (.next (flush s))

/-- `WR_SUBBLOCKS` (R208). -/
def execWrSubblocks (s : State) : Result := inMode .idle opWrSubblocks s (.next (chunk (flush s)))

end Sys2Proof.Machine
end

