-- ==== Sys2Proof/Machine/Dispatch.lean ====
section
/-! DEFINITION. One arm per instruction. -/

namespace Sys2Proof.Machine

/-- The meaning of an instruction. A command's operands are the ones fetched with it; a code or a
token is executed in the state its fetch left. -/
def exec (i : Instr) (s : State) : Host.Outcome State Fault Refusal :=
  match i with
  | .nop => Sys2Proof.Machine.execNop s
  | .reset => Sys2Proof.Machine.execReset s
  | .rdOpen data => Sys2Proof.Machine.execRdOpen data s
  | .rdU8 => Sys2Proof.Machine.execRdU8 s
  | .rdU16 => Sys2Proof.Machine.execRdU16 s
  | .rdExpect k => Sys2Proof.Machine.execRdExpect k s
  | .rdBytes n => Sys2Proof.Machine.execRdBytes n s
  | .rdSubblocks => Sys2Proof.Machine.execRdSubblocks s
  | .rdImagedata => Sys2Proof.Machine.execRdImagedata s
  | .cbLoad data => Sys2Proof.Machine.execCbLoad data s
  | .brGet w => Sys2Proof.Machine.execBrGet w s
  | .brRewind => Sys2Proof.Machine.execBrRewind s
  | .decStart mcs => Sys2Proof.Machine.execDecStart mcs s
  | .decStep => Sys2Proof.Machine.execDecStep s
  | .decRun => Sys2Proof.Machine.execDecRun s
  | .encStart mcs => Sys2Proof.Machine.execEncStart mcs s
  | .encPut sym => Sys2Proof.Machine.execEncPut sym s
  | .encEnd => Sys2Proof.Machine.execEncEnd s
  | .wrOpen => Sys2Proof.Machine.execWrOpen s
  | .wrU8 v => Sys2Proof.Machine.execWrU8 v s
  | .wrU16 v => Sys2Proof.Machine.execWrU16 v s
  | .bwPut v w => Sys2Proof.Machine.execBwPut v w s
  | .bwFlush => Sys2Proof.Machine.execBwFlush s
  | .wrSubblocks => Sys2Proof.Machine.execWrSubblocks s
  | .illegal op => Sys2Proof.Machine.execIllegal op s
  | .clear c => Sys2Proof.Machine.execClear c s
  | .eoi c => Sys2Proof.Machine.execEoi c s
  | .literal c => Sys2Proof.Machine.execLiteral c s
  | .dict c => Sys2Proof.Machine.execDict c s
  | .kwkwk c => Sys2Proof.Machine.execKwkwk c s
  | .invalid c => Sys2Proof.Machine.execInvalid c s
  | .sbData size payload => Sys2Proof.Machine.execSbData size payload s
  | .sbEnd => Sys2Proof.Machine.execSbEnd s

end Sys2Proof.Machine
end

