-- ==== Sys2Proof/Machine/Step.lean ====
section
/-! DEFINITION. One step: the host's next access (R8, R220, R223). -/

namespace Sys2Proof.Machine

/-- The effect of one host access. A write of `CMD` runs the command to completion (R220); reads
change nothing but what the host has seen (R27, R223). -/
def access : HostAccess → State → Host.Outcome State Fault Refusal
  | .write no v data, s =>
    if no = regCmd then exec (s.command v data) (s.latchCmd v) else .next (s.writeReg no v)
  | .read no, s => .next { s with seen := .value (s.readReg no) }
  | .readOidx, s => .next { s with seen := .bytes s.oidx }
  | .readEout, s => .next { s with seen := .bytes s.eout }
  | .hardReset, s => .next s.resetBlock

/-- One step of the machine: the oldest access of the host; without one the block keeps all its
state (R251). -/
def step (s : State) : Host.Outcome State Fault Refusal :=
  match s.pending with
  | [] => .next s
  | a :: rest => access a { s with pending := rest }

/-- `s` with an instruction of the opcode table stored where `step` fetches its next one. -/
def State.withFetchWord (s : State) (nbits w : Nat) : State := s.placeTableWord nbits w

end Sys2Proof.Machine
end

