-- ==== Sys2Proof/Machine/Platform.lean ====
section
/-! DEFINITION. A platform of `NINST` independent instances (R4, R249): a list of instances, of which
one steps at a time; which one is the platform's choice and is an argument. -/

namespace Sys2Proof.Machine

/-- A platform; `NINST` is its length (log 3). -/
abbrev Platform := List State

/-- `NINST` instances, each in the reset state (R249). -/
def platformReset (ninst : Nat) : Platform := List.replicate ninst State.reset

/-- Instance `k` steps; a number that names no instance changes nothing. -/
def stepInstance (k : Nat) (p : Platform) : Host.Outcome Platform Fault Refusal :=
  match p[k]? with
  | none => .next p
  | some s =>
    match step s with
    | .next t => .next (p.set k t)
    | .fault r => .fault r
    | .refused r => .refused r

end Sys2Proof.Machine
end

