-- ==== Sys2Proof/Safety.lean ====
section
/-! DEFINITION. What counts as a safe run, in the terms the statements use: the invariants the spec
gives the machine, what raising a fault means to the host, the mode table, and runs of instructions. -/

namespace Sys2Proof.Machine

/-! ## Invariants (R11 to R25, R30, R37) -/

/-- A code that has a sequence (R29): a literal or a dynamic entry. -/
def State.IsSeqCode (s : State) (c : Code) : Prop :=
  c.toNat < s.clr ∨ (s.clr + 2 ≤ c.toNat ∧ c.toNat < s.next)

/-- R30 (a): every dynamic entry holds a smaller prefix that is no control code, and a symbol below
`CLR`. -/
def State.DictOk (s : State) : Prop :=
  ∀ c, s.clr + 2 ≤ c → c < s.next →
    ∃ e, s.dict.read c = some e ∧ e.pfx.toNat < c ∧ e.pfx.toNat ≠ s.clr ∧
      e.pfx.toNat ≠ s.eoiCode ∧ e.sym.toNat < s.clr

/-- R30 (e): no two dynamic entries hold the same pair. -/
def State.DictUnique (s : State) : Prop :=
  ∀ c d, s.clr + 2 ≤ c → c < s.next → s.clr + 2 ≤ d → d < s.next →
    s.dict.read c = s.dict.read d → c = d

/-- The registers fit the widths of R12 to R20. -/
def State.Widths (s : State) : Prop :=
  s.mcs < 2 ^ 4 ∧ s.cw < 2 ^ 4 ∧ s.next < 2 ^ 13 ∧ s.nacc < 2 ^ 3 ∧ s.rpos < 2 ^ s.posw ∧
    s.bitpos < 2 ^ (s.posw + 3)

/-- The invariant of the block between commands. What R40 leaves unspecified in `FAULT` mode is
claimed outside it only. -/
structure State.Inv (s : State) : Prop where
  /-- The dictionary memory keeps its canonical form. -/
  dictWf : s.dict.wf = true
  /-- Nothing is gathered between commands (log 13). -/
  payEmpty : s.pay = []
  /-- R12 to R20: widths. -/
  widths : s.Widths
  /-- R24: `CAUSE` is 0 exactly when `MODE` is not `FAULT`. -/
  causeIff : s.mode = .fault ↔ s.cause ≠ .none
  /-- R25: `FINFO` is 0 when `MODE` is not `FAULT`. -/
  finfoZero : s.mode ≠ .fault → s.finfo = 0
  /-- R18: the byte cursor stays within `IBUF`, whose length fits its register. -/
  byteCursor : s.mode ≠ .fault → s.rpos ≤ s.ilen ∧ s.ilen < 2 ^ s.posw
  /-- R19: the bit cursor stays within `CBUF`, whose length fits its register. -/
  bitCursor : s.mode ≠ .fault → s.bitpos ≤ 8 * s.clen ∧ s.clen < 2 ^ s.posw
  /-- R20: bits `NACC` to 7 of `ACC` are 0. -/
  writer : s.mode ≠ .fault → s.acc.toNat < 2 ^ s.nacc
  /-- R12 to R14, R30 (a) to (d) while a decode or an encode is in progress. -/
  codec : s.mode = .dec ∨ s.mode = .enc → s.CodecRegs ∧ s.next ≤ 2 ^ s.cw ∧ s.DictOk
  /-- R158: in the decoder `NEXT < 2^CW` holds between growths, up to the cap. -/
  decWidth : s.mode = .dec → s.next < 2 ^ s.cw ∨ s.cw = 12
  /-- R15: `PREV` is a code that has a sequence. -/
  prevCode : s.mode = .dec → ∀ p, s.prev = some p → s.IsSeqCode p
  /-- R22: no decode in progress has ended. -/
  noEndYet : s.mode = .dec → s.eoif = false ∧ s.exhf = false
  /-- R16: `CAND` is a code that has a sequence. -/
  candCode : s.mode = .enc → ∀ p, s.cand = some p → s.IsSeqCode p
  /-- R30 (e). -/
  unique : s.mode = .enc → s.DictUnique

/-! ## Faults as the host sees them -/

/-- The result is the fault `c(info)` raised in `s` (R241): `MODE`, `CAUSE` and `FINFO`, and nothing
of what R40 leaves unspecified; the parameter and the host's side stay. -/
def Raises (s : State) (r : Result) (c : Cause) (info : Nat) : Prop :=
  ∃ t, r = .next t ∧ t.mode = .fault ∧ t.cause = c ∧ t.finfo = BitVec.ofNat 32 info ∧
    t.posw = s.posw ∧ t.pending = s.pending ∧ t.seen = s.seen

/-- The opcode a command is encoded with (R82); a code or a token has none. -/
def opcodeOf (i : Instr) : Option Byte :=
  match encode i with
  | .command w => some w.op
  | .code _ => none
  | .token _ => none

/-- The mode table of R224 for the commands outside `FAULT` mode. -/
def legalIn (i : Instr) (m : Mode) : Bool :=
  match i with
  | .nop | .reset => true
  | .decStep | .decRun => m == .dec
  | .encPut _ | .encEnd => m == .enc
  | .illegal _ => false
  | .rdOpen _ | .rdU8 | .rdU16 | .rdExpect _ | .rdBytes _ | .rdSubblocks | .rdImagedata
  | .cbLoad _ | .brGet _ | .brRewind | .decStart _ | .encStart _ | .wrOpen | .wrU8 _ | .wrU16 _
  | .bwPut _ _ | .bwFlush | .wrSubblocks => m == .idle
  | .clear _ | .eoi _ | .literal _ | .dict _ | .kwkwk _ | .invalid _ | .sbData _ _ | .sbEnd => false

/-! ## Which instruction may write what (R11, R50) -/

/-- The address spaces of R50. -/
inductive Space where
  | ibuf | cbuf | dict | oidx | pbuf | eout
  deriving DecidableEq, Repr

/-- The spaces an instruction writes outside resets and faults (R28, R32 to R35, R50). -/
def spacesWritten : Instr → List Space
  | .rdOpen _ => [.ibuf]
  | .cbLoad _ | .rdBytes _ | .rdSubblocks | .rdImagedata | .sbEnd => [.cbuf]
  | .decStart _ => [.oidx]
  | .decStep | .decRun | .literal _ | .dict _ | .kwkwk _ => [.oidx, .dict]
  | .encPut _ => [.pbuf, .dict]
  | .encStart _ | .bwPut _ _ | .bwFlush => [.pbuf]
  | .encEnd | .wrOpen | .wrSubblocks => [.pbuf, .eout]
  | .wrU8 _ | .wrU16 _ => [.eout]
  | .nop | .reset | .rdU8 | .rdU16 | .rdExpect _ | .brGet _ | .brRewind | .illegal _ | .clear _
  | .eoi _ | .invalid _ | .sbData _ _ => []

/-- The instructions R11 names as writers of `MODE`, `raise` apart; `EOI` is the code whose execution
by `DEC_STEP` or `DEC_RUN` does it. -/
def writesMode : Instr → Bool
  | .decStart _ | .decStep | .decRun | .encStart _ | .encEnd | .reset | .eoi _ => true
  | .nop | .rdOpen _ | .rdU8 | .rdU16 | .rdExpect _ | .rdBytes _ | .rdSubblocks | .rdImagedata
  | .cbLoad _ | .brGet _ | .brRewind | .encPut _ | .wrOpen | .wrU8 _ | .wrU16 _ | .bwPut _ _
  | .bwFlush | .wrSubblocks | .illegal _ | .clear _ | .literal _ | .dict _ | .kwkwk _ | .invalid _
  | .sbData _ _ | .sbEnd => false

/-- The byte reader's commands that read from `IBUF` (R129). -/
def readsInput : Instr → Bool
  | .rdU8 | .rdU16 | .rdExpect _ | .rdBytes _ | .rdSubblocks | .rdImagedata => true
  | .nop | .reset | .rdOpen _ | .cbLoad _ | .brGet _ | .brRewind | .decStart _ | .decStep | .decRun
  | .encStart _ | .encPut _ | .encEnd | .wrOpen | .wrU8 _ | .wrU16 _ | .bwPut _ _ | .bwFlush
  | .wrSubblocks | .illegal _ | .clear _ | .eoi _ | .literal _ | .dict _ | .kwkwk _ | .invalid _
  | .sbData _ _ | .sbEnd => false

/-- The decoder's commands and the codes it executes (42_lzw_decoder.md). -/
def decodes : Instr → Bool
  | .decStart _ | .decStep | .decRun | .clear _ | .eoi _ | .literal _ | .dict _ | .kwkwk _
  | .invalid _ => true
  | .nop | .reset | .rdOpen _ | .rdU8 | .rdU16 | .rdExpect _ | .rdBytes _ | .rdSubblocks
  | .rdImagedata | .cbLoad _ | .brGet _ | .brRewind | .encStart _ | .encPut _ | .encEnd | .wrOpen
  | .wrU8 _ | .wrU16 _ | .bwPut _ _ | .bwFlush | .wrSubblocks | .illegal _ | .sbData _ _ | .sbEnd =>
    false

/-- One code of the decoder but `CLEAR`, and the encoder's commands after its start: what may move
`CW` by one (R37, R165, R190). -/
def mayGrowWidth : Instr → Bool
  | .eoi _ | .literal _ | .dict _ | .kwkwk _ | .encPut _ | .encEnd => true
  | .nop | .reset | .rdOpen _ | .rdU8 | .rdU16 | .rdExpect _ | .rdBytes _ | .rdSubblocks
  | .rdImagedata | .cbLoad _ | .brGet _ | .brRewind | .decStart _ | .decStep | .decRun | .encStart _
  | .wrOpen | .wrU8 _ | .wrU16 _ | .bwPut _ _ | .bwFlush | .wrSubblocks | .illegal _ | .clear _
  | .invalid _ | .sbData _ _ | .sbEnd => false

/-- Every register, flag and buffer at the value of R38, but the dictionary, whose entries R38
leaves unspecified. -/
def State.AtResetValues (s : State) : Prop :=
  s.mode = .idle ∧ s.mcs = 0 ∧ s.cw = 0 ∧ s.next = 0 ∧ s.prev = none ∧ s.cand = none ∧
    s.rpos = 0 ∧ s.ilen = 0 ∧ s.bitpos = 0 ∧ s.clen = 0 ∧ s.acc = 0 ∧ s.nacc = 0 ∧
    s.result = 0 ∧ s.eoif = false ∧ s.exhf = false ∧ s.status = 0 ∧ s.cause = .none ∧
    s.finfo = 0 ∧ s.cmd = 0 ∧ s.arg0 = 0 ∧ s.arg1 = 0 ∧ s.ibuf = [] ∧ s.cbuf = [] ∧
    s.oidx = [] ∧ s.pbuf = [] ∧ s.eout = []

/-! ## Runs -/

/-- Instructions one after another; the first stop ends the run. -/
def runAll : List Instr → State → Result
  | [], s => .next s
  | i :: rest, s =>
    match exec i s with
    | .next t => runAll rest t
    | stopped => stopped

/-- The pseudo-command `ENCODE mcs, syms` (R95). -/
def encodeCommands (mcs : Word) (syms : List Byte) : List Instr :=
  .encStart mcs :: syms.map (fun b => .encPut (b.setWidth 32)) ++ [.encEnd]

/-- The pseudo-command `DECODE mcs` (R95). -/
def decodeCommands (mcs : Word) : List Instr := [.decStart mcs, .decRun]

end Sys2Proof.Machine

namespace Sys2Proof

/-- The bytes of a sub-block run with the given payload blocks (R90). -/
def runBytes (blocks : List (List Byte)) : List Byte :=
  blocks.flatMap (fun b => BitVec.ofNat 8 b.length :: b) ++ [0]

/-- Blocks a data token can carry (R90). -/
def LegalBlocks (blocks : List (List Byte)) : Prop :=
  ∀ b ∈ blocks, 1 ≤ b.length ∧ b.length ≤ 255

end Sys2Proof
end

