-- ==== Sys2Proof/Certificates/Slice0/Obligations.lean ====
section
/-! DEFINITION. The statements for the provers. Each docstring names the rule of spec/ a statement
formalises. An equation `exec i s = .next { s with … }` says the effect, that the instruction
completes, and its frame: every field not named is unchanged. `Raises` is a fault as R241 defines it
and claims nothing of what R40 leaves unspecified. -/

open Sys2Proof Sys2Proof.Machine

/-! ## Reset, the order of checks, faults -/

/-- R38: reset, by the `RESET` command in every mode or by the hardware, leaves every piece of state
at its reset value (the dictionary's entries are unspecified). -/
def Obligations.ResetGivesResetValues : Prop :=
  State.reset.AtResetValues ∧
  ∀ s : State,
    (∃ t, exec .reset s = .next t ∧ t.AtResetValues) ∧
    (∃ t, access .hardReset s = .next t ∧ t.AtResetValues)

/-- R221: `NOP` changes nothing. -/
def Obligations.NopChangesNothing : Prop :=
  ∀ (s : State) (a0 a1 : Word) (d : List Byte),
    decodeCommand ⟨0x00, a0, a1, d⟩ = .nop ∧ exec .nop s = .next s

/-- R83, R236, R225: exactly the unassigned opcodes are `ILLEGAL`; outside `FAULT` mode such a
command raises `IllegalCommand` with the opcode, in `FAULT` mode it is ignored. -/
def Obligations.UnassignedOpcodesRaiseIllegalCommand : Prop :=
  ∀ (op : Byte) (a0 a1 : Word) (d : List Byte) (s : State),
    (unassigned op = true ↔ decodeCommand ⟨op, a0, a1, d⟩ = .illegal op) ∧
    (s.mode ≠ .fault → Raises s (exec (.illegal op) s) .illegalCommand op.toNat) ∧
    (s.mode = .fault → exec (.illegal op) s = .next s)

/-- R225: in `FAULT` mode every command but `RESET` changes nothing and raises nothing. -/
def Obligations.FaultModeIgnoresCommands : Prop :=
  ∀ (i : Instr) (s : State), i.format = .cmd → i ≠ .reset → s.mode = .fault →
    exec i s = .next s

/-- R236 with the mode table of R224: a command in a mode that does not allow it raises
`IllegalCommand` with its opcode, whatever its operands are (R240). -/
def Obligations.WrongModeRaisesIllegalCommand : Prop :=
  ∀ (i : Instr) (s : State) (op : Byte), opcodeOf i = some op → s.mode ≠ .fault →
    legalIn i s.mode = false → Raises s (exec i s) .illegalCommand op.toNat

/-- R237: a scalar operand outside its range, or a `data` operand of `2^POSW` bytes or more. -/
def Obligations.OperandOutOfRangeRaisesBadOperand : Prop :=
  ∀ s : State, s.mode = .idle →
    (∀ k : Word, 255 < k.toNat → Raises s (exec (.rdExpect k) s) .badOperand 0x13) ∧
    (∀ w : Word, w.toNat < 1 ∨ 16 < w.toNat → Raises s (exec (.brGet w) s) .badOperand 0x21) ∧
    (∀ v w : Word, w.toNat < 1 ∨ 16 < w.toNat → Raises s (exec (.bwPut v w) s) .badOperand 0x53) ∧
    (∀ v w : Word, 1 ≤ w.toNat → w.toNat ≤ 16 → 2 ^ w.toNat ≤ v.toNat →
      Raises s (exec (.bwPut v w) s) .badOperand 0x53) ∧
    (∀ v : Word, 255 < v.toNat → Raises s (exec (.wrU8 v) s) .badOperand 0x51) ∧
    (∀ v : Word, 65535 < v.toNat → Raises s (exec (.wrU16 v) s) .badOperand 0x52) ∧
    (∀ d : List Byte, 2 ^ s.posw ≤ d.length → Raises s (exec (.rdOpen d) s) .badOperand 0x10) ∧
    (∀ d : List Byte, 2 ^ s.posw ≤ d.length → Raises s (exec (.cbLoad d) s) .badOperand 0x20)

/-- R233, R235: a minimum code size outside 2..8, and a symbol not below `2^MCS`, with the operand in
`FINFO`. -/
def Obligations.CodecOperandOutOfRangeFaults : Prop :=
  ∀ s : State,
    (∀ m : Word, s.mode = .idle → m.toNat < 2 ∨ 8 < m.toNat →
      Raises s (exec (.decStart m) s) .badMinCodeSize m.toNat ∧
      Raises s (exec (.encStart m) s) .badMinCodeSize m.toNat) ∧
    (∀ y : Word, s.mode = .enc → s.CodecRegs → 2 ^ s.mcs ≤ y.toNat →
      Raises s (exec (.encPut y) s) .symbolRange y.toNat)

/-- R243 with R25, R225: the only exits from `FAULT` mode are `RESET` and the hardware reset, both to
the reset values; while the mode stays `FAULT`, `CAUSE` and `FINFO` describe the first fault. Which
32-bit words written to `CMD` are `RESET`, those whose low 8 bits are 0x01, is the model's reading
(log 19, DEDUCED), and so is the list of the host's accesses (log 1, DESIGN CHOICE). -/
def Obligations.OnlyResetLeavesFaultMode : Prop :=
  ∀ s t : State, s.mode = .fault → step s = .next t →
    (t.mode ≠ .fault →
      t.AtResetValues ∧
      ∃ rest, s.pending = .hardReset :: rest ∨
        ∃ v d, s.pending = .write 0x00 v d :: rest ∧ v.toNat % 256 = 0x01) ∧
    (t.mode = .fault → t.cause = s.cause ∧ t.finfo = s.finfo)

/-- R11: `MODE` is written only by `DEC_START`, `DEC_STEP` (its `EOI` code too), `DEC_RUN`,
`ENC_START`, `ENC_END`, `RESET` and by `raise`. -/
def Obligations.ModeWrittenOnlyByStartsAndEnds : Prop :=
  ∀ (i : Instr) (s t : State), exec i s = .next t →
    t.mode = s.mode ∨ t.mode = .fault ∨ writesMode i = true

/-! ## Byte reader -/

/-- R121. -/
def Obligations.RdOpenLoadsInput : Prop :=
  ∀ (s : State) (a0 a1 : Word) (d : List Byte),
    decodeCommand ⟨0x10, a0, a1, d⟩ = .rdOpen d ∧
    (s.mode = .idle →
      (2 ^ s.posw ≤ d.length → Raises s (exec (.rdOpen d) s) .badOperand 0x10) ∧
      (d.length < 2 ^ s.posw →
        exec (.rdOpen d) s = .next { s with ibuf := d, rpos := 0 }))

/-- R122. -/
def Obligations.RdU8DeliversByte : Prop :=
  ∀ (s : State) (a0 a1 : Word) (d : List Byte),
    decodeCommand ⟨0x11, a0, a1, d⟩ = .rdU8 ∧
    (s.mode = .idle →
      (∀ b, s.ibuf[s.rpos]? = some b →
        exec .rdU8 s = .next { s with rpos := s.rpos + 1, result := b.setWidth 16 }) ∧
      (s.ilen ≤ s.rpos → Raises s (exec .rdU8 s) .malformedStream s.ilen))

/-- R123, R53. -/
def Obligations.RdU16DeliversLittleEndian : Prop :=
  ∀ (s : State) (a0 a1 : Word) (d : List Byte),
    decodeCommand ⟨0x12, a0, a1, d⟩ = .rdU16 ∧
    (s.mode = .idle →
      (∀ lo hi, s.ibuf[s.rpos]? = some lo → s.ibuf[s.rpos + 1]? = some hi →
        exec .rdU16 s = .next { s with
          rpos := s.rpos + 2, result := BitVec.ofNat 16 (lo.toNat + 256 * hi.toNat) }) ∧
      (s.ilen < s.rpos + 2 → Raises s (exec .rdU16 s) .malformedStream s.ilen))

/-- R124. -/
def Obligations.RdExpectChecksByte : Prop :=
  ∀ (s : State) (k a1 : Word) (d : List Byte),
    decodeCommand ⟨0x13, k, a1, d⟩ = .rdExpect k ∧
    (s.mode = .idle →
      (255 < k.toNat → Raises s (exec (.rdExpect k) s) .badOperand 0x13) ∧
      (k.toNat ≤ 255 →
        (∀ b, s.ibuf[s.rpos]? = some b →
          (b.toNat = k.toNat →
            exec (.rdExpect k) s =
              .next { s with rpos := s.rpos + 1, result := b.setWidth 16 }) ∧
          (b.toNat ≠ k.toNat → Raises s (exec (.rdExpect k) s) .malformedStream s.rpos)) ∧
        (s.ilen ≤ s.rpos → Raises s (exec (.rdExpect k) s) .malformedStream s.ilen)))

/-- R125. -/
def Obligations.RdBytesFillsCbuf : Prop :=
  ∀ (s : State) (n a1 : Word) (d : List Byte),
    decodeCommand ⟨0x14, n, a1, d⟩ = .rdBytes n ∧
    (s.mode = .idle →
      (s.rpos + n.toNat ≤ s.ilen →
        exec (.rdBytes n) s = .next { s with
          rpos := s.rpos + n.toNat, cbuf := (s.ibuf.drop s.rpos).take n.toNat, bitpos := 0 }) ∧
      (s.ilen < s.rpos + n.toNat → Raises s (exec (.rdBytes n) s) .malformedStream s.ilen))

/-- R126, R90: a sub-block run at `RPOS`, of sub-blocks of any sizes 1..255, gives its payload;
where no whole run stands there, `MalformedStream(ILEN)`. -/
def Obligations.RdSubblocksDeliversPayload : Prop :=
  ∀ (s : State) (a0 a1 : Word) (d : List Byte),
    decodeCommand ⟨0x15, a0, a1, d⟩ = .rdSubblocks ∧
    (s.mode = .idle →
      (∀ blocks rest, LegalBlocks blocks → s.ibuf.drop s.rpos = runBytes blocks ++ rest →
        exec .rdSubblocks s = .next { s with
          rpos := s.rpos + (runBytes blocks).length, cbuf := blocks.flatten, bitpos := 0,
          pay := [] }) ∧
      ((¬ ∃ blocks rest, LegalBlocks blocks ∧ s.ibuf.drop s.rpos = runBytes blocks ++ rest) →
        Raises s (exec .rdSubblocks s) .malformedStream s.ilen))

/-- R127, R91: a byte and a sub-block run; the effect equals `RD_U8` followed by `RD_SUBBLOCKS`. -/
def Obligations.RdImagedataDeliversUnit : Prop :=
  ∀ (s : State) (a0 a1 : Word) (d : List Byte),
    decodeCommand ⟨0x16, a0, a1, d⟩ = .rdImagedata ∧
    (s.mode = .idle →
      (∀ m blocks rest, LegalBlocks blocks →
        s.ibuf.drop s.rpos = m :: runBytes blocks ++ rest →
        exec .rdImagedata s = .next { s with
          rpos := s.rpos + 1 + (runBytes blocks).length, cbuf := blocks.flatten, bitpos := 0,
          pay := [], result := m.setWidth 16 }) ∧
      ((¬ ∃ m blocks rest, LegalBlocks blocks ∧
          s.ibuf.drop s.rpos = m :: runBytes blocks ++ rest) →
        Raises s (exec .rdImagedata s) .malformedStream s.ilen) ∧
      (∀ t, exec .rdU8 s = .next t → t.mode = .idle →
        exec .rdImagedata s = exec .rdSubblocks t))

/-- R90, R126 as the model executes a token once it is fetched (log 13): a data token adds its
payload, the terminator delivers the run; and what the token decoder reads (R90). -/
def Obligations.SubblockTokensGatherAndDeliver : Prop :=
  (∀ (s : State) (n : Byte) (p : List Byte), s.mode = .idle →
    exec (.sbData n p) s = .next { s with pay := s.pay ++ p } ∧
    exec .sbEnd s = .next { s with cbuf := s.pay, bitpos := 0, pay := [] }) ∧
  (∀ rest, decodeToken (0 :: rest) = .ok .sbEnd rest) ∧
  (∀ p rest, 1 ≤ p.length → p.length ≤ 255 →
    decodeToken (BitVec.ofNat 8 p.length :: p ++ rest) =
      .ok (.sbData (BitVec.ofNat 8 p.length) p) rest)

/-- R129: what the reader's commands move and what they leave (`RD_OPEN` alone replaces `IBUF`, by
R121, and sets `RPOS` back). -/
def Obligations.ReaderCommandsKeepTheRest : Prop :=
  ∀ (i : Instr) (s t : State), readsInput i = true → s.mode = .idle → exec i s = .next t →
    t.mode ≠ .fault →
    t.mode = .idle ∧ s.rpos ≤ t.rpos ∧ (s.rpos ≤ s.ilen → t.rpos ≤ t.ilen) ∧
    t.ibuf = s.ibuf ∧ t.oidx = s.oidx ∧ t.pbuf = s.pbuf ∧ t.eout = s.eout ∧ t.dict = s.dict ∧
    t.mcs = s.mcs ∧ t.cw = s.cw ∧ t.next = s.next ∧ t.prev = s.prev ∧ t.cand = s.cand ∧
    t.acc = s.acc ∧ t.nacc = s.nacc ∧ t.eoif = s.eoif ∧ t.exhf = s.exhf ∧
    t.cause = s.cause ∧ t.finfo = s.finfo ∧ t.arg0 = s.arg0 ∧ t.arg1 = s.arg1

/-! ## Bit reader -/

/-- R141. -/
def Obligations.CbLoadReplacesCompressedBytes : Prop :=
  ∀ (s : State) (a0 a1 : Word) (d : List Byte),
    decodeCommand ⟨0x20, a0, a1, d⟩ = .cbLoad d ∧
    (s.mode = .idle →
      (2 ^ s.posw ≤ d.length → Raises s (exec (.cbLoad d) s) .badOperand 0x20) ∧
      (d.length < 2 ^ s.posw →
        exec (.cbLoad d) s = .next { s with cbuf := d, bitpos := 0 }))

/-- R142, R143. -/
def Obligations.BrGetReadsFieldAndBrRewindRewinds : Prop :=
  ∀ (s : State) (w a1 : Word) (d : List Byte),
    decodeCommand ⟨0x21, w, a1, d⟩ = .brGet w ∧
    decodeCommand ⟨0x22, w, a1, d⟩ = .brRewind ∧
    (s.mode = .idle →
      (w.toNat < 1 ∨ 16 < w.toNat → Raises s (exec (.brGet w) s) .badOperand 0x21) ∧
      (1 ≤ w.toNat → w.toNat ≤ 16 → s.bitpos + w.toNat ≤ 8 * s.clen →
        exec (.brGet w) s = .next { s with
          bitpos := s.bitpos + w.toNat,
          result := BitVec.ofNat 16 (field s.cbuf s.bitpos w.toNat), exhf := false }) ∧
      (1 ≤ w.toNat → w.toNat ≤ 16 → 8 * s.clen < s.bitpos + w.toNat →
        exec (.brGet w) s = .next { s with exhf := true }) ∧
      exec .brRewind s = .next { s with bitpos := 0 })

/-- R144: two fields read one after the other are the one field of both widths, low part first. -/
def Obligations.ConsecutiveFieldsConcatenate : Prop :=
  ∀ (s : State) (w w' : Nat), s.mode = .idle → 1 ≤ w → 1 ≤ w' → w + w' ≤ 16 →
    s.bitpos + w + w' ≤ 8 * s.clen →
    ∃ t u v, exec (.brGet (BitVec.ofNat 32 w)) s = .next t ∧
      exec (.brGet (BitVec.ofNat 32 w')) t = .next u ∧
      exec (.brGet (BitVec.ofNat 32 (w + w'))) s = .next v ∧
      v.bitpos = u.bitpos ∧
      v.result.toNat = t.result.toNat + 2 ^ w * u.result.toNat

/-! ## Decoder -/

/-- R150. -/
def Obligations.DecStartInitialisesDecoder : Prop :=
  ∀ (s : State) (m a1 : Word) (d : List Byte),
    decodeCommand ⟨0x30, m, a1, d⟩ = .decStart m ∧
    (s.mode = .idle →
      (m.toNat < 2 ∨ 8 < m.toNat →
        Raises s (exec (.decStart m) s) .badMinCodeSize m.toNat) ∧
      (2 ≤ m.toNat → m.toNat ≤ 8 →
        exec (.decStart m) s = .next { s with
          mcs := m.toNat, cw := m.toNat + 1, next := 2 ^ m.toNat + 2, prev := none, oidx := [],
          bitpos := 0, eoif := false, exhf := false, mode := .dec }))

/-- R86: exactly one class applies to a code, by the conditions of its table; a decoder's `NEXT` is
at least `CLR + 2` (R14). -/
def Obligations.CodeClassesByCondition : Prop :=
  ∀ (x : CodeContext) (c : Code), 2 ^ x.mcs + 2 ≤ x.next →
    (classify x c = .clear ↔ c.toNat = 2 ^ x.mcs) ∧
    (classify x c = .eoi ↔ c.toNat = 2 ^ x.mcs + 1) ∧
    (classify x c = .literal ↔ c.toNat < 2 ^ x.mcs) ∧
    (classify x c = .dict ↔ 2 ^ x.mcs + 2 ≤ c.toNat ∧ c.toNat < x.next) ∧
    (classify x c = .kwkwk ↔ c.toNat = x.next ∧ x.prev ≠ none) ∧
    (classify x c = .invalid ↔ x.next < c.toNat ∨ (c.toNat = x.next ∧ x.prev = none))

/-- R159: with fewer than `CW` bits left, `DEC_STEP` and `DEC_RUN` end the decode and change nothing
else. -/
def Obligations.ExhaustionEndsDecode : Prop :=
  ∀ s : State, s.mode = .dec → s.CodecRegs → 8 * s.clen < s.bitpos + s.cw →
    exec .decStep s = .next { s with exhf := true, mode := .idle } ∧
    exec .decRun s = .next { s with exhf := true, mode := .idle }

/-- R151, R85, R86: with `CW` bits left, `DEC_STEP` reads one code, moves the bit cursor past it and
executes the instruction the code is; on a literal code it completes with the literal's effect. -/
def Obligations.DecStepRunsDecodedCode : Prop :=
  ∀ (s : State) (a0 a1 : Word) (d : List Byte) (c : Code),
    decodeCommand ⟨0x31, a0, a1, d⟩ = .decStep ∧
    (s.mode = .dec → s.CodecRegs → s.bitpos + s.cw ≤ 8 * s.clen →
      c = BitVec.ofNat 12 (field s.cbuf s.bitpos s.cw) →
      c.toNat = field s.cbuf s.bitpos s.cw ∧
      exec .decStep s =
        exec (decodeCode ⟨s.mcs, s.next, s.prev⟩ c) { s with bitpos := s.bitpos + s.cw } ∧
      (c.toNat < s.clr →
        exec .decStep s = .next
          { append (c.setWidth 8) { s with
              bitpos := s.bitpos + s.cw, oidx := s.oidx ++ [c.setWidth 8] } with
            prev := some c }))

/-- R152, R153: `CLEAR` and `EOI`. -/
def Obligations.ControlCodesResetAndStop : Prop :=
  ∀ (s : State) (c : Code), s.mode = .dec → s.CodecRegs →
    (c.toNat = s.clr →
      exec (.clear c) s = .next { s with next := s.clr + 2, cw := s.mcs + 1, prev := none }) ∧
    (c.toNat = s.clr + 1 →
      exec (.eoi c) s = .next { s with eoif := true, mode := .idle })

/-- R154, R155: a literal emits its value, a dynamic code its sequence, of two symbols or more where
R30 (a) holds; then the common tail of R151: append with the first symbol, `PREV` becomes the
code. -/
def Obligations.DataCodesEmitTheirSequence : Prop :=
  ∀ (s : State) (c : Code), s.mode = .dec → s.CodecRegs →
    (c.toNat < s.clr →
      exec (.literal c) s = .next
        { append (c.setWidth 8) { s with oidx := s.oidx ++ [c.setWidth 8] } with
          prev := some c }) ∧
    (∀ f q, s.clr + 2 ≤ c.toNat → c.toNat < s.next → s.seq c = some (f :: q) →
      exec (.dict c) s = .next
        { append f { s with oidx := s.oidx ++ f :: q } with prev := some c } ∧
      (s.DictOk → 2 ≤ (f :: q).length))

/-- R156: the code equal to `NEXT` emits the previous sequence and its first symbol, the appended
entry is the one the code named, and its sequence is what was emitted. -/
def Obligations.KwkwkEmitsExtendedPrevious : Prop :=
  ∀ (s : State) (c p : Code) (f : Byte) (q : List Byte), s.mode = .dec → s.CodecRegs →
    c.toNat = s.next → s.prev = some p → s.seq p = some (f :: q) →
    ∃ t, exec (.kwkwk c) s = .next t ∧
      t = { append f { s with oidx := s.oidx ++ (f :: q ++ [f]) } with prev := some c } ∧
      t.next = s.next + 1 ∧ t.dict.read c.toNat = some ⟨p, f⟩ ∧
      t.seq c = some (f :: q ++ [f])

/-- R157: a code above `NEXT`, or equal to it with no previous code, is the fault `InvalidCode`; with
a full dictionary there is no such code. -/
def Obligations.InvalidCodeRaises : Prop :=
  ∀ (s : State) (c : Code), s.mode = .dec → s.CodecRegs →
    (s.next < c.toNat ∨ (c.toNat = s.next ∧ s.prev = none) →
      Raises s (exec (.invalid c) s) .invalidCode c.toNat) ∧
    (s.next = 4096 → ¬ (s.next < c.toNat ∨ (c.toNat = s.next ∧ s.prev = none)))

/-- R158: the dictionary append and the decoder's width growth at `NEXT = 2^CW`. -/
def Obligations.AppendAddsEntryAndGrows : Prop :=
  ∀ (f : Byte) (s : State),
    (s.prev = none → append f s = s) ∧
    (4096 ≤ s.next → append f s = s) ∧
    (∀ p, s.prev = some p → s.next < 4096 →
      append f s = { s with
        dict := s.dict.write s.next ⟨p, f⟩, next := s.next + 1,
        cw := if s.next + 1 = 2 ^ s.cw ∧ s.cw < 12 then s.cw + 1 else s.cw } ∧
      (append f s).dict.read s.next = some ⟨p, f⟩ ∧
      ∀ c, c ≠ s.next → (append f s).dict.read c = s.dict.read c)

/-- R166: with a full dictionary the width is 12, every 12-bit value is a defined code, and a data
code appends nothing but still becomes `PREV`. -/
def Obligations.FullDictionaryIsFrozen : Prop :=
  ∀ (s : State) (c : Code), s.Inv → s.mode = .dec → s.next = 4096 →
    s.cw = 12 ∧
    classify s.codeContext c ≠ .invalid ∧ classify s.codeContext c ≠ .kwkwk ∧
    (c.toNat ≠ s.clr → c.toNat ≠ s.eoiCode →
      ∃ t, exec (decodeCode s.codeContext c) s = .next t ∧ t.mode = .dec ∧ t.dict = s.dict ∧
        t.next = s.next ∧ t.cw = s.cw ∧ t.prev = some c)

/-- R29: what has a sequence, and which: a literal its value; a dynamic entry its prefix's sequence
and its symbol, of two symbols or more, all below `CLR` (R163); nothing else has one. -/
def Obligations.SequencesOfCodes : Prop :=
  ∀ (s : State) (c : Code),
    (c.toNat < s.clr → s.seq c = some [c.setWidth 8]) ∧
    (s.DictOk → s.clr + 2 ≤ c.toNat → c.toNat < s.next →
      ∃ e q, s.dict.read c.toNat = some e ∧ s.seq e.pfx = some q ∧
        s.seq c = some (q ++ [e.sym]) ∧ 2 ≤ (q ++ [e.sym]).length ∧
        ∀ y ∈ q ++ [e.sym], y.toNat < s.clr) ∧
    (c.toNat = s.clr ∨ c.toNat = s.eoiCode ∨ (s.clr + 2 ≤ s.next ∧ s.next ≤ c.toNat) →
      s.seq c = none)

/-- R160: `DEC_RUN` is `DEC_STEP` repeated while `MODE = DEC`; it ends in `IDLE` with exactly one of
`EOIF`, `EXHF` set (R22), or in `FAULT`. -/
def Obligations.DecRunIteratesDecStep : Prop :=
  ∀ (s : State) (a0 a1 : Word) (d : List Byte),
    decodeCommand ⟨0x32, a0, a1, d⟩ = .decRun ∧
    (s.mode = .dec →
      (∀ t, exec .decStep s = .next t →
        (t.mode = .dec → exec .decRun s = exec .decRun t) ∧
        (t.mode ≠ .dec → exec .decRun s = .next t)) ∧
      (∀ t, exec .decRun s = .next t → s.eoif = false → s.exhf = false →
        t.mode = .fault ∨ (t.mode = .idle ∧ t.eoif ≠ t.exhf)) ∧
      (s.Inv → ∃ t, exec .decRun s = .next t ∧
        (t.mode = .fault ∨ (t.mode = .idle ∧ t.eoif ≠ t.exhf))))

/-- R161: `DEC_RUN` always ends, after at most `8 * CLEN / 3 + 1` codes; and, with R220, the loop of
`RD_SUBBLOCKS` ends too. -/
def Obligations.DecRunEndsWithinBound : Prop :=
  ∀ s : State,
    (s.mode = .dec → exec .decRun s = decLoop (8 * s.clen / 3 + 1) s) ∧
    exec .decRun s ≠ .fault .noProgress ∧
    exec .rdSubblocks s ≠ .fault .noProgress ∧
    exec .rdImagedata s ≠ .fault .noProgress

/-- R163, R150: the decoder never writes `CBUF`, `IBUF`, `PBUF`, `EOUT`, `RPOS`, `ACC` or `NACC`; nor
the registers it has no part in. -/
def Obligations.DecoderKeepsTheRest : Prop :=
  ∀ (i : Instr) (s t : State), decodes i = true → exec i s = .next t → t.mode ≠ .fault →
    t.cbuf = s.cbuf ∧ t.ibuf = s.ibuf ∧ t.pbuf = s.pbuf ∧ t.eout = s.eout ∧ t.rpos = s.rpos ∧
    t.acc = s.acc ∧ t.nacc = s.nacc ∧ t.cand = s.cand ∧ t.result = s.result ∧
    t.cause = s.cause ∧ t.finfo = s.finfo ∧ t.cmd = s.cmd ∧ t.arg0 = s.arg0 ∧ t.arg1 = s.arg1

/-- R165, R190, R37: the code width stays in `MCS + 1 .. 12` and never decreases, but for a `CLEAR`
code (C1), and it grows by one bit at most. -/
def Obligations.CodeWidthIsMonotone : Prop :=
  (∀ (i : Instr) (s t : State), mayGrowWidth i = true → s.Inv → exec i s = .next t →
    t.mode ≠ .fault →
    s.cw ≤ t.cw ∧ t.cw ≤ s.cw + 1 ∧ s.mcs + 1 ≤ t.cw ∧ t.cw ≤ 12 ∧ t.next ≤ 4096) ∧
  (∀ (s t : State) (c : Code), exec (.clear c) s = .next t → t.cw = s.mcs + 1)

/-! ## Encoder -/

/-- R181. -/
def Obligations.EncStartWritesClear : Prop :=
  ∀ (s : State) (m a1 : Word) (d : List Byte),
    decodeCommand ⟨0x40, m, a1, d⟩ = .encStart m ∧
    (s.mode = .idle →
      (m.toNat < 2 ∨ 8 < m.toNat →
        Raises s (exec (.encStart m) s) .badMinCodeSize m.toNat) ∧
      (2 ≤ m.toNat → m.toNat ≤ 8 →
        exec (.encStart m) s = .next
          { putBits (2 ^ m.toNat) (m.toNat + 1) { s with
              mcs := m.toNat, cw := m.toNat + 1, next := 2 ^ m.toNat + 2, cand := none,
              pbuf := [], acc := 0, nacc := 0 } with
            mode := .enc }))

/-- R183, R184, R185: the three arms of `ENC_PUT` for a symbol below `2^MCS`. -/
def Obligations.EncPutFirstExtendEmit : Prop :=
  ∀ (s : State) (y : Word), s.mode = .enc → s.CodecRegs → y.toNat < 2 ^ s.mcs →
    (s.cand = none → exec (.encPut y) s = .next { s with cand := some (y.setWidth 12) }) ∧
    (∀ p c, s.cand = some p → s.lookup p (y.setWidth 8) = some c →
      exec (.encPut y) s = .next { s with cand := some c }) ∧
    (∀ p, s.cand = some p → s.lookup p (y.setWidth 8) = none →
      (s.next < 4096 →
        exec (.encPut y) s = .next { putBits p.toNat s.cw s with
          dict := s.dict.write s.next ⟨p, y.setWidth 8⟩, next := s.next + 1,
          cw := if 2 ^ s.cw < s.next + 1 ∧ s.cw < 12 then s.cw + 1 else s.cw,
          cand := some (y.setWidth 12) }) ∧
      (4096 ≤ s.next →
        exec (.encPut y) s = .next { putBits p.toNat s.cw s with
          cand := some (y.setWidth 12) }))

/-- R31: `Lookup(p, s)` is the dynamic code whose entry is the pair, where there is one. -/
def Obligations.LookupFindsThePair : Prop :=
  ∀ (s : State) (p : Code) (y : Byte), s.dict.wf = true →
    (∀ c, s.lookup p y = some c →
      s.clr + 2 ≤ c.toNat ∧ c.toNat < s.next ∧ s.dict.read c.toNat = some ⟨p, y⟩) ∧
    (s.lookup p y = none →
      ∀ c, s.clr + 2 ≤ c → c < s.next → s.dict.read c ≠ some ⟨p, y⟩) ∧
    (s.DictUnique → ∀ c : Code, s.clr + 2 ≤ c.toNat → c.toNat < s.next →
      s.dict.read c.toNat = some ⟨p, y⟩ → s.lookup p y = some c)

/-- R187: the final candidate's code and `EOI` at the current width, flush, chunk. -/
def Obligations.EncEndWritesEoiAndFrames : Prop :=
  ∀ (s : State) (a0 a1 : Word) (d : List Byte),
    decodeCommand ⟨0x42, a0, a1, d⟩ = .encEnd ∧
    (s.mode = .enc → s.CodecRegs →
      (s.cand = none →
        exec .encEnd s = .next { chunk (flush (putBits (2 ^ s.mcs + 1) s.cw s)) with
          cand := none, mode := .idle }) ∧
      (∀ p, s.cand = some p →
        exec .encEnd s = .next
          { chunk (flush (putBits (2 ^ s.mcs + 1) s.cw (putBits p.toNat s.cw s))) with
            cand := none, mode := .idle }))

/-- R188: every code the encoder writes fits its width. -/
def Obligations.EncoderCodesFitTheirWidth : Prop :=
  ∀ s : State, s.Inv → s.mode = .enc →
    2 ^ s.mcs < 2 ^ s.cw ∧ 2 ^ s.mcs + 1 < 2 ^ s.cw ∧
    ∀ p, s.cand = some p → p.toNat < 2 ^ s.cw

/-! ## Writer -/

/-- R203, R204, R205. -/
def Obligations.WriterBytesGoToEout : Prop :=
  ∀ (s : State) (v a1 : Word) (d : List Byte),
    decodeCommand ⟨0x50, v, a1, d⟩ = .wrOpen ∧
    decodeCommand ⟨0x51, v, a1, d⟩ = .wrU8 v ∧
    decodeCommand ⟨0x52, v, a1, d⟩ = .wrU16 v ∧
    (s.mode = .idle →
      exec .wrOpen s = .next { s with eout := [], pbuf := [], acc := 0, nacc := 0 } ∧
      (255 < v.toNat → Raises s (exec (.wrU8 v) s) .badOperand 0x51) ∧
      (v.toNat ≤ 255 →
        exec (.wrU8 v) s = .next { s with eout := s.eout ++ [BitVec.ofNat 8 v.toNat] }) ∧
      (65535 < v.toNat → Raises s (exec (.wrU16 v) s) .badOperand 0x52) ∧
      (v.toNat ≤ 65535 →
        exec (.wrU16 v) s = .next { s with
          eout := s.eout ++
            [BitVec.ofNat 8 (v.toNat % 256), BitVec.ofNat 8 (v.toNat / 256)] }))

/-- R206: the width is checked, then the value, then the field is put. R200, R51, R52: the field
stands at the stream's next bit position, the bits before it are unchanged, and `ACC`, `NACC` keep
the form of R20. The stream is the packed bytes followed by the partial byte. -/
def Obligations.BwPutWritesFieldAtStreamEnd : Prop :=
  ∀ (s : State) (v w : Word) (d : List Byte),
    decodeCommand ⟨0x53, v, w, d⟩ = .bwPut v w ∧
    (s.mode = .idle →
      (w.toNat < 1 ∨ 16 < w.toNat → Raises s (exec (.bwPut v w) s) .badOperand 0x53) ∧
      (1 ≤ w.toNat → w.toNat ≤ 16 → 2 ^ w.toNat ≤ v.toNat →
        Raises s (exec (.bwPut v w) s) .badOperand 0x53) ∧
      (s.nacc < 8 → s.acc.toNat < 2 ^ s.nacc → 1 ≤ w.toNat → w.toNat ≤ 16 →
        v.toNat < 2 ^ w.toNat →
        ∃ t, exec (.bwPut v w) s = .next t ∧
          t = { s with acc := t.acc, nacc := t.nacc, pbuf := t.pbuf } ∧
          t.nacc < 8 ∧ t.acc.toNat < 2 ^ t.nacc ∧
          8 * t.pbuf.length + t.nacc = 8 * s.pbuf.length + s.nacc + w.toNat ∧
          field (t.pbuf ++ [t.acc]) (8 * s.pbuf.length + s.nacc) w.toNat = v.toNat ∧
          ∀ k, k < 8 * s.pbuf.length + s.nacc →
            bitAt (t.pbuf ++ [t.acc]) k = bitAt (s.pbuf ++ [s.acc]) k))

/-- R201, R207. -/
def Obligations.BwFlushCompletesPartialByte : Prop :=
  ∀ (s : State) (a0 a1 : Word) (d : List Byte),
    decodeCommand ⟨0x54, a0, a1, d⟩ = .bwFlush ∧
    (s.mode = .idle →
      (0 < s.nacc →
        exec .bwFlush s = .next { s with pbuf := s.pbuf ++ [s.acc], acc := 0, nacc := 0 }) ∧
      (s.nacc = 0 → exec .bwFlush s = .next s))

/-- R208, R202, R90: `WR_SUBBLOCKS` flushes and appends the canonical run of the packed bytes: every
sub-block but the last has 255 bytes, the last 1 to 255, and the run is
`L + ceil(L / 255) + 1` bytes long. -/
def Obligations.WrSubblocksAppendsCanonicalRun : Prop :=
  ∀ (s : State) (a0 a1 : Word) (d p : List Byte),
    decodeCommand ⟨0x55, a0, a1, d⟩ = .wrSubblocks ∧
    (s.mode = .idle → p = s.pbuf ++ (if 0 < s.nacc then [s.acc] else []) →
      ∃ blocks, LegalBlocks blocks ∧ (∀ b ∈ blocks.dropLast, b.length = 255) ∧
        blocks.flatten = p ∧
        (runBytes blocks).length = p.length + (p.length + 254) / 255 + 1 ∧
        exec .wrSubblocks s = .next { s with
          eout := s.eout ++ runBytes blocks, pbuf := [],
          acc := if 0 < s.nacc then 0 else s.acc, nacc := 0 })

/-- R209 (framing): what the chunker frames, the reader takes apart again, where the run itself is
short enough for `RD_OPEN`. -/
def Obligations.FramingRoundTrip : Prop :=
  ∀ (s u : State), s.mode = .idle → s.nacc = 0 → u.mode = .idle →
    ∃ t r, exec .wrSubblocks s = .next t ∧ t.eout = s.eout ++ r ∧
      (r.length < 2 ^ u.posw →
        ∃ v, runAll [.rdOpen r, .rdSubblocks] u = .next v ∧ v.mode = .idle ∧
          v.cbuf = s.pbuf ∧ v.clen = s.pbuf.length ∧ v.rpos = r.length)

/-! ## The machine as a whole -/

/-- R50, R33 to R35, R28, R26: which instructions write which buffer, the dictionary and the operand
registers, outside resets and faults. -/
def Obligations.BuffersHaveTheirWriters : Prop :=
  ∀ (i : Instr) (s t : State), exec i s = .next t → t.mode ≠ .fault → i ≠ .reset →
    t.cmd = s.cmd ∧ t.arg0 = s.arg0 ∧ t.arg1 = s.arg1 ∧ t.cause = s.cause ∧ t.finfo = s.finfo ∧
    (t.ibuf = s.ibuf ∨ .ibuf ∈ spacesWritten i) ∧ (t.cbuf = s.cbuf ∨ .cbuf ∈ spacesWritten i) ∧
    (t.dict = s.dict ∨ .dict ∈ spacesWritten i) ∧ (t.oidx = s.oidx ∨ .oidx ∈ spacesWritten i) ∧
    (t.pbuf = s.pbuf ∨ .pbuf ∈ spacesWritten i) ∧ (t.eout = s.eout ∨ .eout ∈ spacesWritten i)

/-- The invariant holds at reset (R38). Its clauses on the dictionary's canonical form and on `pay`
are the model's own (log 11 and 13, DESIGN CHOICE). -/
def Obligations.InvariantHoldsAtReset : Prop := State.reset.Inv

/-- R11 to R25, R30, R37: every step keeps the invariant, from every state that meets it. Its clauses
on the dictionary's canonical form and on `pay` are the model's own (log 11 and 13, DESIGN CHOICE). -/
def Obligations.EveryStepKeepsInvariant : Prop :=
  ∀ s t : State, s.Inv → step s = .next t → t.Inv

/-- R220: from a state that meets the invariant every step completes: none of the model's own stops
(log 12 to 14) is met. -/
def Obligations.NoStepStopsUnderInvariant : Prop :=
  ∀ s : State, s.Inv → ∃ t, step s = .next t

/-- R220, R26: a write of `CMD` executes the command. Three clauses are the model's choice and not the
spec's: that the host's accesses are a list the step consumes (log 1, DESIGN CHOICE); that `CMD` then
holds the opcode, and in `FAULT` mode keeps its value (log 8, DESIGN CHOICE); and that the opcode is
the low 8 bits of the 32-bit word written (log 19, DEDUCED). -/
def Obligations.StepRunsDecodedCommand : Prop :=
  ∀ (s : State) (v : Word) (d : List Byte) (rest : List HostAccess),
    s.pending = .write 0x00 v d :: rest →
    step s = exec (decodeCommand ⟨BitVec.ofNat 8 v.toNat, s.arg0, s.arg1, d⟩)
      { s with
        pending := rest, cmd := if s.mode = .fault then s.cmd else BitVec.ofNat 8 v.toNat }

/-- R27, R223, R251: what the host's other accesses do outside `FAULT` mode: reads change nothing but
what the host has seen, `ARG0` and `ARG1` are stored, every other write is ignored. The list of
accesses and the record of what was read are the model's (log 1, DESIGN CHOICE). -/
def Obligations.HostReadsAndWritesRegisters : Prop :=
  ∀ (s : State) (no : Byte) (v : Word) (d : List Byte) (rest : List HostAccess),
    (s.pending = [] → step s = .next s) ∧
    (s.pending = .read no :: rest →
      step s = .next { s with pending := rest, seen := .value (s.readReg no) }) ∧
    (s.pending = .readOidx :: rest →
      step s = .next { s with pending := rest, seen := .bytes s.oidx }) ∧
    (s.pending = .readEout :: rest →
      step s = .next { s with pending := rest, seen := .bytes s.eout }) ∧
    (s.pending = .write 0x01 v d :: rest → s.mode ≠ .fault →
      step s = .next { s with pending := rest, arg0 := v }) ∧
    (s.pending = .write 0x02 v d :: rest → s.mode ≠ .fault →
      step s = .next { s with pending := rest, arg1 := v }) ∧
    (s.pending = .write no v d :: rest → 0x02 < no.toNat →
      step s = .next { s with pending := rest }) ∧
    (0x13 ≤ no.toNat → s.readReg no = 0) ∧
    (s.mode ≠ .fault → s.readReg 0x00 = 0)

/-- R23, R22, R11: the bits of `STATUS`, a view the host reads as register 0x03; writes of it are
ignored, and at reset it is 0. -/
def Obligations.StatusIsViewOfModeAndFlags : Prop :=
  State.reset.status = 0 ∧
  ∀ (s : State) (v : Word) (d : List Byte) (rest : List HostAccess),
    s.readReg 0x03 =
      (match s.mode with
        | .idle => 0
        | .dec => 1
        | .enc => 2
        | .fault => 7) +
      (if s.eoif then 16 else 0) + (if s.exhf then 32 else 0) +
      (if s.next = 4096 then 64 else 0) ∧
    (s.pending = .write 0x03 v d :: rest → step s = .next { s with pending := rest })

/-- R27, R15, R16, R231: which register each number reads, where the buffers' lengths fit the `POSW`
bits of their registers. -/
def Obligations.RegisterNumbersReadTheirRegisters : Prop :=
  ∀ s : State, s.ilen < 2 ^ s.posw → s.clen < 2 ^ s.posw → s.oidx.length < 2 ^ s.posw →
    s.pbuf.length < 2 ^ s.posw → s.eout.length < 2 ^ s.posw →
    s.readReg 0x01 = s.arg0.toNat ∧ s.readReg 0x02 = s.arg1.toNat ∧
    s.readReg 0x04 =
      (match s.cause with
        | .none => 0
        | .malformedStream => 1
        | .badMinCodeSize => 2
        | .invalidCode => 3
        | .symbolRange => 4
        | .illegalCommand => 5
        | .badOperand => 6) ∧
    s.readReg 0x05 = s.finfo.toNat ∧ s.readReg 0x06 = s.result.toNat ∧ s.readReg 0x07 = s.mcs ∧
    s.readReg 0x08 = s.cw ∧ s.readReg 0x09 = s.next ∧
    (s.prev = none → s.readReg 0x0A = 0) ∧
    (∀ c, s.prev = some c → s.readReg 0x0A = 4096 + c.toNat) ∧
    (s.cand = none → s.readReg 0x0B = 0) ∧
    (∀ c, s.cand = some c → s.readReg 0x0B = 4096 + c.toNat) ∧
    s.readReg 0x0C = s.rpos ∧ s.readReg 0x0D = s.ilen ∧ s.readReg 0x0E = s.bitpos ∧
    s.readReg 0x0F = s.clen ∧ s.readReg 0x10 = s.oidx.length ∧ s.readReg 0x11 = s.pbuf.length ∧
    s.readReg 0x12 = s.eout.length

/-- R249, R62: a step of one instance leaves every other instance alone, and steps of two instances
give the same platform in either order. -/
def Obligations.InstancesShareNothing : Prop :=
  ∀ (p q : Platform) (j k : Nat), j ≠ k → stepInstance j p = .next q →
    q[k]? = p[k]? ∧ q.length = p.length ∧
    ∀ r, stepInstance k q = .next r →
      ∃ q', stepInstance k p = .next q' ∧ stepInstance j q' = .next r

/-- R193, R28: a decode is a function of `mcs` and `CBUF`: two idle instances, whatever their
dictionaries and other registers hold, end alike. -/
def Obligations.DecodeDependsOnCompressedBytesOnly : Prop :=
  ∀ (m : Word) (s s' : State), s.mode = .idle → s'.mode = .idle → s.cbuf = s'.cbuf →
    ∃ t t', runAll (decodeCommands m) s = .next t ∧ runAll (decodeCommands m) s' = .next t' ∧
      t.mode = t'.mode ∧
      (t.mode = .fault → t.cause = t'.cause ∧ t.finfo = t'.finfo) ∧
      (t.mode ≠ .fault →
        t.oidx = t'.oidx ∧ t.eoif = t'.eoif ∧ t.exhf = t'.exhf ∧ t.bitpos = t'.bitpos ∧
        t.cw = t'.cw ∧ t.next = t'.next ∧ t.prev = t'.prev)

/-- R193, R187: what an encode appends to `EOUT` is a function of `mcs` and the symbols: two idle
instances, whatever their dictionaries and other registers hold, append the same bytes. -/
def Obligations.EncodeDependsOnSymbolsOnly : Prop :=
  ∀ (m : Word) (syms : List Byte) (s s' : State), 2 ≤ m.toNat → m.toNat ≤ 8 →
    (∀ y ∈ syms, y.toNat < 2 ^ m.toNat) → s.mode = .idle → s'.mode = .idle →
    s.dict.wf = true → s'.dict.wf = true →
    ∃ t t' out, runAll (encodeCommands m syms) s = .next t ∧
      runAll (encodeCommands m syms) s' = .next t' ∧ t.mode = .idle ∧ t'.mode = .idle ∧
      t.eout = s.eout ++ out ∧ t'.eout = s'.eout ++ out ∧ t.cw = t'.cw ∧ t.next = t'.next

/-- R189: the inverse law. Encoding appends a run `e` to `EOUT`; reading `e` back through the
sub-block reader and decoding gives the symbols, where `e` is short enough for `RD_OPEN`. -/
def Obligations.DecodeInvertsEncode : Prop :=
  ∀ (m : Word) (syms : List Byte) (s u : State), 2 ≤ m.toNat → m.toNat ≤ 8 →
    (∀ y ∈ syms, y.toNat < 2 ^ m.toNat) → s.mode = .idle → s.dict.wf = true → u.mode = .idle →
    ∃ t e, runAll (encodeCommands m syms) s = .next t ∧ t.mode = .idle ∧
      t.eout = s.eout ++ e ∧
      (e.length < 2 ^ u.posw →
        ∃ v, runAll (.rdOpen e :: .rdSubblocks :: decodeCommands m) u = .next v ∧
          v.mode = .idle ∧ v.rpos = e.length ∧ v.oidx = syms ∧ v.eoif ≠ v.exhf)

/-! ## Encoding -/

/-- R82, R85, R90: decoding an encoded well-formed instruction gives it back: a command from its
registers, a token from its bytes whatever follows, a code from the packed stream it was written into,
at any bit position and width that holds it. The `decodeTableWord` clause reads a command from the
model's own numbering of `CMD`, `ARG0` and `ARG1` as 72 bits (log 15, DESIGN CHOICE), and that an
encoded command holds 0 in the operands it ignores is the model's choice too (log 20, DESIGN CHOICE):
neither is a rule of the spec. -/
def Obligations.DecodingInvertsEncoding : Prop :=
  (∀ (i : Instr) (w : CmdWords) (x : CodeContext), i.wellFormed = true → encode i = .command w →
    decode x (encode i) = .ok i [] ∧
    (w.data = [] → decodeTableWord 72 w.number = some i)) ∧
  (∀ (i : Instr) (bytes rest : List Byte), i.wellFormed = true → encode i = .token bytes →
    decodeToken (bytes ++ rest) = .ok i rest) ∧
  (∀ (i : Instr) (c : Code) (x : CodeContext) (s t : State) (w : Nat), encode i = .code c →
    decodeCode x c = i → c.toNat < 2 ^ w → w ≤ 12 → s.nacc < 8 → s.acc.toNat < 2 ^ s.nacc →
    t = putBits c.toNat w s →
    decodeCode x (BitVec.ofNat 12
      (field (t.pbuf ++ [t.acc]) (8 * s.pbuf.length + s.nacc) w)) = i)

/-- R82, R83, R86, R90: opcodes, code values and token bytes taken from the spec's tables decode to
the instructions they stand for. Where the operands stand in a command's number, and that a number of
a row's width is read as a command, is the model's own numbering (log 15, DESIGN CHOICE) and no
encoding of the spec. -/
def Obligations.KnownWordsDecode : Prop :=
  decodeTableWord 8 0x11 = some .rdU8 ∧
  decodeTableWord 72 (0x53 + 5 * 2 ^ 8 + 3 * 2 ^ 40) = some (.bwPut 5 3) ∧
  decodeTableWord 40 (0x30 + 2 * 2 ^ 8) = some (.decStart 2) ∧
  decodeTableWord 8 0x42 = some .encEnd ∧
  decodeTableWord 8 0x02 = some (.illegal 0x02) ∧
  decodeCode ⟨2, 6, none⟩ 4 = .clear 4 ∧
  decodeCode ⟨2, 6, some 1⟩ 6 = .kwkwk 6 ∧
  decodeToken [0x02, 0xAA, 0xBB, 0x01] = .ok (.sbData 0x02 [0xAA, 0xBB]) [0x01]
end

