-- ==== Sys2Proof/Laws/State.lean ====
section
/-! SUPPORT. The fields of a state after each named update: one lemma per field that the update sets
or keeps, so that no proof unfolds a record update. -/

namespace Sys2Proof.Machine

variable (s : State)

/-! ## Raising a fault (R241): what it defines, and what it leaves to the host's side -/

@[simp] theorem raise_mode (c : Cause) (info : Nat) : (s.raise c info).mode = .fault := rfl
@[simp] theorem raise_cause (c : Cause) (info : Nat) : (s.raise c info).cause = c := rfl
@[simp] theorem raise_finfo (c : Cause) (info : Nat) : (s.raise c info).finfo = BitVec.ofNat 32 info := rfl
@[simp] theorem raise_dict (c : Cause) (info : Nat) : (s.raise c info).dict = [] := rfl
@[simp] theorem raise_pay (c : Cause) (info : Nat) : (s.raise c info).pay = [] := rfl
@[simp] theorem raise_posw (c : Cause) (info : Nat) : (s.raise c info).posw = s.posw := rfl
@[simp] theorem raise_draws (c : Cause) (info : Nat) : (s.raise c info).draws = s.draws + 1 := rfl
@[simp] theorem raise_pending (c : Cause) (info : Nat) : (s.raise c info).pending = s.pending := rfl
@[simp] theorem raise_seen (c : Cause) (info : Nat) : (s.raise c info).seen = s.seen := rfl

/-- Running out of input is the fault `MalformedStream(ILEN)`. -/
theorem underrun_eq : s.underrun = s.raise .malformedStream s.ilen := rfl

/-! ## Reset (R222, R260) -/

@[simp] theorem resetBlock_mode : (s.resetBlock).mode = .idle := rfl
@[simp] theorem resetBlock_mcs : (s.resetBlock).mcs = 0 := rfl
@[simp] theorem resetBlock_cw : (s.resetBlock).cw = 0 := rfl
@[simp] theorem resetBlock_next : (s.resetBlock).next = 0 := rfl
@[simp] theorem resetBlock_prev : (s.resetBlock).prev = none := rfl
@[simp] theorem resetBlock_cand : (s.resetBlock).cand = none := rfl
@[simp] theorem resetBlock_rpos : (s.resetBlock).rpos = 0 := rfl
@[simp] theorem resetBlock_bitpos : (s.resetBlock).bitpos = 0 := rfl
@[simp] theorem resetBlock_acc : (s.resetBlock).acc = 0 := rfl
@[simp] theorem resetBlock_nacc : (s.resetBlock).nacc = 0 := rfl
@[simp] theorem resetBlock_result : (s.resetBlock).result = 0 := rfl
@[simp] theorem resetBlock_eoif : (s.resetBlock).eoif = false := rfl
@[simp] theorem resetBlock_exhf : (s.resetBlock).exhf = false := rfl
@[simp] theorem resetBlock_cause : (s.resetBlock).cause = .none := rfl
@[simp] theorem resetBlock_finfo : (s.resetBlock).finfo = 0 := rfl
@[simp] theorem resetBlock_cmd : (s.resetBlock).cmd = 0 := rfl
@[simp] theorem resetBlock_arg0 : (s.resetBlock).arg0 = 0 := rfl
@[simp] theorem resetBlock_arg1 : (s.resetBlock).arg1 = 0 := rfl
@[simp] theorem resetBlock_dict : (s.resetBlock).dict = [] := rfl
@[simp] theorem resetBlock_ibuf : (s.resetBlock).ibuf = [] := rfl
@[simp] theorem resetBlock_cbuf : (s.resetBlock).cbuf = [] := rfl
@[simp] theorem resetBlock_oidx : (s.resetBlock).oidx = [] := rfl
@[simp] theorem resetBlock_pbuf : (s.resetBlock).pbuf = [] := rfl
@[simp] theorem resetBlock_eout : (s.resetBlock).eout = [] := rfl
@[simp] theorem resetBlock_posw : (s.resetBlock).posw = s.posw := rfl
@[simp] theorem resetBlock_pay : (s.resetBlock).pay = [] := rfl
@[simp] theorem resetBlock_draws : (s.resetBlock).draws = s.draws := rfl
@[simp] theorem resetBlock_pending : (s.resetBlock).pending = s.pending := rfl
@[simp] theorem resetBlock_seen : (s.resetBlock).seen = s.seen := rfl

/-! ## A new `CBUF` (R33) -/

@[simp] theorem loadCbuf_mode (b : List Byte) : (s.loadCbuf b).mode = s.mode := rfl
@[simp] theorem loadCbuf_mcs (b : List Byte) : (s.loadCbuf b).mcs = s.mcs := rfl
@[simp] theorem loadCbuf_cw (b : List Byte) : (s.loadCbuf b).cw = s.cw := rfl
@[simp] theorem loadCbuf_next (b : List Byte) : (s.loadCbuf b).next = s.next := rfl
@[simp] theorem loadCbuf_prev (b : List Byte) : (s.loadCbuf b).prev = s.prev := rfl
@[simp] theorem loadCbuf_cand (b : List Byte) : (s.loadCbuf b).cand = s.cand := rfl
@[simp] theorem loadCbuf_rpos (b : List Byte) : (s.loadCbuf b).rpos = s.rpos := rfl
@[simp] theorem loadCbuf_bitpos (b : List Byte) : (s.loadCbuf b).bitpos = 0 := rfl
@[simp] theorem loadCbuf_acc (b : List Byte) : (s.loadCbuf b).acc = s.acc := rfl
@[simp] theorem loadCbuf_nacc (b : List Byte) : (s.loadCbuf b).nacc = s.nacc := rfl
@[simp] theorem loadCbuf_result (b : List Byte) : (s.loadCbuf b).result = s.result := rfl
@[simp] theorem loadCbuf_eoif (b : List Byte) : (s.loadCbuf b).eoif = s.eoif := rfl
@[simp] theorem loadCbuf_exhf (b : List Byte) : (s.loadCbuf b).exhf = s.exhf := rfl
@[simp] theorem loadCbuf_cause (b : List Byte) : (s.loadCbuf b).cause = s.cause := rfl
@[simp] theorem loadCbuf_finfo (b : List Byte) : (s.loadCbuf b).finfo = s.finfo := rfl
@[simp] theorem loadCbuf_cmd (b : List Byte) : (s.loadCbuf b).cmd = s.cmd := rfl
@[simp] theorem loadCbuf_arg0 (b : List Byte) : (s.loadCbuf b).arg0 = s.arg0 := rfl
@[simp] theorem loadCbuf_arg1 (b : List Byte) : (s.loadCbuf b).arg1 = s.arg1 := rfl
@[simp] theorem loadCbuf_dict (b : List Byte) : (s.loadCbuf b).dict = s.dict := rfl
@[simp] theorem loadCbuf_ibuf (b : List Byte) : (s.loadCbuf b).ibuf = s.ibuf := rfl
@[simp] theorem loadCbuf_cbuf (b : List Byte) : (s.loadCbuf b).cbuf = b := rfl
@[simp] theorem loadCbuf_oidx (b : List Byte) : (s.loadCbuf b).oidx = s.oidx := rfl
@[simp] theorem loadCbuf_pbuf (b : List Byte) : (s.loadCbuf b).pbuf = s.pbuf := rfl
@[simp] theorem loadCbuf_eout (b : List Byte) : (s.loadCbuf b).eout = s.eout := rfl
@[simp] theorem loadCbuf_posw (b : List Byte) : (s.loadCbuf b).posw = s.posw := rfl
@[simp] theorem loadCbuf_pay (b : List Byte) : (s.loadCbuf b).pay = s.pay := rfl
@[simp] theorem loadCbuf_draws (b : List Byte) : (s.loadCbuf b).draws = s.draws := rfl
@[simp] theorem loadCbuf_pending (b : List Byte) : (s.loadCbuf b).pending = s.pending := rfl
@[simp] theorem loadCbuf_seen (b : List Byte) : (s.loadCbuf b).seen = s.seen := rfl

/-! ## The end of a decode by end-of-information (R153) -/

@[simp] theorem endByEoi_mode : (s.endByEoi).mode = .idle := rfl
@[simp] theorem endByEoi_mcs : (s.endByEoi).mcs = s.mcs := rfl
@[simp] theorem endByEoi_cw : (s.endByEoi).cw = s.cw := rfl
@[simp] theorem endByEoi_next : (s.endByEoi).next = s.next := rfl
@[simp] theorem endByEoi_prev : (s.endByEoi).prev = s.prev := rfl
@[simp] theorem endByEoi_cand : (s.endByEoi).cand = s.cand := rfl
@[simp] theorem endByEoi_rpos : (s.endByEoi).rpos = s.rpos := rfl
@[simp] theorem endByEoi_bitpos : (s.endByEoi).bitpos = s.bitpos := rfl
@[simp] theorem endByEoi_acc : (s.endByEoi).acc = s.acc := rfl
@[simp] theorem endByEoi_nacc : (s.endByEoi).nacc = s.nacc := rfl
@[simp] theorem endByEoi_result : (s.endByEoi).result = s.result := rfl
@[simp] theorem endByEoi_eoif : (s.endByEoi).eoif = true := rfl
@[simp] theorem endByEoi_exhf : (s.endByEoi).exhf = s.exhf := rfl
@[simp] theorem endByEoi_cause : (s.endByEoi).cause = s.cause := rfl
@[simp] theorem endByEoi_finfo : (s.endByEoi).finfo = s.finfo := rfl
@[simp] theorem endByEoi_cmd : (s.endByEoi).cmd = s.cmd := rfl
@[simp] theorem endByEoi_arg0 : (s.endByEoi).arg0 = s.arg0 := rfl
@[simp] theorem endByEoi_arg1 : (s.endByEoi).arg1 = s.arg1 := rfl
@[simp] theorem endByEoi_dict : (s.endByEoi).dict = s.dict := rfl
@[simp] theorem endByEoi_ibuf : (s.endByEoi).ibuf = s.ibuf := rfl
@[simp] theorem endByEoi_cbuf : (s.endByEoi).cbuf = s.cbuf := rfl
@[simp] theorem endByEoi_oidx : (s.endByEoi).oidx = s.oidx := rfl
@[simp] theorem endByEoi_pbuf : (s.endByEoi).pbuf = s.pbuf := rfl
@[simp] theorem endByEoi_eout : (s.endByEoi).eout = s.eout := rfl
@[simp] theorem endByEoi_posw : (s.endByEoi).posw = s.posw := rfl
@[simp] theorem endByEoi_pay : (s.endByEoi).pay = s.pay := rfl
@[simp] theorem endByEoi_draws : (s.endByEoi).draws = s.draws := rfl
@[simp] theorem endByEoi_pending : (s.endByEoi).pending = s.pending := rfl
@[simp] theorem endByEoi_seen : (s.endByEoi).seen = s.seen := rfl

/-! ## The end of a decode by exhaustion (R159) -/

@[simp] theorem endByExhaustion_mode : (s.endByExhaustion).mode = .idle := rfl
@[simp] theorem endByExhaustion_mcs : (s.endByExhaustion).mcs = s.mcs := rfl
@[simp] theorem endByExhaustion_cw : (s.endByExhaustion).cw = s.cw := rfl
@[simp] theorem endByExhaustion_next : (s.endByExhaustion).next = s.next := rfl
@[simp] theorem endByExhaustion_prev : (s.endByExhaustion).prev = s.prev := rfl
@[simp] theorem endByExhaustion_cand : (s.endByExhaustion).cand = s.cand := rfl
@[simp] theorem endByExhaustion_rpos : (s.endByExhaustion).rpos = s.rpos := rfl
@[simp] theorem endByExhaustion_bitpos : (s.endByExhaustion).bitpos = s.bitpos := rfl
@[simp] theorem endByExhaustion_acc : (s.endByExhaustion).acc = s.acc := rfl
@[simp] theorem endByExhaustion_nacc : (s.endByExhaustion).nacc = s.nacc := rfl
@[simp] theorem endByExhaustion_result : (s.endByExhaustion).result = s.result := rfl
@[simp] theorem endByExhaustion_eoif : (s.endByExhaustion).eoif = s.eoif := rfl
@[simp] theorem endByExhaustion_exhf : (s.endByExhaustion).exhf = true := rfl
@[simp] theorem endByExhaustion_cause : (s.endByExhaustion).cause = s.cause := rfl
@[simp] theorem endByExhaustion_finfo : (s.endByExhaustion).finfo = s.finfo := rfl
@[simp] theorem endByExhaustion_cmd : (s.endByExhaustion).cmd = s.cmd := rfl
@[simp] theorem endByExhaustion_arg0 : (s.endByExhaustion).arg0 = s.arg0 := rfl
@[simp] theorem endByExhaustion_arg1 : (s.endByExhaustion).arg1 = s.arg1 := rfl
@[simp] theorem endByExhaustion_dict : (s.endByExhaustion).dict = s.dict := rfl
@[simp] theorem endByExhaustion_ibuf : (s.endByExhaustion).ibuf = s.ibuf := rfl
@[simp] theorem endByExhaustion_cbuf : (s.endByExhaustion).cbuf = s.cbuf := rfl
@[simp] theorem endByExhaustion_oidx : (s.endByExhaustion).oidx = s.oidx := rfl
@[simp] theorem endByExhaustion_pbuf : (s.endByExhaustion).pbuf = s.pbuf := rfl
@[simp] theorem endByExhaustion_eout : (s.endByExhaustion).eout = s.eout := rfl
@[simp] theorem endByExhaustion_posw : (s.endByExhaustion).posw = s.posw := rfl
@[simp] theorem endByExhaustion_pay : (s.endByExhaustion).pay = s.pay := rfl
@[simp] theorem endByExhaustion_draws : (s.endByExhaustion).draws = s.draws := rfl
@[simp] theorem endByExhaustion_pending : (s.endByExhaustion).pending = s.pending := rfl
@[simp] theorem endByExhaustion_seen : (s.endByExhaustion).seen = s.seen := rfl

/-! ## An inserted entry (R28) -/

@[simp] theorem insert_mode (p : Code) (y : Byte) : (s.insert p y).mode = s.mode := rfl
@[simp] theorem insert_mcs (p : Code) (y : Byte) : (s.insert p y).mcs = s.mcs := rfl
@[simp] theorem insert_cw (p : Code) (y : Byte) : (s.insert p y).cw = s.cw := rfl
@[simp] theorem insert_next (p : Code) (y : Byte) : (s.insert p y).next = s.next + 1 := rfl
@[simp] theorem insert_prev (p : Code) (y : Byte) : (s.insert p y).prev = s.prev := rfl
@[simp] theorem insert_cand (p : Code) (y : Byte) : (s.insert p y).cand = s.cand := rfl
@[simp] theorem insert_rpos (p : Code) (y : Byte) : (s.insert p y).rpos = s.rpos := rfl
@[simp] theorem insert_bitpos (p : Code) (y : Byte) : (s.insert p y).bitpos = s.bitpos := rfl
@[simp] theorem insert_acc (p : Code) (y : Byte) : (s.insert p y).acc = s.acc := rfl
@[simp] theorem insert_nacc (p : Code) (y : Byte) : (s.insert p y).nacc = s.nacc := rfl
@[simp] theorem insert_result (p : Code) (y : Byte) : (s.insert p y).result = s.result := rfl
@[simp] theorem insert_eoif (p : Code) (y : Byte) : (s.insert p y).eoif = s.eoif := rfl
@[simp] theorem insert_exhf (p : Code) (y : Byte) : (s.insert p y).exhf = s.exhf := rfl
@[simp] theorem insert_cause (p : Code) (y : Byte) : (s.insert p y).cause = s.cause := rfl
@[simp] theorem insert_finfo (p : Code) (y : Byte) : (s.insert p y).finfo = s.finfo := rfl
@[simp] theorem insert_cmd (p : Code) (y : Byte) : (s.insert p y).cmd = s.cmd := rfl
@[simp] theorem insert_arg0 (p : Code) (y : Byte) : (s.insert p y).arg0 = s.arg0 := rfl
@[simp] theorem insert_arg1 (p : Code) (y : Byte) : (s.insert p y).arg1 = s.arg1 := rfl
@[simp] theorem insert_dict (p : Code) (y : Byte) : (s.insert p y).dict = s.dict.write s.next ⟨p, y⟩ := rfl
@[simp] theorem insert_ibuf (p : Code) (y : Byte) : (s.insert p y).ibuf = s.ibuf := rfl
@[simp] theorem insert_cbuf (p : Code) (y : Byte) : (s.insert p y).cbuf = s.cbuf := rfl
@[simp] theorem insert_oidx (p : Code) (y : Byte) : (s.insert p y).oidx = s.oidx := rfl
@[simp] theorem insert_pbuf (p : Code) (y : Byte) : (s.insert p y).pbuf = s.pbuf := rfl
@[simp] theorem insert_eout (p : Code) (y : Byte) : (s.insert p y).eout = s.eout := rfl
@[simp] theorem insert_posw (p : Code) (y : Byte) : (s.insert p y).posw = s.posw := rfl
@[simp] theorem insert_pay (p : Code) (y : Byte) : (s.insert p y).pay = s.pay := rfl
@[simp] theorem insert_draws (p : Code) (y : Byte) : (s.insert p y).draws = s.draws := rfl
@[simp] theorem insert_pending (p : Code) (y : Byte) : (s.insert p y).pending = s.pending := rfl
@[simp] theorem insert_seen (p : Code) (y : Byte) : (s.insert p y).seen = s.seen := rfl

/-! ## Views of an updated state -/

@[simp] theorem loadCbuf_clen (b : List Byte) : (s.loadCbuf b).clen = b.length := rfl
@[simp] theorem loadCbuf_ilen (b : List Byte) : (s.loadCbuf b).ilen = s.ilen := rfl
@[simp] theorem resetBlock_ilen : s.resetBlock.ilen = 0 := rfl
@[simp] theorem resetBlock_clen : s.resetBlock.clen = 0 := rfl
@[simp] theorem insert_clr (p : Code) (y : Byte) : (s.insert p y).clr = s.clr := rfl
@[simp] theorem insert_ilen (p : Code) (y : Byte) : (s.insert p y).ilen = s.ilen := rfl
@[simp] theorem insert_clen (p : Code) (y : Byte) : (s.insert p y).clen = s.clen := rfl

end Sys2Proof.Machine
end

