-- ==== Sys2Proof/Laws/Memory.lean ====
section
/-! SUPPORT. The dictionary memory: a read after a write, and the canonical form (R28). -/

namespace Sys2Proof.Machine

@[simp] theorem Memory.read_nil (c : Nat) : Memory.read [] c = none := rfl

/-- A read after a write to the same code gives the entry written. -/
@[simp] theorem Memory.read_write_same (m : Memory) (c : Nat) (e : DictEntry) :
    (m.write c e).read c = some e := by
  induction m with
  | nil => simp [Memory.write, Memory.read]
  | cons p m ih =>
    obtain ⟨k, d⟩ := p
    simp only [Memory.write]
    split
    · simp [Memory.read]
    · split
      · simp [Memory.read]
      · rename_i h1 h2
        simp [Memory.read, Ne.symm h2, ih]

/-- A write leaves every other code alone. -/
theorem Memory.read_write_other (m : Memory) {c d : Nat} (e : DictEntry) (h : d ≠ c) :
    (m.write c e).read d = m.read d := by
  induction m with
  | nil => simp [Memory.write, Memory.read, Ne.symm h]
  | cons p m ih =>
    obtain ⟨k, x⟩ := p
    simp only [Memory.write]
    split
    · simp [Memory.read, Ne.symm h]
    · split
      · rename_i h1 h2
        subst h2
        simp [Memory.read, Ne.symm h]
      · simp [Memory.read, ih]

/-- A read after a write, in one equation. -/
theorem Memory.read_write (m : Memory) (c d : Nat) (e : DictEntry) :
    (m.write c e).read d = if d = c then some e else m.read d := by
  by_cases h : d = c
  · simp [h]
  · simp [h, Memory.read_write_other m e h]

theorem Memory.wfFrom_mono {m : Memory} {lo lo' : Nat} (h : lo' ≤ lo)
    (hm : Memory.wfFrom lo m = true) : Memory.wfFrom lo' m = true := by
  cases m with
  | nil => rfl
  | cons p m =>
    obtain ⟨k, d⟩ := p
    simp only [Memory.wfFrom, Bool.and_eq_true, decide_eq_true_eq] at hm ⊢
    exact ⟨⟨h.trans hm.1.1, hm.1.2⟩, hm.2⟩

theorem Memory.wfFrom_write {m : Memory} {lo c : Nat} (e : DictEntry)
    (hm : Memory.wfFrom lo m = true) (hlo : lo ≤ c) (hc : c < Config.dictMax) :
    Memory.wfFrom lo (m.write c e) = true := by
  induction m generalizing lo with
  | nil => simp only [Memory.write, Memory.wfFrom, Bool.and_eq_true, decide_eq_true_eq]; simp_all
  | cons p m ih =>
    obtain ⟨k, d⟩ := p
    simp only [Memory.wfFrom, Bool.and_eq_true, decide_eq_true_eq] at hm
    simp only [Memory.write]
    split
    · simp only [Memory.wfFrom, Bool.and_eq_true, decide_eq_true_eq]
      exact ⟨⟨hlo, hc⟩, ⟨by omega, hm.1.2⟩, hm.2⟩
    · split
      · rename_i h1 h2
        subst h2
        simp only [Memory.wfFrom, Bool.and_eq_true, decide_eq_true_eq]
        exact hm
      · simp only [Memory.wfFrom, Bool.and_eq_true, decide_eq_true_eq]
        exact ⟨hm.1, ih hm.2 (by omega)⟩

/-- A write below 4096 keeps the canonical form: with `raise` and `resetBlock`, which leave the empty
list, the only ways the dictionary memory changes. -/
theorem Memory.wf_write {m : Memory} {c : Nat} (e : DictEntry) (hm : m.wf = true)
    (hc : c < Config.dictMax) : (m.write c e).wf = true :=
  Memory.wfFrom_write e hm (Nat.zero_le c) hc

/-- The reset memory is canonical. -/
theorem Memory.wf_reset : State.reset.dict.wf = true := rfl

/-- A canonical memory from `lo` on holds nothing below `lo`. -/
theorem Memory.read_below {m : Memory} {lo c : Nat} (hm : Memory.wfFrom lo m = true) (h : c < lo) :
    m.read c = none := by
  induction m generalizing lo with
  | nil => rfl
  | cons p m ih =>
    obtain ⟨k, d⟩ := p
    simp only [Memory.wfFrom, Bool.and_eq_true, decide_eq_true_eq] at hm
    have hk : ¬ k = c := by omega
    simp [Memory.read, hk, ih hm.2 (by omega)]

/-- In a canonical memory a listed pair is what a read gives. -/
theorem Memory.read_of_mem {m : Memory} {lo c : Nat} {e : DictEntry}
    (hm : Memory.wfFrom lo m = true) (h : (c, e) ∈ m) : m.read c = some e := by
  induction m generalizing lo with
  | nil => cases h
  | cons p m ih =>
    obtain ⟨k, d⟩ := p
    simp only [Memory.wfFrom, Bool.and_eq_true, decide_eq_true_eq] at hm
    rcases List.mem_cons.mp h with h | h
    · cases h
      simp [Memory.read]
    · have hr := ih hm.2 h
      have hk : k ≠ c := by
        rintro rfl
        rw [Memory.read_below hm.2 (Nat.lt_succ_self k)] at hr
        cases hr
      simp [Memory.read, hk, hr]

/-- What a read gives is listed. -/
theorem Memory.mem_of_read {m : Memory} {c : Nat} {e : DictEntry} (h : m.read c = some e) :
    (c, e) ∈ m := by
  induction m with
  | nil => cases h
  | cons p m ih =>
    obtain ⟨k, d⟩ := p
    by_cases hk : k = c
    · simp only [Memory.read, if_pos hk, Option.some.injEq] at h
      simp [hk, h]
    · simp only [Memory.read, if_neg hk] at h
      exact List.mem_cons_of_mem _ (ih h)

end Sys2Proof.Machine
end

