-- ==== Sys2Proof/Laws/Ops.lean ====
section
/-! SUPPORT. What each shared operation can do, said once: the guards of a command, the cursors, the
bit writer, the sub-block tokens, `Seq`, the insertions. -/

namespace Sys2Proof.Machine

variable (s : State)

/-! ## The order of checks (R224) -/

theorem inMode_legal {need : Mode} {op : Byte} {s : State} {k : Result} (h : s.mode = need)
    (hf : need ≠ .fault) : inMode need op s k = k := by
  subst h
  simp [inMode, hf]

theorem inMode_fault {need : Mode} {op : Byte} {s : State} {k : Result} (h : s.mode = .fault) :
    inMode need op s k = .next s := by simp [inMode, h]

theorem inMode_wrong {need : Mode} {op : Byte} {s : State} {k : Result} (hf : s.mode ≠ .fault)
    (h : s.mode ≠ need) : inMode need op s k = .next (s.raise .illegalCommand op.toNat) := by
  simp [inMode, h, hf]

/-- Everything a guarded command can answer. -/
theorem inMode_cases {need : Mode} {op : Byte} {s : State} {k : Result} :
    (s.mode = .fault ∧ inMode need op s k = .next s) ∨
    (s.mode ≠ .fault ∧ s.mode = need ∧ inMode need op s k = k) ∨
    (s.mode ≠ .fault ∧ s.mode ≠ need ∧
      inMode need op s k = .next (s.raise .illegalCommand op.toNat)) := by
  unfold inMode
  split
  · exact .inl ⟨‹_›, rfl⟩
  · split
    · exact .inr (.inl ⟨‹_›, ‹_›, rfl⟩)
    · exact .inr (.inr ⟨‹_›, ‹_›, rfl⟩)

@[simp] theorem checked_ok {ok : Prop} [Decidable ok] {c : Cause} {info : Nat} {s : State}
    {k : Result} (h : ok) : checked ok c info s k = k := by simp [checked, h]

@[simp] theorem checked_bad {ok : Prop} [Decidable ok] {c : Cause} {info : Nat} {s : State}
    {k : Result} (h : ¬ ok) : checked ok c info s k = .next (s.raise c info) := by
  simp [checked, h]

@[simp] theorem codecOk_ok {s : State} {k : Result} (h : s.CodecRegs) : codecOk s k = k := by
  simp only [codecOk, if_pos h]

theorem codecOk_bad {s : State} {k : Result} (h : ¬ s.CodecRegs) :
    codecOk s k = .fault .codecRegs := by simp only [codecOk, if_neg h]

/-- What a guarded command that answers a next state did. -/
theorem inMode_next {need : Mode} {op : Byte} {s t : State} {k : Result}
    (h : inMode need op s k = .next t) :
    t = s ∨ t.mode = .fault ∨ (s.mode = need ∧ s.mode ≠ .fault ∧ k = .next t) := by
  rcases inMode_cases (need := need) (op := op) (s := s) (k := k) with
    ⟨_, h'⟩ | ⟨hf, h1, h'⟩ | ⟨_, _, h'⟩ <;> rw [h'] at h
  · exact .inl (Host.Outcome.next.inj h).symm
  · exact .inr (.inr ⟨h1, hf, h⟩)
  · cases h
    exact .inr (.inl rfl)

/-- A checked operand that answers a next state: the fault, or the operand was in range. -/
theorem checked_next {ok : Prop} [Decidable ok] {c : Cause} {info : Nat} {s t : State} {k : Result}
    (h : checked ok c info s k = .next t) :
    (¬ ok ∧ t = s.raise c info) ∨ (ok ∧ k = .next t) := by
  by_cases hk : ok
  · rw [checked, if_pos hk] at h
    exact .inr ⟨hk, h⟩
  · rw [checked, if_neg hk] at h
    exact .inl ⟨hk, (Host.Outcome.next.inj h).symm⟩

theorem codecOk_next {s t : State} {k : Result} (h : codecOk s k = .next t) :
    s.CodecRegs ∧ k = .next t := by
  by_cases hk : s.CodecRegs
  · rw [codecOk, if_pos hk] at h
    exact ⟨hk, h⟩
  · rw [codecOk, if_neg hk] at h
    cases h

theorem asClass_ok {want : CodeClass} {c : Code} {s : State} {k : Result} (hm : s.mode = .dec)
    (hr : s.CodecRegs) (hc : classify s.codeContext c = want) : asClass want c s k = k := by
  simp only [asClass, if_pos hm, codecOk_ok hr, if_pos hc]

theorem inRun_ok {s : State} {k : Result} (h : s.mode = .idle) : inRun s k = k := by
  simp only [inRun, if_pos h]

/-- A raised fault is one as the host sees it (R241). -/
theorem raises_raise {s : State} (c : Cause) (info : Nat) : Raises s (.next (s.raise c info)) c info :=
  ⟨_, rfl, rfl, rfl, rfl, rfl, rfl, rfl⟩

/-! ## The byte cursor (R120, R128) -/

theorem readByte_some {s : State} (h : s.rpos < s.ilen) :
    readByte s = some (s.ibuf[s.rpos]'h, { s with rpos := s.rpos + 1 }) := by
  unfold State.ilen at h
  simp [readByte, h]

theorem readByte_none {s : State} (h : s.ilen ≤ s.rpos) : readByte s = none := by
  unfold State.ilen at h
  simp [readByte, h]

theorem readRun_some {n : Nat} {s : State} (h : s.rpos + n ≤ s.ilen) :
    readRun n s = some ((s.ibuf.drop s.rpos).take n, { s with rpos := s.rpos + n }) := by
  simp [readRun, Nat.not_lt.mpr h]

theorem readRun_none {n : Nat} {s : State} (h : s.ilen < s.rpos + n) : readRun n s = none := by
  simp [readRun, h]

/-! ## The bit cursor (R140) -/

theorem getBits_some {w : Nat} {s : State} (h : s.bitpos + w ≤ 8 * s.clen) :
    getBits w s = some (field s.cbuf s.bitpos w, { s with bitpos := s.bitpos + w }) := by
  simp [getBits, Nat.not_lt.mpr h]

theorem getBits_none {w : Nat} {s : State} (h : 8 * s.clen < s.bitpos + w) :
    getBits w s = none := by simp [getBits, h]

@[simp] theorem field_zero (b : List Byte) (p : Nat) : field b p 0 = 0 := rfl

theorem field_succ (b : List Byte) (p w : Nat) :
    field b p (w + 1) = field b p w + bitAt b (p + w) * 2 ^ w := rfl

theorem bitAt_lt (b : List Byte) (k : Nat) : bitAt b k < 2 := Nat.mod_lt _ (by decide)

/-- A field of `w` bits is below `2^w`. -/
theorem field_lt (b : List Byte) (p w : Nat) : field b p w < 2 ^ w := by
  induction w with
  | zero => simp
  | succ w ih =>
    have h := bitAt_lt b (p + w)
    have h2 : bitAt b (p + w) * 2 ^ w ≤ 1 * 2 ^ w := Nat.mul_le_mul_right _ (by omega)
    rw [field_succ, pow_succ]
    omega

/-! ## Sub-block tokens (R90, R126) -/

theorem decodeToken_end (rest : List Byte) : decodeToken (0 :: rest) = .ok .sbEnd rest := by
  simp [decodeToken]

theorem decodeToken_data {n : Byte} (h : n ≠ 0) {rest : List Byte} (hl : n.toNat ≤ rest.length) :
    decodeToken (n :: rest) = .ok (.sbData n (rest.take n.toNat)) (rest.drop n.toNat) := by
  rw [decodeToken, if_neg h, if_neg (Nat.not_lt.mpr hl)]

/-- The fetch of a token is one turn of the loop of R126: a size byte, then its payload. -/
theorem fetchToken_eq_reads :
    fetchToken s =
      match readByte s with
      | none => none
      | some (n, t) =>
        if n = 0 then some (.sbEnd, t)
        else match readRun n.toNat t with
          | none => none
          | some (p, u) => some (.sbData n p, u) := by
  by_cases h : s.rpos < s.ilen
  · rw [readByte_some h]
    have hd : s.ibuf.drop s.rpos = s.ibuf[s.rpos]'h :: s.ibuf.drop (s.rpos + 1) :=
      List.drop_eq_getElem_cons h
    by_cases h0 : s.ibuf[s.rpos]'h = 0
    · simp [fetchToken, hd, h0, decodeToken, tokenLength]
    · simp only [fetchToken, hd, decodeToken, if_neg h0]
      by_cases hl : s.rpos + 1 + (s.ibuf[s.rpos]'h).toNat ≤ s.ilen
      · rw [readRun_some (by exact hl)]
        have hl' : (s.ibuf[s.rpos]'h).toNat ≤ (s.ibuf.drop (s.rpos + 1)).length := by
          rw [List.length_drop]; unfold State.ilen at hl; omega
        simp only [if_neg (Nat.not_lt.mpr hl'), tokenLength, List.length_take,
          Nat.min_eq_left hl']
        congr 3
        omega
      · rw [readRun_none (by exact Nat.not_le.mp hl)]
        have hl' : (s.ibuf.drop (s.rpos + 1)).length < (s.ibuf[s.rpos]'h).toNat := by
          rw [List.length_drop]; unfold State.ilen at hl h; omega
        simp only [if_pos hl']
  · rw [readByte_none (Nat.not_lt.mp h)]
    have hd : s.ibuf.drop s.rpos = [] := List.drop_eq_nil_of_le (Nat.not_lt.mp h)
    simp [fetchToken, hd, decodeToken]

/-! ## The bit writer (R200 to R202) -/

/-- `PutBits` writes `ACC`, `NACC` and `PBUF` and nothing else. -/
theorem putBits_frame (v w : Nat) (s : State) :
    ∃ a n p, putBits v w s = { s with acc := a, nacc := n, pbuf := p } := by
  induction w generalizing v s with
  | zero => exact ⟨_, _, _, rfl⟩
  | succ w ih =>
    obtain ⟨a, n, p, h⟩ := ih (v / 2) (putBit (v % 2) s)
    refine ⟨a, n, p, ?_⟩
    rw [putBits, h]
    unfold putBit
    dsimp only
    split <;> rfl

/-- `Flush` writes `ACC`, `NACC` and `PBUF` and nothing else. -/
theorem flush_frame (s : State) : ∃ a n p, flush s = { s with acc := a, nacc := n, pbuf := p } := by
  unfold flush
  split
  · exact ⟨_, _, _, rfl⟩
  · exact ⟨s.acc, s.nacc, s.pbuf, rfl⟩

theorem flush_nacc : (flush s).nacc = 0 := by
  unfold flush
  split
  · rfl
  · omega

/-- `Chunk` writes `EOUT` and `PBUF`. -/
theorem chunk_eq : chunk s =
    { s with eout := s.eout ++ subBlocks s.pbuf.length s.pbuf, pbuf := [] } := rfl

/-- The bits of the packed stream so far: `PutBits` adds `w`. -/
theorem putBits_position (v w : Nat) (s : State) (h : s.nacc < 8) :
    8 * (putBits v w s).pbuf.length + (putBits v w s).nacc = 8 * s.pbuf.length + s.nacc + w ∧
      (putBits v w s).nacc < 8 := by
  induction w generalizing v s with
  | zero => exact ⟨rfl, h⟩
  | succ w ih =>
    have hb : 8 * (putBit (v % 2) s).pbuf.length + (putBit (v % 2) s).nacc =
        8 * s.pbuf.length + s.nacc + 1 ∧ (putBit (v % 2) s).nacc < 8 := by
      unfold putBit
      dsimp only
      split
      · simp; omega
      · simp; omega
    have := ih (v / 2) (putBit (v % 2) s) hb.2
    rw [putBits]
    omega

/-- `PutBits` keeps the form of R20: bits `NACC` to 7 of `ACC` are 0. -/
theorem putBits_acc (v w : Nat) (s : State) (hn : s.nacc < 8) (ha : s.acc.toNat < 2 ^ s.nacc) :
    (putBits v w s).acc.toNat < 2 ^ (putBits v w s).nacc := by
  induction w generalizing v s with
  | zero => exact ha
  | succ w ih =>
    have hb : (putBit (v % 2) s).nacc < 8 ∧
        (putBit (v % 2) s).acc.toNat < 2 ^ (putBit (v % 2) s).nacc := by
      unfold putBit
      dsimp only
      split
      · simp
      · refine ⟨by simp; omega, ?_⟩
        have h1 : (BitVec.ofNat 8 (v % 2) <<< s.nacc).toNat < 2 ^ (s.nacc + 1) := by
          have hv : (BitVec.ofNat 8 (v % 2)).toNat < 2 :=
            lt_of_le_of_lt (by rw [BitVec.toNat_ofNat]; exact Nat.mod_le _ _)
              (Nat.mod_lt v (by decide))
          rw [BitVec.toNat_shiftLeft, Nat.shiftLeft_eq, pow_succ 2 s.nacc, Nat.mul_comm (2 ^ s.nacc) 2]
          exact lt_of_le_of_lt (Nat.mod_le _ _) (Nat.mul_lt_mul_of_pos_right hv (by positivity))
        rw [BitVec.toNat_or]
        exact Nat.or_lt_two_pow (lt_trans ha (Nat.pow_lt_pow_right (by decide) (Nat.lt_succ_self _))) h1
    exact ih (v / 2) (putBit (v % 2) s) hb.1 hb.2

/-- `Flush` keeps the form of R20. -/
theorem flush_acc (ha : s.acc.toNat < 2 ^ s.nacc) :
    (flush s).acc.toNat < 2 ^ (flush s).nacc := by
  unfold flush
  split
  · exact Nat.one_pos
  · exact ha

@[simp] theorem putBits_mode (v w : Nat) : (putBits v w s).mode = s.mode := by
  obtain ⟨_, _, _, h⟩ := putBits_frame v w s; rw [h]
@[simp] theorem putBits_mcs (v w : Nat) : (putBits v w s).mcs = s.mcs := by
  obtain ⟨_, _, _, h⟩ := putBits_frame v w s; rw [h]
@[simp] theorem putBits_cw (v w : Nat) : (putBits v w s).cw = s.cw := by
  obtain ⟨_, _, _, h⟩ := putBits_frame v w s; rw [h]
@[simp] theorem putBits_next (v w : Nat) : (putBits v w s).next = s.next := by
  obtain ⟨_, _, _, h⟩ := putBits_frame v w s; rw [h]
@[simp] theorem putBits_prev (v w : Nat) : (putBits v w s).prev = s.prev := by
  obtain ⟨_, _, _, h⟩ := putBits_frame v w s; rw [h]
@[simp] theorem putBits_cand (v w : Nat) : (putBits v w s).cand = s.cand := by
  obtain ⟨_, _, _, h⟩ := putBits_frame v w s; rw [h]
@[simp] theorem putBits_rpos (v w : Nat) : (putBits v w s).rpos = s.rpos := by
  obtain ⟨_, _, _, h⟩ := putBits_frame v w s; rw [h]
@[simp] theorem putBits_bitpos (v w : Nat) : (putBits v w s).bitpos = s.bitpos := by
  obtain ⟨_, _, _, h⟩ := putBits_frame v w s; rw [h]
@[simp] theorem putBits_result (v w : Nat) : (putBits v w s).result = s.result := by
  obtain ⟨_, _, _, h⟩ := putBits_frame v w s; rw [h]
@[simp] theorem putBits_eoif (v w : Nat) : (putBits v w s).eoif = s.eoif := by
  obtain ⟨_, _, _, h⟩ := putBits_frame v w s; rw [h]
@[simp] theorem putBits_exhf (v w : Nat) : (putBits v w s).exhf = s.exhf := by
  obtain ⟨_, _, _, h⟩ := putBits_frame v w s; rw [h]
@[simp] theorem putBits_cause (v w : Nat) : (putBits v w s).cause = s.cause := by
  obtain ⟨_, _, _, h⟩ := putBits_frame v w s; rw [h]
@[simp] theorem putBits_finfo (v w : Nat) : (putBits v w s).finfo = s.finfo := by
  obtain ⟨_, _, _, h⟩ := putBits_frame v w s; rw [h]
@[simp] theorem putBits_cmd (v w : Nat) : (putBits v w s).cmd = s.cmd := by
  obtain ⟨_, _, _, h⟩ := putBits_frame v w s; rw [h]
@[simp] theorem putBits_arg0 (v w : Nat) : (putBits v w s).arg0 = s.arg0 := by
  obtain ⟨_, _, _, h⟩ := putBits_frame v w s; rw [h]
@[simp] theorem putBits_arg1 (v w : Nat) : (putBits v w s).arg1 = s.arg1 := by
  obtain ⟨_, _, _, h⟩ := putBits_frame v w s; rw [h]
@[simp] theorem putBits_dict (v w : Nat) : (putBits v w s).dict = s.dict := by
  obtain ⟨_, _, _, h⟩ := putBits_frame v w s; rw [h]
@[simp] theorem putBits_ibuf (v w : Nat) : (putBits v w s).ibuf = s.ibuf := by
  obtain ⟨_, _, _, h⟩ := putBits_frame v w s; rw [h]
@[simp] theorem putBits_cbuf (v w : Nat) : (putBits v w s).cbuf = s.cbuf := by
  obtain ⟨_, _, _, h⟩ := putBits_frame v w s; rw [h]
@[simp] theorem putBits_oidx (v w : Nat) : (putBits v w s).oidx = s.oidx := by
  obtain ⟨_, _, _, h⟩ := putBits_frame v w s; rw [h]
@[simp] theorem putBits_eout (v w : Nat) : (putBits v w s).eout = s.eout := by
  obtain ⟨_, _, _, h⟩ := putBits_frame v w s; rw [h]
@[simp] theorem putBits_posw (v w : Nat) : (putBits v w s).posw = s.posw := by
  obtain ⟨_, _, _, h⟩ := putBits_frame v w s; rw [h]
@[simp] theorem putBits_pay (v w : Nat) : (putBits v w s).pay = s.pay := by
  obtain ⟨_, _, _, h⟩ := putBits_frame v w s; rw [h]
@[simp] theorem putBits_draws (v w : Nat) : (putBits v w s).draws = s.draws := by
  obtain ⟨_, _, _, h⟩ := putBits_frame v w s; rw [h]
@[simp] theorem putBits_pending (v w : Nat) : (putBits v w s).pending = s.pending := by
  obtain ⟨_, _, _, h⟩ := putBits_frame v w s; rw [h]
@[simp] theorem putBits_seen (v w : Nat) : (putBits v w s).seen = s.seen := by
  obtain ⟨_, _, _, h⟩ := putBits_frame v w s; rw [h]

@[simp] theorem flush_mode : (flush s).mode = s.mode := by
  obtain ⟨_, _, _, h⟩ := flush_frame s; rw [h]
@[simp] theorem flush_mcs : (flush s).mcs = s.mcs := by
  obtain ⟨_, _, _, h⟩ := flush_frame s; rw [h]
@[simp] theorem flush_cw : (flush s).cw = s.cw := by
  obtain ⟨_, _, _, h⟩ := flush_frame s; rw [h]
@[simp] theorem flush_next : (flush s).next = s.next := by
  obtain ⟨_, _, _, h⟩ := flush_frame s; rw [h]
@[simp] theorem flush_prev : (flush s).prev = s.prev := by
  obtain ⟨_, _, _, h⟩ := flush_frame s; rw [h]
@[simp] theorem flush_cand : (flush s).cand = s.cand := by
  obtain ⟨_, _, _, h⟩ := flush_frame s; rw [h]
@[simp] theorem flush_rpos : (flush s).rpos = s.rpos := by
  obtain ⟨_, _, _, h⟩ := flush_frame s; rw [h]
@[simp] theorem flush_bitpos : (flush s).bitpos = s.bitpos := by
  obtain ⟨_, _, _, h⟩ := flush_frame s; rw [h]
@[simp] theorem flush_result : (flush s).result = s.result := by
  obtain ⟨_, _, _, h⟩ := flush_frame s; rw [h]
@[simp] theorem flush_eoif : (flush s).eoif = s.eoif := by
  obtain ⟨_, _, _, h⟩ := flush_frame s; rw [h]
@[simp] theorem flush_exhf : (flush s).exhf = s.exhf := by
  obtain ⟨_, _, _, h⟩ := flush_frame s; rw [h]
@[simp] theorem flush_cause : (flush s).cause = s.cause := by
  obtain ⟨_, _, _, h⟩ := flush_frame s; rw [h]
@[simp] theorem flush_finfo : (flush s).finfo = s.finfo := by
  obtain ⟨_, _, _, h⟩ := flush_frame s; rw [h]
@[simp] theorem flush_cmd : (flush s).cmd = s.cmd := by
  obtain ⟨_, _, _, h⟩ := flush_frame s; rw [h]
@[simp] theorem flush_arg0 : (flush s).arg0 = s.arg0 := by
  obtain ⟨_, _, _, h⟩ := flush_frame s; rw [h]
@[simp] theorem flush_arg1 : (flush s).arg1 = s.arg1 := by
  obtain ⟨_, _, _, h⟩ := flush_frame s; rw [h]
@[simp] theorem flush_dict : (flush s).dict = s.dict := by
  obtain ⟨_, _, _, h⟩ := flush_frame s; rw [h]
@[simp] theorem flush_ibuf : (flush s).ibuf = s.ibuf := by
  obtain ⟨_, _, _, h⟩ := flush_frame s; rw [h]
@[simp] theorem flush_cbuf : (flush s).cbuf = s.cbuf := by
  obtain ⟨_, _, _, h⟩ := flush_frame s; rw [h]
@[simp] theorem flush_oidx : (flush s).oidx = s.oidx := by
  obtain ⟨_, _, _, h⟩ := flush_frame s; rw [h]
@[simp] theorem flush_eout : (flush s).eout = s.eout := by
  obtain ⟨_, _, _, h⟩ := flush_frame s; rw [h]
@[simp] theorem flush_posw : (flush s).posw = s.posw := by
  obtain ⟨_, _, _, h⟩ := flush_frame s; rw [h]
@[simp] theorem flush_pay : (flush s).pay = s.pay := by
  obtain ⟨_, _, _, h⟩ := flush_frame s; rw [h]
@[simp] theorem flush_draws : (flush s).draws = s.draws := by
  obtain ⟨_, _, _, h⟩ := flush_frame s; rw [h]
@[simp] theorem flush_pending : (flush s).pending = s.pending := by
  obtain ⟨_, _, _, h⟩ := flush_frame s; rw [h]
@[simp] theorem flush_seen : (flush s).seen = s.seen := by
  obtain ⟨_, _, _, h⟩ := flush_frame s; rw [h]

@[simp] theorem chunk_mode : (chunk s).mode = s.mode := rfl
@[simp] theorem chunk_mcs : (chunk s).mcs = s.mcs := rfl
@[simp] theorem chunk_cw : (chunk s).cw = s.cw := rfl
@[simp] theorem chunk_next : (chunk s).next = s.next := rfl
@[simp] theorem chunk_prev : (chunk s).prev = s.prev := rfl
@[simp] theorem chunk_cand : (chunk s).cand = s.cand := rfl
@[simp] theorem chunk_rpos : (chunk s).rpos = s.rpos := rfl
@[simp] theorem chunk_bitpos : (chunk s).bitpos = s.bitpos := rfl
@[simp] theorem chunk_acc : (chunk s).acc = s.acc := rfl
@[simp] theorem chunk_nacc : (chunk s).nacc = s.nacc := rfl
@[simp] theorem chunk_result : (chunk s).result = s.result := rfl
@[simp] theorem chunk_eoif : (chunk s).eoif = s.eoif := rfl
@[simp] theorem chunk_exhf : (chunk s).exhf = s.exhf := rfl
@[simp] theorem chunk_cause : (chunk s).cause = s.cause := rfl
@[simp] theorem chunk_finfo : (chunk s).finfo = s.finfo := rfl
@[simp] theorem chunk_cmd : (chunk s).cmd = s.cmd := rfl
@[simp] theorem chunk_arg0 : (chunk s).arg0 = s.arg0 := rfl
@[simp] theorem chunk_arg1 : (chunk s).arg1 = s.arg1 := rfl
@[simp] theorem chunk_dict : (chunk s).dict = s.dict := rfl
@[simp] theorem chunk_ibuf : (chunk s).ibuf = s.ibuf := rfl
@[simp] theorem chunk_cbuf : (chunk s).cbuf = s.cbuf := rfl
@[simp] theorem chunk_oidx : (chunk s).oidx = s.oidx := rfl
@[simp] theorem chunk_pbuf : (chunk s).pbuf = [] := rfl
@[simp] theorem chunk_eout : (chunk s).eout = s.eout ++ subBlocks s.pbuf.length s.pbuf := rfl
@[simp] theorem chunk_posw : (chunk s).posw = s.posw := rfl
@[simp] theorem chunk_pay : (chunk s).pay = s.pay := rfl
@[simp] theorem chunk_draws : (chunk s).draws = s.draws := rfl
@[simp] theorem chunk_pending : (chunk s).pending = s.pending := rfl
@[simp] theorem chunk_seen : (chunk s).seen = s.seen := rfl

/-! ## Insertions (R158, R185) -/

/-- Everything `Append` can do (R158). -/
theorem append_cases (f : Byte) (s : State) :
    (s.prev = none ∧ append f s = s) ∨
    (∃ p, s.prev = some p ∧ 4096 ≤ s.next ∧ append f s = s) ∨
    (∃ p, s.prev = some p ∧ s.next < 4096 ∧ s.next + 1 = 2 ^ s.cw ∧ s.cw < 12 ∧
      append f s = { s.insert p f with cw := s.cw + 1 }) ∨
    (∃ p, s.prev = some p ∧ s.next < 4096 ∧ ¬ (s.next + 1 = 2 ^ s.cw ∧ s.cw < 12) ∧
      append f s = s.insert p f) := by
  unfold append
  split
  · exact .inl ⟨‹_›, rfl⟩
  · rename_i p hp
    dsimp only [Config.dictMax, Config.cwMax]
    split
    · split
      · exact .inr (.inr (.inl ⟨p, hp, ‹_›, And.left ‹_›, And.right ‹_›, rfl⟩))
      · exact .inr (.inr (.inr ⟨p, hp, ‹_›, ‹_›, rfl⟩))
    · exact .inr (.inl ⟨p, hp, by omega, rfl⟩)

/-- Everything the encoder's insertion can do (R185). -/
theorem insertGrow_cases (p : Code) (y : Byte) (s : State) :
    (4096 ≤ s.next ∧ insertGrow p y s = s) ∨
    (s.next < 4096 ∧ 2 ^ s.cw < s.next + 1 ∧ s.cw < 12 ∧
      insertGrow p y s = { s.insert p y with cw := s.cw + 1 }) ∨
    (s.next < 4096 ∧ ¬ (2 ^ s.cw < s.next + 1 ∧ s.cw < 12) ∧
      insertGrow p y s = s.insert p y) := by
  unfold insertGrow
  dsimp only [Config.dictMax, Config.cwMax]
  split
  · split
    · exact .inr (.inl ⟨‹_›, And.left ‹_›, And.right ‹_›, rfl⟩)
    · exact .inr (.inr ⟨‹_›, ‹_›, rfl⟩)
  · exact .inl ⟨by omega, rfl⟩

/-- `Append` writes `DICT`, `NEXT` and `CW` and nothing else. -/
theorem append_frame (f : Byte) (s : State) :
    ∃ d n w, append f s = { s with dict := d, next := n, cw := w } := by
  rcases append_cases f s with ⟨_, h⟩ | ⟨_, _, _, h⟩ | ⟨_, _, _, _, _, h⟩ | ⟨_, _, _, _, h⟩ <;>
    rw [h]
  · exact ⟨s.dict, s.next, s.cw, rfl⟩
  · exact ⟨s.dict, s.next, s.cw, rfl⟩
  · exact ⟨_, _, _, rfl⟩
  · exact ⟨_, _, s.cw, rfl⟩

/-- The encoder's insertion writes `DICT`, `NEXT` and `CW` and nothing else. -/
theorem insertGrow_frame (p : Code) (y : Byte) (s : State) :
    ∃ d n w, insertGrow p y s = { s with dict := d, next := n, cw := w } := by
  rcases insertGrow_cases p y s with ⟨_, h⟩ | ⟨_, _, _, h⟩ | ⟨_, _, h⟩ <;> rw [h]
  · exact ⟨s.dict, s.next, s.cw, rfl⟩
  · exact ⟨_, _, _, rfl⟩
  · exact ⟨_, _, s.cw, rfl⟩

@[simp] theorem append_mode (f : Byte) : (append f s).mode = s.mode := by
  obtain ⟨_, _, _, h⟩ := append_frame f s; rw [h]
@[simp] theorem append_mcs (f : Byte) : (append f s).mcs = s.mcs := by
  obtain ⟨_, _, _, h⟩ := append_frame f s; rw [h]
@[simp] theorem append_prev (f : Byte) : (append f s).prev = s.prev := by
  obtain ⟨_, _, _, h⟩ := append_frame f s; rw [h]
@[simp] theorem append_cand (f : Byte) : (append f s).cand = s.cand := by
  obtain ⟨_, _, _, h⟩ := append_frame f s; rw [h]
@[simp] theorem append_rpos (f : Byte) : (append f s).rpos = s.rpos := by
  obtain ⟨_, _, _, h⟩ := append_frame f s; rw [h]
@[simp] theorem append_bitpos (f : Byte) : (append f s).bitpos = s.bitpos := by
  obtain ⟨_, _, _, h⟩ := append_frame f s; rw [h]
@[simp] theorem append_acc (f : Byte) : (append f s).acc = s.acc := by
  obtain ⟨_, _, _, h⟩ := append_frame f s; rw [h]
@[simp] theorem append_nacc (f : Byte) : (append f s).nacc = s.nacc := by
  obtain ⟨_, _, _, h⟩ := append_frame f s; rw [h]
@[simp] theorem append_result (f : Byte) : (append f s).result = s.result := by
  obtain ⟨_, _, _, h⟩ := append_frame f s; rw [h]
@[simp] theorem append_eoif (f : Byte) : (append f s).eoif = s.eoif := by
  obtain ⟨_, _, _, h⟩ := append_frame f s; rw [h]
@[simp] theorem append_exhf (f : Byte) : (append f s).exhf = s.exhf := by
  obtain ⟨_, _, _, h⟩ := append_frame f s; rw [h]
@[simp] theorem append_cause (f : Byte) : (append f s).cause = s.cause := by
  obtain ⟨_, _, _, h⟩ := append_frame f s; rw [h]
@[simp] theorem append_finfo (f : Byte) : (append f s).finfo = s.finfo := by
  obtain ⟨_, _, _, h⟩ := append_frame f s; rw [h]
@[simp] theorem append_cmd (f : Byte) : (append f s).cmd = s.cmd := by
  obtain ⟨_, _, _, h⟩ := append_frame f s; rw [h]
@[simp] theorem append_arg0 (f : Byte) : (append f s).arg0 = s.arg0 := by
  obtain ⟨_, _, _, h⟩ := append_frame f s; rw [h]
@[simp] theorem append_arg1 (f : Byte) : (append f s).arg1 = s.arg1 := by
  obtain ⟨_, _, _, h⟩ := append_frame f s; rw [h]
@[simp] theorem append_ibuf (f : Byte) : (append f s).ibuf = s.ibuf := by
  obtain ⟨_, _, _, h⟩ := append_frame f s; rw [h]
@[simp] theorem append_cbuf (f : Byte) : (append f s).cbuf = s.cbuf := by
  obtain ⟨_, _, _, h⟩ := append_frame f s; rw [h]
@[simp] theorem append_oidx (f : Byte) : (append f s).oidx = s.oidx := by
  obtain ⟨_, _, _, h⟩ := append_frame f s; rw [h]
@[simp] theorem append_pbuf (f : Byte) : (append f s).pbuf = s.pbuf := by
  obtain ⟨_, _, _, h⟩ := append_frame f s; rw [h]
@[simp] theorem append_eout (f : Byte) : (append f s).eout = s.eout := by
  obtain ⟨_, _, _, h⟩ := append_frame f s; rw [h]
@[simp] theorem append_posw (f : Byte) : (append f s).posw = s.posw := by
  obtain ⟨_, _, _, h⟩ := append_frame f s; rw [h]
@[simp] theorem append_pay (f : Byte) : (append f s).pay = s.pay := by
  obtain ⟨_, _, _, h⟩ := append_frame f s; rw [h]
@[simp] theorem append_draws (f : Byte) : (append f s).draws = s.draws := by
  obtain ⟨_, _, _, h⟩ := append_frame f s; rw [h]
@[simp] theorem append_pending (f : Byte) : (append f s).pending = s.pending := by
  obtain ⟨_, _, _, h⟩ := append_frame f s; rw [h]
@[simp] theorem append_seen (f : Byte) : (append f s).seen = s.seen := by
  obtain ⟨_, _, _, h⟩ := append_frame f s; rw [h]

@[simp] theorem insertGrow_mode (p : Code) (y : Byte) : (insertGrow p y s).mode = s.mode := by
  obtain ⟨_, _, _, h⟩ := insertGrow_frame p y s; rw [h]
@[simp] theorem insertGrow_mcs (p : Code) (y : Byte) : (insertGrow p y s).mcs = s.mcs := by
  obtain ⟨_, _, _, h⟩ := insertGrow_frame p y s; rw [h]
@[simp] theorem insertGrow_prev (p : Code) (y : Byte) : (insertGrow p y s).prev = s.prev := by
  obtain ⟨_, _, _, h⟩ := insertGrow_frame p y s; rw [h]
@[simp] theorem insertGrow_cand (p : Code) (y : Byte) : (insertGrow p y s).cand = s.cand := by
  obtain ⟨_, _, _, h⟩ := insertGrow_frame p y s; rw [h]
@[simp] theorem insertGrow_rpos (p : Code) (y : Byte) : (insertGrow p y s).rpos = s.rpos := by
  obtain ⟨_, _, _, h⟩ := insertGrow_frame p y s; rw [h]
@[simp] theorem insertGrow_bitpos (p : Code) (y : Byte) : (insertGrow p y s).bitpos = s.bitpos := by
  obtain ⟨_, _, _, h⟩ := insertGrow_frame p y s; rw [h]
@[simp] theorem insertGrow_acc (p : Code) (y : Byte) : (insertGrow p y s).acc = s.acc := by
  obtain ⟨_, _, _, h⟩ := insertGrow_frame p y s; rw [h]
@[simp] theorem insertGrow_nacc (p : Code) (y : Byte) : (insertGrow p y s).nacc = s.nacc := by
  obtain ⟨_, _, _, h⟩ := insertGrow_frame p y s; rw [h]
@[simp] theorem insertGrow_result (p : Code) (y : Byte) : (insertGrow p y s).result = s.result := by
  obtain ⟨_, _, _, h⟩ := insertGrow_frame p y s; rw [h]
@[simp] theorem insertGrow_eoif (p : Code) (y : Byte) : (insertGrow p y s).eoif = s.eoif := by
  obtain ⟨_, _, _, h⟩ := insertGrow_frame p y s; rw [h]
@[simp] theorem insertGrow_exhf (p : Code) (y : Byte) : (insertGrow p y s).exhf = s.exhf := by
  obtain ⟨_, _, _, h⟩ := insertGrow_frame p y s; rw [h]
@[simp] theorem insertGrow_cause (p : Code) (y : Byte) : (insertGrow p y s).cause = s.cause := by
  obtain ⟨_, _, _, h⟩ := insertGrow_frame p y s; rw [h]
@[simp] theorem insertGrow_finfo (p : Code) (y : Byte) : (insertGrow p y s).finfo = s.finfo := by
  obtain ⟨_, _, _, h⟩ := insertGrow_frame p y s; rw [h]
@[simp] theorem insertGrow_cmd (p : Code) (y : Byte) : (insertGrow p y s).cmd = s.cmd := by
  obtain ⟨_, _, _, h⟩ := insertGrow_frame p y s; rw [h]
@[simp] theorem insertGrow_arg0 (p : Code) (y : Byte) : (insertGrow p y s).arg0 = s.arg0 := by
  obtain ⟨_, _, _, h⟩ := insertGrow_frame p y s; rw [h]
@[simp] theorem insertGrow_arg1 (p : Code) (y : Byte) : (insertGrow p y s).arg1 = s.arg1 := by
  obtain ⟨_, _, _, h⟩ := insertGrow_frame p y s; rw [h]
@[simp] theorem insertGrow_ibuf (p : Code) (y : Byte) : (insertGrow p y s).ibuf = s.ibuf := by
  obtain ⟨_, _, _, h⟩ := insertGrow_frame p y s; rw [h]
@[simp] theorem insertGrow_cbuf (p : Code) (y : Byte) : (insertGrow p y s).cbuf = s.cbuf := by
  obtain ⟨_, _, _, h⟩ := insertGrow_frame p y s; rw [h]
@[simp] theorem insertGrow_oidx (p : Code) (y : Byte) : (insertGrow p y s).oidx = s.oidx := by
  obtain ⟨_, _, _, h⟩ := insertGrow_frame p y s; rw [h]
@[simp] theorem insertGrow_pbuf (p : Code) (y : Byte) : (insertGrow p y s).pbuf = s.pbuf := by
  obtain ⟨_, _, _, h⟩ := insertGrow_frame p y s; rw [h]
@[simp] theorem insertGrow_eout (p : Code) (y : Byte) : (insertGrow p y s).eout = s.eout := by
  obtain ⟨_, _, _, h⟩ := insertGrow_frame p y s; rw [h]
@[simp] theorem insertGrow_posw (p : Code) (y : Byte) : (insertGrow p y s).posw = s.posw := by
  obtain ⟨_, _, _, h⟩ := insertGrow_frame p y s; rw [h]
@[simp] theorem insertGrow_pay (p : Code) (y : Byte) : (insertGrow p y s).pay = s.pay := by
  obtain ⟨_, _, _, h⟩ := insertGrow_frame p y s; rw [h]
@[simp] theorem insertGrow_draws (p : Code) (y : Byte) : (insertGrow p y s).draws = s.draws := by
  obtain ⟨_, _, _, h⟩ := insertGrow_frame p y s; rw [h]
@[simp] theorem insertGrow_pending (p : Code) (y : Byte) : (insertGrow p y s).pending = s.pending := by
  obtain ⟨_, _, _, h⟩ := insertGrow_frame p y s; rw [h]
@[simp] theorem insertGrow_seen (p : Code) (y : Byte) : (insertGrow p y s).seen = s.seen := by
  obtain ⟨_, _, _, h⟩ := insertGrow_frame p y s; rw [h]

/-! ## `Seq` (R29) -/

/-- Enough depth is enough: beyond the code's own value the bound plays no part. -/
theorem seqAux_depth (d : Memory) (clr nx : Nat) {k j : Nat} {c : Code} (hk : c.toNat < k)
    (hj : c.toNat < j) : seqAux d clr nx k c = seqAux d clr nx j c := by
  induction k generalizing j c with
  | zero => omega
  | succ k ih =>
    obtain _ | j := j
    · omega
    · simp only [seqAux]
      split
      · rfl
      · split
        · split
          · rfl
          · split
            · rw [ih (j := j) (by omega) (by omega)]
            · rfl
        · rfl

/-- A literal code stands for the one-symbol sequence of its value. -/
theorem seq_literal {s : State} {c : Code} (h : c.toNat < s.clr) :
    s.seq c = some [c.setWidth 8] := by
  simp [State.seq, seqAux, h]

/-- A dynamic entry's sequence is its prefix's sequence and its symbol. -/
theorem seq_dynamic {s : State} {c : Code} {e : DictEntry} (h1 : s.clr + 2 ≤ c.toNat)
    (h2 : c.toNat < s.next) (hr : s.dict.read c.toNat = some e) (hp : e.pfx.toNat < c.toNat) :
    s.seq c = (s.seq e.pfx).map (· ++ [e.sym]) := by
  have h0 : ¬ c.toNat < s.clr := by omega
  rw [State.seq, seqAux, if_neg h0, if_pos ⟨h1, h2⟩, hr]
  simp only [if_pos hp]
  rw [State.seq, seqAux_depth s.dict s.clr s.next (c := e.pfx) hp (Nat.lt_succ_self _)]

/-- A control code, or a code at or above `NEXT`, has no sequence. -/
theorem seq_undefined {s : State} {c : Code} (h : ¬ s.IsSeqCode c) : s.seq c = none := by
  unfold State.IsSeqCode at h
  have h0 : ¬ c.toNat < s.clr := fun h' => h (.inl h')
  have h1 : ¬ (s.clr + 2 ≤ c.toNat ∧ c.toNat < s.next) := fun h' => h (.inr h')
  rw [State.seq, seqAux, if_neg h0, if_neg h1]

/-! ## `Lookup` (R31) -/

theorem lookupIn_some {lo hi : Nat} {p : Code} {y : Byte} {m : Memory} {c : Code}
    (h : lookupIn lo hi p y m = some c) :
    ∃ k, lo ≤ k ∧ k < hi ∧ (k, ⟨p, y⟩) ∈ m ∧ c = BitVec.ofNat 12 k := by
  induction m with
  | nil => cases h
  | cons q m ih =>
    obtain ⟨k, e⟩ := q
    rw [lookupIn] at h
    split at h
    · rename_i hk
      exact ⟨k, hk.1, hk.2.1, by simp [hk.2.2], (Option.some.inj h).symm⟩
    · obtain ⟨j, h1, h2, h3, h4⟩ := ih h
      exact ⟨j, h1, h2, List.mem_cons_of_mem _ h3, h4⟩

theorem lookupIn_none {lo hi : Nat} {p : Code} {y : Byte} {m : Memory}
    (h : lookupIn lo hi p y m = none) {k : Nat} (h1 : lo ≤ k) (h2 : k < hi) :
    (k, ⟨p, y⟩) ∉ m := by
  induction m with
  | nil => simp
  | cons q m ih =>
    obtain ⟨j, e⟩ := q
    rw [lookupIn] at h
    split at h
    · cases h
    · rename_i hj
      simp only [List.mem_cons, Prod.mk.injEq, not_or]
      refine ⟨?_, ih h⟩
      rintro ⟨rfl, rfl⟩
      exact hj ⟨h1, h2, rfl⟩

end Sys2Proof.Machine
end

