-- ==== Sys2Proof/Laws/Decoder.lean ====
section
/-! SUPPORT. What the decoder can do, said once (R151 to R161): the classes by their conditions, the
answers of a code, of one step and of a run, and why the run's bound is never used up. -/

namespace Sys2Proof.Machine

/-- What a code's execution may write outside a fault: the emitted symbols, the dictionary, `NEXT`,
`CW`, `PREV`, and, for the end-of-information code, `EOIF` and `MODE`. -/
structure CodeEffect (s t : State) : Prop where
  /-- The rest is unchanged. -/
  frame : t = { s with
    mode := t.mode, eoif := t.eoif, next := t.next, cw := t.cw, prev := t.prev, dict := t.dict,
    oidx := t.oidx }
  /-- The decode goes on, or it ended by `EOI`. -/
  ending : (t.mode = s.mode ∧ t.eoif = s.eoif) ∨ (t.mode = .idle ∧ t.eoif = true)

/-- Everything `asClass` can answer. -/
theorem asClass_cases {want : CodeClass} {c : Code} {s : State} {k : Result} :
    (s.mode = .dec ∧ s.CodecRegs ∧ classify s.codeContext c = want ∧ asClass want c s k = k) ∨
    ∀ t, asClass want c s k ≠ .next t := by
  by_cases hm : s.mode = .dec
  · by_cases hr : s.CodecRegs
    · by_cases hc : classify s.codeContext c = want
      · exact .inl ⟨hm, hr, hc, asClass_ok hm hr hc⟩
      · refine .inr fun t => ?_
        simp only [asClass, if_pos hm, codecOk_ok hr, if_neg hc, ne_eq, reduceCtorEq,
          not_false_eq_true]
    · refine .inr fun t => ?_
      simp only [asClass, if_pos hm, codecOk_bad hr, ne_eq, reduceCtorEq, not_false_eq_true]
  · refine .inr fun t => ?_
    simp only [asClass, if_neg hm, ne_eq, reduceCtorEq, not_false_eq_true]

/-- The tail of a data code writes the output, the dictionary, `NEXT`, `CW` and `PREV`. -/
theorem emitSeq_effect {c : Code} {q : Option (List Byte)} {s t : State}
    (h : emitSeq c q s = .next t) :
    CodeEffect s t ∧ t.mode = s.mode ∧ t.prev = some c ∧
      ∃ f r, q = some (f :: r) ∧ t.oidx = s.oidx ++ f :: r := by
  unfold emitSeq at h
  split at h
  · rename_i f r
    obtain ⟨d, n, w, ha⟩ := append_frame f { s with oidx := s.oidx ++ (f :: r) }
    rw [ha] at h
    cases h
    exact ⟨⟨rfl, .inl ⟨rfl, rfl⟩⟩, rfl, rfl, f, r, rfl, rfl⟩
  · cases h

/-- Everything a code's execution can answer as a next state: its effect, or a fault. -/
theorem runCode_effect {k : CodeClass} {c : Code} {s t : State} (h : runCode k c s = .next t) :
    s.mode = .dec ∧ s.CodecRegs ∧ classify s.codeContext c = k ∧
      (CodeEffect s t ∨ (k = .invalid ∧ t = s.raise .invalidCode c.toNat)) := by
  have guard : ∀ {want : CodeClass} {r : Result}, asClass want c s r = .next t →
      s.mode = .dec ∧ s.CodecRegs ∧ classify s.codeContext c = want ∧ r = .next t := by
    intro want r hr
    rcases asClass_cases (want := want) (c := c) (s := s) (k := r) with ⟨h1, h2, h3, h4⟩ | hn
    · exact ⟨h1, h2, h3, h4 ▸ hr⟩
    · exact absurd hr (hn t)
  cases k <;> obtain ⟨h1, h2, h3, h4⟩ := guard h <;> refine ⟨h1, h2, h3, ?_⟩
  · cases h4
    exact .inl ⟨rfl, .inl ⟨rfl, rfl⟩⟩
  · cases h4
    exact .inl ⟨rfl, .inr ⟨rfl, rfl⟩⟩
  · exact .inl (emitSeq_effect h4).1
  · exact .inl (emitSeq_effect h4).1
  · exact .inl (emitSeq_effect h4).1
  · exact .inr ⟨rfl, (Host.Outcome.next.inj h4).symm⟩

/-- The body of `DEC_STEP` when the codec registers are in range and `CW` bits are left: one code. -/
theorem stepCode_code {s : State} (hr : s.CodecRegs) (hb : s.bitpos + s.cw ≤ 8 * s.clen) :
    stepCode s =
      let c : Code := BitVec.ofNat 12 (field s.cbuf s.bitpos s.cw)
      runCode (classify s.codeContext c) c { s with bitpos := s.bitpos + s.cw } := by
  rw [stepCode, codecOk_ok hr, getBits_some hb]
  rfl

/-- The body of `DEC_STEP` when fewer than `CW` bits are left: exhaustion (R159). -/
theorem stepCode_exhausted {s : State} (hr : s.CodecRegs) (hb : 8 * s.clen < s.bitpos + s.cw) :
    stepCode s = .next s.endByExhaustion := by
  rw [stepCode, codecOk_ok hr, getBits_none hb]

/-- Everything one step of the decoder can answer as a next state: exhaustion, a fault, or a code's
effect with the bit cursor past the code. -/
theorem stepCode_cases {s t : State} (h : stepCode s = .next t) :
    s.CodecRegs ∧
      ((8 * s.clen < s.bitpos + s.cw ∧ t = s.endByExhaustion) ∨
        (s.mode = .dec ∧ s.bitpos + s.cw ≤ 8 * s.clen ∧
          (t.mode = .fault ∨ CodeEffect { s with bitpos := s.bitpos + s.cw } t))) := by
  by_cases hr : s.CodecRegs
  · refine ⟨hr, ?_⟩
    by_cases hb : s.bitpos + s.cw ≤ 8 * s.clen
    · rw [stepCode_code hr hb] at h
      obtain ⟨h1, -, -, h2⟩ := runCode_effect h
      refine .inr ⟨h1, hb, ?_⟩
      rcases h2 with h2 | ⟨-, rfl⟩
      · exact .inr h2
      · exact .inl rfl
    · rw [stepCode_exhausted hr (by omega)] at h
      exact .inl ⟨by omega, (Host.Outcome.next.inj h).symm⟩
  · rw [stepCode, codecOk_bad hr] at h
    cases h

/-- A step after which the decode goes on has consumed at least three bits of `CBUF` (R161). -/
theorem stepCode_progress {s t : State} (h : stepCode s = .next t) (hm : t.mode = .dec) :
    s.bitpos + 3 ≤ t.bitpos ∧ t.bitpos ≤ 8 * t.clen ∧ t.cbuf = s.cbuf := by
  obtain ⟨hr, h | ⟨-, hb, h | ⟨hf, -⟩⟩⟩ := stepCode_cases h
  · rw [h.2] at hm
    cases hm
  · rw [h] at hm
    cases hm
  · have h1 := hr.1
    have h2 := hr.2.2.1
    dsimp only [Config.mcsMin] at h1
    rw [hf]
    dsimp only [State.clen] at hb ⊢
    exact ⟨by omega, hb, rfl⟩

/-- One step of the decoder never uses up the run's bound: it answers no `noProgress`. -/
theorem stepCode_ne_noProgress (s : State) : stepCode s ≠ .fault .noProgress := by
  unfold stepCode codecOk
  split
  · split
    · exact fun h => by cases h
    · rename_i v t _
      have emit : ∀ (c : Code) q, emitSeq c q t ≠ .fault .noProgress := by
        intro c q
        unfold emitSeq
        split <;> exact fun h => by cases h
      have guard : ∀ (want : CodeClass) (c : Code) (r : Result), r ≠ .fault .noProgress →
          asClass want c t r ≠ .fault .noProgress := by
        intro want c r hr
        unfold asClass codecOk
        split
        · split
          · split
            · exact hr
            · exact fun h => by cases h
          · exact fun h => by cases h
        · exact fun h => by cases h
      unfold runCode
      split
      · exact guard _ _ _ fun h => by cases h
      · exact guard _ _ _ fun h => by cases h
      · exact guard _ _ _ (emit _ _)
      · exact guard _ _ _ (emit _ _)
      · exact guard _ _ _ (emit _ _)
      · exact guard _ _ _ fun h => by cases h
  · exact fun h => by cases h

/-! ## The class of a code, read off its conditions (R86) -/

theorem classify_literal {x : CodeContext} {c : Code} (h : c.toNat < 2 ^ x.mcs) :
    classify x c = .literal := by
  have h1 : ¬ c.toNat = 2 ^ x.mcs := by omega
  have h2 : ¬ c.toNat = 2 ^ x.mcs + 1 := by omega
  simp only [classify, if_neg h1, if_neg h2, if_pos h]

theorem classify_dict {x : CodeContext} {c : Code} (h : 2 ^ x.mcs + 2 ≤ c.toNat)
    (hn : c.toNat < x.next) : classify x c = .dict := by
  have h1 : ¬ c.toNat = 2 ^ x.mcs := by omega
  have h2 : ¬ c.toNat = 2 ^ x.mcs + 1 := by omega
  have h3 : ¬ c.toNat < 2 ^ x.mcs := by omega
  simp only [classify, if_neg h1, if_neg h2, if_neg h3, if_pos hn]

theorem classify_kwkwk {x : CodeContext} {c : Code} (h : 2 ^ x.mcs + 2 ≤ c.toNat)
    (hn : c.toNat = x.next) (hp : x.prev.isSome) : classify x c = .kwkwk := by
  have h1 : ¬ c.toNat = 2 ^ x.mcs := by omega
  have h2 : ¬ c.toNat = 2 ^ x.mcs + 1 := by omega
  have h3 : ¬ c.toNat < 2 ^ x.mcs := by omega
  have h4 : ¬ c.toNat < x.next := by omega
  have h5 : c.toNat = x.next ∧ x.prev.isSome := ⟨hn, hp⟩
  simp only [classify, if_neg h1, if_neg h2, if_neg h3, if_neg h4, if_pos h5]

/-- A code that has a sequence is a literal or a dynamic code, and is executed as one. -/
theorem classify_seqCode {s : State} {c : Code} (h : s.IsSeqCode c) :
    (c.toNat < s.clr ∧ classify s.codeContext c = .literal) ∨
      (s.clr + 2 ≤ c.toNat ∧ c.toNat < s.next ∧ classify s.codeContext c = .dict) := by
  rcases h with h | ⟨h1, h2⟩
  · exact .inl ⟨h, classify_literal h⟩
  · exact .inr ⟨h1, h2, classify_dict h1 h2⟩

/-! ## `Seq` under R30 (a), and while the dictionary grows -/

/-- Every code that has a sequence by R29 has one in the model, not empty, of symbols below `CLR`. -/
theorem seq_of_isSeqCode {s : State} (hd : s.DictOk) {c : Code} (hc : s.IsSeqCode c) :
    ∃ f q, s.seq c = some (f :: q) ∧ ∀ y ∈ f :: q, y.toNat < s.clr := by
  generalize hn : c.toNat = n
  induction n using Nat.strong_induction_on generalizing c with
  | _ n ih =>
    rcases hc with h | ⟨h1, h2⟩
    · refine ⟨_, _, seq_literal h, fun y hy => ?_⟩
      rw [List.mem_singleton.mp hy, BitVec.toNat_setWidth]
      exact lt_of_le_of_lt (Nat.mod_le _ _) h
    · obtain ⟨e, hr, hp, hn1, hn2, hs⟩ := hd _ h1 h2
      have hpc : s.IsSeqCode e.pfx := by
        unfold State.IsSeqCode State.eoiCode at *
        omega
      obtain ⟨f, q, hq, hy⟩ := ih e.pfx.toNat (by omega) hpc rfl
      refine ⟨f, q ++ [e.sym], by rw [seq_dynamic h1 h2 hr hp, hq]; rfl, fun y hy' => ?_⟩
      rw [← List.cons_append, List.mem_append, List.mem_singleton] at hy'
      rcases hy' with h | rfl
      · exact hy y h
      · exact hs

/-- An insertion at `NEXT` changes no sequence that was there. -/
theorem seq_insert {s : State} {p : Code} {y : Byte} {c : Code} (h : c.toNat < s.next) :
    (s.insert p y).seq c = s.seq c := by
  have aux : ∀ (k : Nat) (x : Code), x.toNat < s.next →
      seqAux (s.dict.write s.next ⟨p, y⟩) s.clr (s.next + 1) k x =
        seqAux s.dict s.clr s.next k x := by
    intro k
    induction k with
    | zero => exact fun _ _ => rfl
    | succ k ih =>
      intro x hx
      have hr : (s.clr + 2 ≤ x.toNat ∧ x.toNat < s.next + 1) ↔
          (s.clr + 2 ≤ x.toNat ∧ x.toNat < s.next) := by omega
      simp only [seqAux, Memory.read_write_other _ _ (Nat.ne_of_lt hx), if_congr hr rfl rfl]
      split
      · rfl
      · split
        · split
          · rfl
          · split
            · rw [ih _ (by omega)]
            · rfl
        · rfl
  exact aux _ c h

/-! ## `DEC_RUN` (R160, R161) -/

/-- One turn of `DEC_RUN`'s loop. -/
theorem decLoop_succ (k : Nat) (s : State) :
    decLoop (k + 1) s =
      match stepCode s with
      | .next t => if t.mode = .dec then decLoop k t else .next t
      | stopped => stopped := rfl

/-- Beyond a third of the bits that are left the loop's bound plays no part (R161). -/
theorem decLoop_bound {j k : Nat} {s : State} (hj : (8 * s.clen - s.bitpos) / 3 < j)
    (hk : (8 * s.clen - s.bitpos) / 3 < k) : decLoop j s = decLoop k s := by
  induction j generalizing k s with
  | zero => omega
  | succ j ih =>
    obtain _ | k := k
    · omega
    · rw [decLoop_succ, decLoop_succ]
      cases h : stepCode s with
      | next t =>
        dsimp only
        split
        · obtain ⟨h1, h2, h3⟩ := stepCode_progress h ‹_›
          have h4 : t.clen = s.clen := by rw [State.clen, h3, State.clen]
          exact ih (by omega) (by omega)
        · rfl
      | fault r => rfl
      | refused r => rfl

end Sys2Proof.Machine
end

