-- ==== Sys2Proof/Laws/PerInstr.lean ====
section
/-! SUPPORT. One fact per instruction as syntax: the encoder gives it the form its row of the opcode
table has. -/

namespace Sys2Proof.Laws.EncodedForm

/-- The encoding of a well-formed instruction has the row's format (R80); a command's opcode is
unassigned exactly when the instruction is `ILLEGAL` (R83); a token is as long as its fetch moves
the cursor (R90). -/
def Statement (i : Instr) : Prop :=
  i.wellFormed = true →
    match encode i with
    | .command w => i.format = .cmd ∧ (unassigned w.op = true ↔ i = .illegal w.op)
    | .code _ => i.format = .code
    | .token bytes => i.format = .subblock ∧ bytes.length = Machine.tokenLength i

theorem nop : Statement .nop :=
  fun _ => ⟨rfl, fun h => absurd (show unassigned opNop = true from h) (by decide), nofun⟩

theorem reset : Statement .reset :=
  fun _ => ⟨rfl, fun h => absurd (show unassigned opReset = true from h) (by decide), nofun⟩

theorem rdOpen (data : List Byte) : Statement (.rdOpen data) :=
  fun _ => ⟨rfl, fun h => absurd (show unassigned opRdOpen = true from h) (by decide), nofun⟩

theorem rdU8 : Statement .rdU8 :=
  fun _ => ⟨rfl, fun h => absurd (show unassigned opRdU8 = true from h) (by decide), nofun⟩

theorem rdU16 : Statement .rdU16 :=
  fun _ => ⟨rfl, fun h => absurd (show unassigned opRdU16 = true from h) (by decide), nofun⟩

theorem rdExpect (k : Word) : Statement (.rdExpect k) :=
  fun _ => ⟨rfl, fun h => absurd (show unassigned opRdExpect = true from h) (by decide), nofun⟩

theorem rdBytes (n : Word) : Statement (.rdBytes n) :=
  fun _ => ⟨rfl, fun h => absurd (show unassigned opRdBytes = true from h) (by decide), nofun⟩

theorem rdSubblocks : Statement .rdSubblocks :=
  fun _ => ⟨rfl, fun h => absurd (show unassigned opRdSubblocks = true from h) (by decide), nofun⟩

theorem rdImagedata : Statement .rdImagedata :=
  fun _ => ⟨rfl, fun h => absurd (show unassigned opRdImagedata = true from h) (by decide), nofun⟩

theorem cbLoad (data : List Byte) : Statement (.cbLoad data) :=
  fun _ => ⟨rfl, fun h => absurd (show unassigned opCbLoad = true from h) (by decide), nofun⟩

theorem brGet (w : Word) : Statement (.brGet w) :=
  fun _ => ⟨rfl, fun h => absurd (show unassigned opBrGet = true from h) (by decide), nofun⟩

theorem brRewind : Statement .brRewind :=
  fun _ => ⟨rfl, fun h => absurd (show unassigned opBrRewind = true from h) (by decide), nofun⟩

theorem decStart (mcs : Word) : Statement (.decStart mcs) :=
  fun _ => ⟨rfl, fun h => absurd (show unassigned opDecStart = true from h) (by decide), nofun⟩

theorem decStep : Statement .decStep :=
  fun _ => ⟨rfl, fun h => absurd (show unassigned opDecStep = true from h) (by decide), nofun⟩

theorem decRun : Statement .decRun :=
  fun _ => ⟨rfl, fun h => absurd (show unassigned opDecRun = true from h) (by decide), nofun⟩

theorem encStart (mcs : Word) : Statement (.encStart mcs) :=
  fun _ => ⟨rfl, fun h => absurd (show unassigned opEncStart = true from h) (by decide), nofun⟩

theorem encPut (sym : Word) : Statement (.encPut sym) :=
  fun _ => ⟨rfl, fun h => absurd (show unassigned opEncPut = true from h) (by decide), nofun⟩

theorem encEnd : Statement .encEnd :=
  fun _ => ⟨rfl, fun h => absurd (show unassigned opEncEnd = true from h) (by decide), nofun⟩

theorem wrOpen : Statement .wrOpen :=
  fun _ => ⟨rfl, fun h => absurd (show unassigned opWrOpen = true from h) (by decide), nofun⟩

theorem wrU8 (v : Word) : Statement (.wrU8 v) :=
  fun _ => ⟨rfl, fun h => absurd (show unassigned opWrU8 = true from h) (by decide), nofun⟩

theorem wrU16 (v : Word) : Statement (.wrU16 v) :=
  fun _ => ⟨rfl, fun h => absurd (show unassigned opWrU16 = true from h) (by decide), nofun⟩

theorem bwPut (v w : Word) : Statement (.bwPut v w) :=
  fun _ => ⟨rfl, fun h => absurd (show unassigned opBwPut = true from h) (by decide), nofun⟩

theorem bwFlush : Statement .bwFlush :=
  fun _ => ⟨rfl, fun h => absurd (show unassigned opBwFlush = true from h) (by decide), nofun⟩

theorem wrSubblocks : Statement .wrSubblocks :=
  fun _ => ⟨rfl, fun h => absurd (show unassigned opWrSubblocks = true from h) (by decide), nofun⟩

theorem illegal (op : Byte) : Statement (.illegal op) := fun h => ⟨rfl, fun _ => rfl, fun _ => h⟩

theorem clear (c : Code) : Statement (.clear c) := fun _ => rfl

theorem eoi (c : Code) : Statement (.eoi c) := fun _ => rfl

theorem literal (c : Code) : Statement (.literal c) := fun _ => rfl

theorem dict (c : Code) : Statement (.dict c) := fun _ => rfl

theorem kwkwk (c : Code) : Statement (.kwkwk c) := fun _ => rfl

theorem invalid (c : Code) : Statement (.invalid c) := fun _ => rfl

theorem sbData (size : Byte) (payload : List Byte) : Statement (.sbData size payload) := fun _ => ⟨rfl, rfl⟩

theorem sbEnd : Statement .sbEnd := fun _ => ⟨rfl, rfl⟩

end Sys2Proof.Laws.EncodedForm
end

