-- ==== Sys2Proof/Laws/Stream.lean ====
section
/-! SUPPORT. The packed bit stream (R51, R52, R200): the bits of a field, and where `PutBits` places
them. The stream of a state is `PBUF` followed by the partial byte `ACC`. -/

namespace Sys2Proof.Machine

/-- The bit stream written so far: the packed bytes and the partial byte. -/
def State.stream (s : State) : List Byte := s.pbuf ++ [s.acc]

/-- The next bit position of the stream (R200). -/
def State.streamPos (s : State) : Nat := 8 * s.pbuf.length + s.nacc

/-- The form of R20: `NACC` below 8 and nothing in `ACC` above it. -/
def State.PartialOk (s : State) : Prop := s.nacc < 8 ∧ s.acc.toNat < 2 ^ s.nacc

/-! ## Bits and fields -/

/-- Two fields that follow each other are one. -/
theorem field_add (b : List Byte) (p w w' : Nat) :
    field b p (w + w') = field b p w + 2 ^ w * field b (p + w) w' := by
  induction w' with
  | zero => simp
  | succ w' ih =>
    rw [← Nat.add_assoc, field_succ, ih, field_succ, Nat.mul_add, ← Nat.add_assoc p w w', pow_add]
    ring

/-- The first bit of a field is its lowest. -/
theorem field_succ' (b : List Byte) (p w : Nat) :
    field b p (w + 1) = bitAt b p + 2 * field b (p + 1) w := by
  rw [Nat.add_comm w 1, field_add]
  simp [field_succ]

/-- A field depends on its bits only. -/
theorem field_congr {b b' : List Byte} {p w : Nat}
    (h : ∀ k, p ≤ k → k < p + w → bitAt b k = bitAt b' k) : field b p w = field b' p w := by
  induction w with
  | zero => rfl
  | succ w ih =>
    rw [field_succ, field_succ, ih fun k h1 h2 => h k h1 (by omega), h (p + w) (by omega) (by omega)]

/-- Bytes after a bit do not matter to it. -/
theorem bitAt_append_left (l r : List Byte) {k : Nat} (h : k < 8 * l.length) :
    bitAt (l ++ r) k = bitAt l k := by
  have hk : k / 8 < l.length := by omega
  rw [bitAt, List.getD_append _ _ _ _ hk, bitAt]

/-- A bit of the byte after `l`. -/
theorem bitAt_last (l : List Byte) (a : Byte) {k : Nat} (h : 8 * l.length ≤ k)
    (h' : k < 8 * l.length + 8) :
    bitAt (l ++ [a]) k = a.toNat / 2 ^ (k - 8 * l.length) % 2 := by
  have h1 : k / 8 = l.length := by omega
  have h2 : k % 8 = k - 8 * l.length := by omega
  rw [bitAt, h1, h2, List.getD_append_right _ _ _ _ le_rfl]
  simp

/-- The bits of a partial byte after one more bit `b` was placed at `n`. -/
theorem bit_of_or {a : Byte} {b n : Nat} (j : Nat) (hb : b < 2) (hn : n < 8)
    (ha : a.toNat < 2 ^ n) :
    (a ||| (BitVec.ofNat 8 b <<< n)).toNat / 2 ^ j % 2 =
      if j = n then b else if j < n then a.toNat / 2 ^ j % 2 else 0 := by
  have key : ∀ (x : Byte) (j : Nat), x.toNat / 2 ^ j % 2 = (x.getLsbD j).toNat := by
    intro x j
    rw [BitVec.getLsbD, Nat.testBit_eq_decide_div_mod_eq]
    by_cases h : x.toNat / 2 ^ j % 2 = 1 <;> simp [h]
    omega
  have hb' : b = 0 ∨ b = 1 := by omega
  rw [key, key]
  by_cases hj8 : j < 8
  · have haj : n ≤ j → a.getLsbD j = false := fun h =>
      Nat.testBit_lt_two_pow (lt_of_lt_of_le ha (Nat.pow_le_pow_right (by decide) h))
    rw [BitVec.getLsbD_or, BitVec.getLsbD_shiftLeft]
    rcases Nat.lt_trichotomy j n with h | h | h
    · simp [h, Nat.ne_of_lt h, hj8]
    · subst h
      rw [haj le_rfl]
      rcases hb' with rfl | rfl <;> simp [hj8]
    · rw [haj (le_of_lt h), if_neg (by omega), if_neg (by omega)]
      rcases hb' with rfl | rfl
      · simp
      · simp only [hj8, Nat.not_lt.mpr (le_of_lt h)]
        simp
        omega
  · rw [if_neg (by omega), if_neg (by omega), BitVec.getLsbD_of_ge _ _ (by omega)]
    rfl

/-! ## One bit placed -/

theorem putBit_partialOk {b : Nat} {s : State} (h : s.PartialOk) (hb : b < 2) :
    (putBit b s).PartialOk ∧ (putBit b s).streamPos = s.streamPos + 1 := by
  have h1 := putBits_acc b 1 s h.1 h.2
  have h2 := putBits_position b 1 s h.1
  have e : putBits b 1 s = putBit b s := by
    rw [putBits, putBits, Nat.mod_eq_of_lt hb]
  rw [e] at h1 h2
  exact ⟨⟨h2.2, h1⟩, h2.1⟩

theorem putBit_before {b : Nat} {s : State} (h : s.PartialOk) (hb : b < 2) {k : Nat}
    (hk : k < s.streamPos) : bitAt (putBit b s).stream k = bitAt s.stream k := by
  obtain ⟨hn, ha⟩ := h
  unfold State.stream State.streamPos putBit at *
  dsimp only
  split
  · dsimp only
    rw [bitAt_append_left _ _ (by simp; omega)]
    by_cases h : k < 8 * s.pbuf.length
    · rw [bitAt_append_left _ _ h, bitAt_append_left _ _ h]
    · rw [bitAt_last _ _ (by omega) (by omega), bitAt_last _ _ (by omega) (by omega),
        bit_of_or _ hb hn ha, if_neg (by omega), if_pos (by omega)]
  · dsimp only
    by_cases h : k < 8 * s.pbuf.length
    · rw [bitAt_append_left _ _ h, bitAt_append_left _ _ h]
    · rw [bitAt_last _ _ (by omega) (by omega), bitAt_last _ _ (by omega) (by omega),
        bit_of_or _ hb hn ha, if_neg (by omega), if_pos (by omega)]

theorem putBit_at {b : Nat} {s : State} (h : s.PartialOk) (hb : b < 2) :
    bitAt (putBit b s).stream s.streamPos = b := by
  obtain ⟨hn, ha⟩ := h
  unfold State.stream State.streamPos putBit at *
  dsimp only
  split
  · dsimp only
    rw [bitAt_append_left _ _ (by simp; omega), bitAt_last _ _ (by omega) (by omega),
      bit_of_or _ hb hn ha, if_pos (by omega)]
  · dsimp only
    rw [bitAt_last _ _ (by omega) (by omega), bit_of_or _ hb hn ha, if_pos (by omega)]

/-! ## `PutBits` -/

theorem putBits_partialOk {v w : Nat} {s : State} (h : s.PartialOk) :
    (putBits v w s).PartialOk :=
  ⟨(putBits_position v w s h.1).2, putBits_acc v w s h.1 h.2⟩

theorem putBits_streamPos {v w : Nat} {s : State} (h : s.PartialOk) :
    (putBits v w s).streamPos = s.streamPos + w :=
  (putBits_position v w s h.1).1

/-- The bits before the field are unchanged. -/
theorem putBits_before {v w : Nat} {s : State} (h : s.PartialOk) {k : Nat}
    (hk : k < s.streamPos) : bitAt (putBits v w s).stream k = bitAt s.stream k := by
  induction w generalizing v s with
  | zero => rfl
  | succ w ih =>
    have hb : v % 2 < 2 := Nat.mod_lt v (by decide)
    obtain ⟨h1, h2⟩ := putBit_partialOk h hb
    rw [putBits, ih h1 (by omega), putBit_before h hb hk]

/-- The field stands at the stream's next position, first bit lowest. -/
theorem putBits_field {v w : Nat} {s : State} (h : s.PartialOk) (hv : v < 2 ^ w) :
    field (putBits v w s).stream s.streamPos w = v := by
  induction w generalizing v s with
  | zero => rw [field_zero]; omega
  | succ w ih =>
    have hb : v % 2 < 2 := Nat.mod_lt v (by decide)
    obtain ⟨h1, h2⟩ := putBit_partialOk h hb
    have hv' : v / 2 < 2 ^ w := by rw [pow_succ] at hv; omega
    rw [field_succ', putBits, ← h2, ih h1 hv', putBits_before h1 (by omega), putBit_at h hb]
    omega

/-- `Flush` completes the partial byte: the stream's bits stay where they are. -/
theorem flush_stream {s : State} {k : Nat} (hk : k < s.streamPos) :
    bitAt (flush s).pbuf k = bitAt s.stream k := by
  unfold State.streamPos at hk
  unfold State.stream flush
  split
  · rfl
  · rw [bitAt_append_left _ _ (by omega)]

end Sys2Proof.Machine
end

