-- ==== Sys2Proof/Laws/SubBlock.lean ====
section
/-! SUPPORT. The loop of `RD_SUBBLOCKS` (R126): one turn, its answers, why its bound is never used up;
and the canonical runs `Chunk` writes (R202). -/

namespace Sys2Proof.Machine

/-! ## Reading a run -/

/-- A fetched token lies within `IBUF`, and `RPOS` is past it; nothing else changes. -/
theorem fetchToken_some {s t : State} {i : Instr} (h : fetchToken s = some (i, t)) :
    t = { s with rpos := s.rpos + tokenLength i } ∧ s.rpos + tokenLength i ≤ s.ilen ∧
      (i = .sbEnd ∨ ∃ n p, i = .sbData n p) := by
  rw [fetchToken_eq_reads] at h
  by_cases hr : s.rpos < s.ilen
  · rw [readByte_some hr] at h
    dsimp only at h
    split at h
    · cases h
      exact ⟨rfl, hr, .inl rfl⟩
    · by_cases hl : s.rpos + 1 + (s.ibuf[s.rpos]'hr).toNat ≤ s.ilen
      · rw [readRun_some (by exact hl)] at h
        cases h
        have hp : ((s.ibuf.drop (s.rpos + 1)).take (s.ibuf[s.rpos]'hr).toNat).length =
            (s.ibuf[s.rpos]'hr).toNat := by
          rw [List.length_take, List.length_drop]
          unfold State.ilen at hl
          omega
        refine ⟨?_, ?_, .inr ⟨_, _, rfl⟩⟩
        · simp only [tokenLength, hp, Nat.add_assoc, Nat.add_comm]
        · rw [tokenLength, hp]
          omega
      · rw [readRun_none (by show s.ilen < s.rpos + 1 + _; omega)] at h
        cases h
  · rw [readByte_none (by omega)] at h
    cases h

theorem tokenLength_pos (i : Instr) : 0 < tokenLength i := by
  unfold tokenLength
  split
  · exact Nat.succ_pos _
  · exact Nat.one_pos

/-- One turn of the loop, in `IDLE` mode. -/
theorem runTokens_succ (k : Nat) {s : State} (hm : s.mode = .idle) :
    runTokens (k + 1) s =
      match fetchToken s with
      | none => .next s.underrun
      | some (.sbData _ p, t) => runTokens k { t with pay := t.pay ++ p }
      | some (_, t) => .next { t.loadCbuf t.pay with pay := [] } := by
  rw [runTokens]
  cases h : fetchToken s with
  | none => rfl
  | some it =>
    obtain ⟨i, t⟩ := it
    obtain ⟨ht, -, hi⟩ := fetchToken_some h
    have hmt : t.mode = .idle := by rw [ht]; exact hm
    rcases hi with rfl | ⟨n, p, rfl⟩
    · dsimp only
      rw [execSbEnd, inRun_ok hmt]
    · dsimp only
      rw [execSbData, inRun_ok hmt]

/-- Everything the loop can answer as a next state: the fault, or a delivered run. -/
theorem runTokens_cases {k : Nat} {s t : State} (hm : s.mode = .idle)
    (h : runTokens k s = .next t) :
    t = s.underrun ∨
      (s.rpos ≤ t.rpos ∧ t.rpos ≤ s.ilen ∧ t.cbuf.length + s.rpos ≤ s.pay.length + t.rpos ∧
        t = { s with rpos := t.rpos, cbuf := t.cbuf, bitpos := 0, pay := [] }) := by
  induction k generalizing s with
  | zero => cases h
  | succ k ih =>
    rw [runTokens_succ k hm] at h
    cases hf : fetchToken s with
    | none =>
      rw [hf] at h
      exact .inl (Host.Outcome.next.inj h).symm
    | some iu =>
      obtain ⟨i, u⟩ := iu
      obtain ⟨rfl, hl, hi⟩ := fetchToken_some hf
      rw [hf] at h
      rcases hi with rfl | ⟨n, p, rfl⟩
      · cases h
        refine .inr ⟨Nat.le_add_right _ _, hl, ?_, rfl⟩
        show s.pay.length + s.rpos ≤ s.pay.length + (s.rpos + 1)
        omega
      · dsimp only at h
        rcases ih (by exact hm) h with rfl | ⟨h1, h2, h3, h4⟩
        · exact .inl rfl
        · dsimp only [tokenLength, State.ilen] at h1 h2 h3 h4 ⊢
          rw [List.length_append] at h3
          exact .inr ⟨by omega, h2, by omega, h4⟩

/-- Each turn consumes a byte of `IBUF`, so a bound beyond the bytes that are left is not used up. -/
theorem runTokens_completes {k : Nat} {s : State} (hm : s.mode = .idle)
    (hk : s.ilen - s.rpos < k) : ∃ t, runTokens k s = .next t := by
  induction k generalizing s with
  | zero => omega
  | succ k ih =>
    rw [runTokens_succ k hm]
    cases hf : fetchToken s with
    | none => exact ⟨_, rfl⟩
    | some iu =>
      obtain ⟨i, u⟩ := iu
      obtain ⟨rfl, hl, hi⟩ := fetchToken_some hf
      rcases hi with rfl | ⟨n, p, rfl⟩
      · exact ⟨_, rfl⟩
      · have hp := tokenLength_pos (.sbData n p)
        refine ih (by exact hm) ?_
        show s.ilen - (s.rpos + tokenLength (.sbData n p)) < k
        omega

/-- What the body of `RD_SUBBLOCKS` can answer (R126). -/
theorem readSubblocks_cases {s : State} (hm : s.mode = .idle) :
    ∃ t, readSubblocks s = .next t ∧
      (t = s.underrun ∨
        (s.rpos ≤ t.rpos ∧ t.rpos ≤ s.ilen ∧ t.cbuf.length + s.rpos ≤ t.rpos ∧
          t = { s with rpos := t.rpos, cbuf := t.cbuf, bitpos := 0, pay := [] })) := by
  obtain ⟨t, ht⟩ := runTokens_completes (k := s.ilen + 1) (s := { s with pay := [] })
    (by exact hm) (by show s.ilen - s.rpos < s.ilen + 1; omega)
  refine ⟨t, ht, ?_⟩
  rcases runTokens_cases (by exact hm) ht with h | ⟨h1, h2, h3, h4⟩
  · exact .inl h
  · refine .inr ⟨h1, h2, ?_, h4⟩
    dsimp only [List.length_nil] at h3
    omega

/-! ## Writing a run -/

/-- The bound on the number of sub-blocks plays no part once it covers the payload. -/
theorem subBlocks_bound {j k : Nat} {p : List Byte} (hj : p.length ≤ j) (hk : p.length ≤ k) :
    subBlocks j p = subBlocks k p := by
  induction j generalizing k p with
  | zero =>
    obtain rfl : p = [] := List.length_eq_zero_iff.mp (by omega)
    cases k <;> rfl
  | succ j ih =>
    cases p with
    | nil => cases k <;> rfl
    | cons b p =>
      obtain _ | k := k
      · simp at hk
      · simp only [List.length_cons] at hj hk
        simp only [subBlocks, Config.sbMax]
        rw [ih (k := k) (by rw [List.length_drop, List.length_cons]; omega)
          (by rw [List.length_drop, List.length_cons]; omega)]

/-- The empty payload is the terminator alone (R202). -/
theorem subBlocks_nil (k : Nat) : subBlocks k [] = [0] := by cases k <;> rfl

/-- A payload of 1 to 255 bytes is one sub-block and the terminator (R202). -/
theorem subBlocks_short {k : Nat} {p : List Byte} (hk : p.length ≤ k) (h1 : 1 ≤ p.length)
    (h2 : p.length ≤ 255) : subBlocks k p = BitVec.ofNat 8 p.length :: p ++ [0] := by
  cases p with
  | nil => cases h1
  | cons b p =>
    obtain _ | k := k
    · cases hk
    · have hm : min 255 (b :: p).length = (b :: p).length := Nat.min_eq_right h2
      simp only [subBlocks, Config.sbMax, hm, List.take_length, List.drop_length, subBlocks_nil]

/-- A payload above 255 bytes starts with a sub-block of 255 (R202). -/
theorem subBlocks_long {k : Nat} {p : List Byte} (hk : p.length ≤ k) (h : 255 < p.length) :
    subBlocks k p =
      0xFF :: p.take 255 ++ subBlocks (p.drop 255).length (p.drop 255) := by
  cases p with
  | nil => cases h
  | cons b p =>
    obtain _ | k := k
    · cases hk
    · have hm : min 255 (b :: p).length = 255 := Nat.min_eq_left (Nat.le_of_lt h)
      have hd : ((b :: p).drop 255).length ≤ k := by
        rw [List.length_drop]
        omega
      simp only [subBlocks, Config.sbMax, hm]
      rw [subBlocks_bound hd le_rfl]
      rfl

end Sys2Proof.Machine
end

