-- ==== Sys2Proof/Tests/Slice0.lean ====
section
/-! SUPPORT. The model's own tests. Expected values are those of spec/95_test_vectors.md (each test
names its vector) or of the rule it names, never the model's. Each is one decode or one instruction
on a small state. Last, a witness for the hypotheses of every obligation. -/

namespace Sys2Proof.Tests

open Sys2Proof Sys2Proof.Machine

/-! ## Helpers -/

/-- A field of the next state, if the result is one. -/
def got {α : Type} (r : Result) (f : State → α) : Option α :=
  match r with
  | .next t => some (f t)
  | .fault _ => none
  | .refused _ => none

/-- What the host sees of a fault: `STATUS` bits 3:0, `CAUSE`, `FINFO`. -/
def seenFault (s : State) : Nat × Nat × Nat := (s.mode.number, s.cause.number, s.finfo.toNat)

/-- An idle block that holds input bytes. -/
def withInput (b : List Byte) (rpos : Nat) : State := { State.reset with ibuf := b, rpos := rpos }

/-- An idle block that holds compressed bytes. -/
def withCbuf (b : List Byte) (bitpos : Nat) : State :=
  { State.reset with cbuf := b, bitpos := bitpos }

/-- The state after `CB_LOAD` of `b` and `DEC_START 2` (R150). -/
def decoding (b : List Byte) : State :=
  { State.reset with mode := .dec, mcs := 2, cw := 3, next := 6, cbuf := b }

/-- The state after `ENC_START 2` (step detail of EV2). -/
def encoding : State :=
  { State.reset with mode := .enc, mcs := 2, cw := 3, next := 6, acc := 0x04, nacc := 3 }

/-! ## Ill-formed instructions are refused -/

/-- R83: 0x00, 0x16 and 0x55 are assigned. -/
theorem test_assigned_opcode_is_not_illegal :
    (Instr.illegal 0x00).wellFormed = false ∧ (Instr.illegal 0x16).wellFormed = false ∧
      (Instr.illegal 0x55).wellFormed = false := by decide

/-- R90: a data token of size 0. -/
theorem test_empty_data_token_is_ill_formed : (Instr.sbData 0 []).wellFormed = false := by decide

/-- R90: the size byte counts the payload. -/
theorem test_wrong_size_is_ill_formed :
    (Instr.sbData 2 [0xAA]).wellFormed = false ∧ (Instr.sbData 1 [0xAA]).wellFormed = true := by
  decide

/-! ## Decoding: words written out from the opcode map (R82) -/

theorem test_decode_system :
    decodeTableWord 8 0b00000000 = some .nop ∧ decodeTableWord 8 0b00000001 = some .reset := by
  decide

theorem test_decode_byte_reader :
    decodeTableWord 8 0b00010000 = some (.rdOpen []) ∧
    decodeCommand ⟨0b00010000, 0, 0, [0x3B]⟩ = .rdOpen [0x3B] ∧
    decodeTableWord 8 0b00010001 = some .rdU8 ∧ decodeTableWord 8 0b00010010 = some .rdU16 ∧
    decodeTableWord 40 (0b00010011 + 0x3B * 2 ^ 8) = some (.rdExpect 0x3B) ∧
    decodeTableWord 40 (0b00010100 + 0xFFFFFFFF * 2 ^ 8) = some (.rdBytes 0xFFFFFFFF) ∧
    decodeTableWord 8 0b00010101 = some .rdSubblocks ∧
    decodeTableWord 8 0b00010110 = some .rdImagedata := by decide

theorem test_decode_bit_reader :
    decodeCommand ⟨0b00100000, 7, 8, [0xFD, 0x1F]⟩ = .cbLoad [0xFD, 0x1F] ∧
    decodeTableWord 40 (0b00100001 + 9 * 2 ^ 8) = some (.brGet 9) ∧
    decodeTableWord 8 0b00100010 = some .brRewind := by decide

theorem test_decode_codec :
    decodeTableWord 40 (0b00110000 + 8 * 2 ^ 8) = some (.decStart 8) ∧
    decodeTableWord 8 0b00110001 = some .decStep ∧ decodeTableWord 8 0b00110010 = some .decRun ∧
    decodeTableWord 40 (0b01000000 + 2 * 2 ^ 8) = some (.encStart 2) ∧
    decodeTableWord 40 (0b01000001 + 256 * 2 ^ 8) = some (.encPut 256) ∧
    decodeTableWord 8 0b01000010 = some .encEnd := by decide

theorem test_decode_writer :
    decodeTableWord 8 0b01010000 = some .wrOpen ∧
    decodeTableWord 40 (0b01010001 + 0x102 * 2 ^ 8) = some (.wrU8 0x102) ∧
    decodeTableWord 40 (0b01010010 + 0xFFFE * 2 ^ 8) = some (.wrU16 0xFFFE) ∧
    decodeTableWord 72 (0b01010011 + 4 * 2 ^ 8 + 17 * 2 ^ 40) = some (.bwPut 4 17) ∧
    decodeTableWord 8 0b01010100 = some .bwFlush ∧
    decodeTableWord 8 0b01010101 = some .wrSubblocks := by decide

/-- R83: the ends of every unassigned range. -/
theorem test_decode_unassigned :
    [0x02, 0x0F, 0x17, 0x1F, 0x23, 0x2F, 0x33, 0x3F, 0x43, 0x4F, 0x56, 0xFF].all
      (fun (op : Byte) => unassigned op && decide (decodeCommand ⟨op, 0, 0, []⟩ = .illegal op)) =
      true := by decide

/-- R86 for `mcs = 2`, `NEXT = 8` and a previous code; R85: 12-bit table words. -/
theorem test_decode_codes :
    decodeCode ⟨2, 8, some 1⟩ 4 = .clear 4 ∧ decodeCode ⟨2, 8, some 1⟩ 5 = .eoi 5 ∧
    decodeCode ⟨2, 8, some 1⟩ 3 = .literal 3 ∧ decodeCode ⟨2, 8, some 1⟩ 7 = .dict 7 ∧
    decodeCode ⟨2, 8, some 1⟩ 8 = .kwkwk 8 ∧ decodeCode ⟨2, 8, none⟩ 8 = .invalid 8 ∧
    decodeCode ⟨2, 8, some 1⟩ 9 = .invalid 9 ∧
    decodeTableWord 16 256 = some (.clear 256) ∧ decodeTableWord 16 4095 = some (.invalid 4095) := by
  decide

/-- R90: a data token, the terminator, and the two ways a token is cut short (B14, B15). -/
theorem test_decode_tokens :
    decodeToken [0x02, 0xAA, 0xBB, 0x01, 0xCC] = .ok (.sbData 0x02 [0xAA, 0xBB]) [0x01, 0xCC] ∧
    decodeToken [0x00, 0x3B] = .ok .sbEnd [0x3B] ∧
    decodeToken [0x02, 0xAA] = .rejected .shortPayload ∧
    decodeToken [] = .rejected .noSizeByte := by decide

/-- The encoder on the triples of P1, P2 (R94). -/
theorem test_encode_commands :
    encode (.wrU8 0x47) = .command ⟨0x51, 0x47, 0, []⟩ ∧
    encode (.encStart 2) = .command ⟨0x40, 2, 0, []⟩ ∧ encode .decRun = .command ⟨0x32, 0, 0, []⟩ ∧
    encode (.bwPut 5 3) = .command ⟨0x53, 5, 3, []⟩ ∧ encode (.sbData 1 [0xCC]) = .token [1, 0xCC] ∧
    encode .sbEnd = .token [0] := by decide

/-! ## Fields (M1 to M9) -/

theorem test_field :
    field [0xB5, 0x3C, 0x01] 0 1 = 1 ∧ field [0xB5, 0x3C, 0x01] 1 3 = 2 ∧
    field [0xB5, 0x3C, 0x01] 4 4 = 11 ∧ field [0xB5, 0x3C, 0x01] 8 9 = 316 ∧
    field [0xB5, 0x3C, 0x01] 17 7 = 0 ∧ field [0xB5, 0x3C, 0x01] 0 16 = 0x3CB5 ∧
    field [0xB5, 0x3C, 0x01] 4 16 = 0x13CB := by decide

theorem test_u16 : u16Value 0x0A 0x01 = 266 ∧ u16Bytes 0xFFFE = [0xFE, 0xFF] := by decide

/-! ## System commands (F1 to F7) -/

theorem test_reset_registers : (List.range 0x13).map (fun n => State.reset.readReg (BitVec.ofNat 8 n)) =
    List.replicate 0x13 0 := by decide

theorem test_nop_in_dec : got (exec .nop (decoding [5])) (fun t => t) = some (decoding [5]) := by
  decide

theorem test_reset_leaves_enc :
    got (exec .reset encoding) (fun t => (t.mode, t.next, t.acc, t.nacc)) =
      some (.idle, 0, 0, 0) := by decide

theorem test_illegal : got (exec (.illegal 0x02) State.reset) seenFault = some (7, 5, 0x02) ∧
    got (exec (.illegal 0xFF) encoding) seenFault = some (7, 5, 0xFF) := by decide

/-- F5, F6: in `FAULT` mode commands are ignored, `RESET` is not. -/
theorem test_fault_mode :
    got (exec (.rdOpen [0]) (State.reset.raise .illegalCommand 2)) seenFault = some (7, 5, 2) ∧
    got (exec .reset (State.reset.raise .illegalCommand 2)) seenFault = some (0, 0, 0) := by decide

/-- F7: the mode check precedes the operand check. -/
theorem test_mode_before_operand :
    got (exec (.decStart 9) encoding) seenFault = some (7, 5, 0x30) := by decide

/-! ## Byte reader (B1 to B18) -/

theorem test_rd_open : got (exec (.rdOpen [0x2C, 0x01]) (withInput [9] 1))
    (fun t => (t.ibuf, t.rpos)) = some ([0x2C, 0x01], 0) := by decide

/-- R39, R237: `POSW` = 1, two bytes. -/
theorem test_rd_open_too_long :
    got (exec (.rdOpen [1, 2]) { State.reset with posw := 1 }) seenFault = some (7, 6, 0x10) := by
  decide

theorem test_rd_u8 : got (exec .rdU8 (withInput [0x2C, 0x01] 0)) (fun t => (t.result, t.rpos)) =
    some (0x002C, 1) ∧ got (exec .rdU8 (withInput [] 0)) seenFault = some (7, 1, 0) := by decide

theorem test_rd_u16 : got (exec .rdU16 (withInput [0x0A, 0x01] 0)) (fun t => (t.result, t.rpos)) =
    some (266, 2) ∧ got (exec .rdU16 (withInput [0x0A] 0)) seenFault = some (7, 1, 1) := by decide

theorem test_rd_expect :
    got (exec (.rdExpect 0x3B) (withInput [0x3B] 0)) (fun t => (t.result, t.rpos, t.mode)) =
      some (0x3B, 1, .idle) := by decide

/-- B10, B11, B18, and the end of B9. -/
theorem test_rd_expect_faults :
    got (exec (.rdExpect 0x3B) (withInput [0x3A] 0)) seenFault = some (7, 1, 0) ∧
    got (exec (.rdExpect 0x3B) (withInput [0x00, 0x3A] 1)) seenFault = some (7, 1, 1) ∧
    got (exec (.rdExpect 0x13B) (withInput [0x3B] 0)) seenFault = some (7, 6, 0x13) ∧
    got (exec (.rdExpect 0x3B) (withInput [0x02, 0x02, 0x84, 0x0B, 0x00] 5)) seenFault =
      some (7, 1, 5) := by decide

theorem test_rd_bytes :
    got (exec (.rdBytes 2) (withInput [1, 2, 3, 4] 1)) (fun t => (t.cbuf, t.bitpos, t.rpos)) =
      some ([2, 3], 0, 3) ∧
    got (exec (.rdBytes 0) (withInput [1, 2, 3] 0)) (fun t => (t.cbuf, t.rpos)) = some ([], 0) ∧
    got (exec (.rdBytes 4) (withInput [1, 2, 3] 0)) seenFault = some (7, 1, 3) := by decide

theorem test_rd_subblocks :
    got (exec .rdSubblocks (withInput [0x02, 0xAA, 0xBB, 0x01, 0xCC, 0x00, 0x3B] 0))
      (fun t => (t.cbuf, t.rpos)) = some ([0xAA, 0xBB, 0xCC], 6) ∧
    got (exec .rdSubblocks (withInput [0x00, 0x3B] 0)) (fun t => (t.cbuf, t.rpos)) =
      some ([], 1) := by decide

theorem test_rd_subblocks_faults :
    got (exec .rdSubblocks (withInput [0x02, 0xAA] 0)) seenFault = some (7, 1, 2) ∧
    got (exec .rdSubblocks (withInput [0x01, 0xAA] 0)) seenFault = some (7, 1, 2) := by decide

theorem test_rd_imagedata :
    got (exec .rdImagedata (withInput [0x02, 0x02, 0x84, 0x0B, 0x00] 0))
      (fun t => (t.result, t.cbuf, t.rpos)) = some (2, [0x84, 0x0B], 5) ∧
    got (exec .rdImagedata (withInput [0x09, 0x00] 0)) (fun t => (t.result, t.cbuf, t.rpos, t.mode)) =
      some (9, [], 2, .idle) := by decide

/-! ## Sub-block tokens (R90, R126) -/

theorem test_sb_data :
    got (exec (.sbData 2 [0xAA, 0xBB]) { State.reset with pay := [0x11] }) (fun t => t.pay) =
      some [0x11, 0xAA, 0xBB] := by decide

theorem test_sb_end :
    got (exec .sbEnd { State.reset with pay := [0x11], bitpos := 3 })
      (fun t => (t.cbuf, t.bitpos, t.pay)) = some ([0x11], 0, []) := by decide

/-! ## Bit reader (G1 to G11) -/

theorem test_cb_load : got (exec (.cbLoad [0xFD, 0x1F]) (withCbuf [7] 5))
    (fun t => (t.cbuf, t.bitpos)) = some ([0xFD, 0x1F], 0) := by decide

theorem test_br_get :
    got (exec (.brGet 9) (withCbuf [0xFD, 0x1F] 3)) (fun t => (t.result, t.bitpos, t.exhf)) =
      some (511, 12, false) ∧
    got (exec (.brGet 4) { withCbuf [0xFD, 0x1F] 13 with result := 1 })
      (fun t => (t.result, t.bitpos, t.status)) = some (1, 13, 0x20) := by decide

theorem test_br_get_faults :
    got (exec (.brGet 0) (withCbuf [0xFD] 0)) seenFault = some (7, 6, 0x21) ∧
    got (exec (.brGet 17) (withCbuf [0xFD] 0)) seenFault = some (7, 6, 0x21) := by decide

theorem test_br_rewind : got (exec .brRewind (withCbuf [0xFD, 0x1F] 16)) (fun t => t.bitpos) =
    some 0 := by decide

/-! ## Decoder (DV1 to DV18, DF1 to DF6) -/

theorem test_dec_start :
    got (exec (.decStart 2) { withCbuf [0x8C] 5 with oidx := [1], eoif := true })
      (fun t => ((t.status, t.mcs, t.cw, t.next), t.prev, t.oidx, t.bitpos)) =
      some ((0x01, 2, 3, 6), none, [], 0) := by decide

theorem test_dec_start_faults :
    got (exec (.decStart 0) State.reset) seenFault = some (7, 2, 0) ∧
    got (exec (.decStart 1) State.reset) seenFault = some (7, 2, 1) ∧
    got (exec (.decStart 9) State.reset) seenFault = some (7, 2, 9) ∧
    got (exec .decStep State.reset) seenFault = some (7, 5, 0x31) := by decide

/-- The first code of DV6, then exhaustion of an empty buffer (DV16). -/
theorem test_dec_step :
    got (exec .decStep (decoding [0x71, 0x01])) (fun t => (t.oidx, t.prev, t.bitpos, t.next)) =
      some ([1], some 1, 3, 6) ∧
    got (exec .decStep (decoding [])) (fun t => (t.status, t.bitpos)) = some (0x20, 0) := by decide

/-- DV7: two `KWKWK` codes in a row, and a width that grows to 4. -/
theorem test_dec_run_kwkwk :
    got (exec .decRun (decoding [0x94, 0x5F]))
      (fun t => (t.oidx, t.status, t.bitpos, t.cw, t.next)) =
      some ([2, 2, 2, 2, 2, 2], 0x10, 16, 4, 8) := by decide

/-- DV13 (the width falls at a clear code) and DV11 (a clear forgets entry 6). -/
theorem test_dec_run_clear :
    got (exec .decRun (decoding [0x8C, 0x46, 0x28]))
      (fun t => (t.oidx, t.status, t.bitpos, t.cw, t.next)) = some ([1, 2, 3, 0], 0x10, 22, 3, 6) ∧
    got (exec .decRun (decoding [0x44, 0x68])) seenFault = some (7, 3, 6) := by decide

theorem test_clear :
    got (exec (.clear 4) { decoding [] with next := 9, cw := 4, prev := some 1 })
      (fun t => (t.next, t.cw, t.prev, t.mode)) = some (6, 3, none, .dec) := by decide

theorem test_eoi : got (exec (.eoi 5) (decoding [])) (fun t => (t.status, t.next)) =
    some (0x10, 6) := by decide

/-- DV1b: the width grows to 4 after the third literal, when `NEXT` becomes 8. -/
theorem test_literal :
    got (exec (.literal 3)
        { decoding [] with
          next := 7, prev := some 2, oidx := [1, 2], dict := [(6, ⟨1, 2⟩)] })
      (fun t => ((t.oidx, t.next, t.cw), t.prev, t.dict)) =
      some (([1, 2, 3], 8, 4), some 3, [(6, ⟨1, 2⟩), (7, ⟨2, 3⟩)]) := by decide

/-- EV11 read back: code 6 = (0, 1) after code 1. -/
theorem test_dict :
    got (exec (.dict 6) { decoding [] with next := 7, prev := some 1, dict := [(6, ⟨0, 1⟩)] })
      (fun t => (t.oidx, t.next, t.prev, t.dict)) =
      some ([0, 1], 8, some 6, [(6, ⟨0, 1⟩), (7, ⟨1, 0⟩)]) := by decide

/-- DV6: `KWKWK` as second code. -/
theorem test_kwkwk :
    got (exec (.kwkwk 6) { decoding [] with prev := some 1, oidx := [1] })
      (fun t => (t.oidx, t.next, t.prev, t.dict)) = some ([1, 1, 1], 7, some 6, [(6, ⟨1, 1⟩)]) := by
  decide

/-- DV3 and DV4. -/
theorem test_invalid :
    got (exec (.invalid 7) { decoding [] with prev := some 1 }) seenFault = some (7, 3, 7) ∧
    got (exec (.invalid 6) (decoding [])) seenFault = some (7, 3, 6) := by decide

/-! ## Encoder (EV1 to EV11, EF1 to EF7) -/

theorem test_enc_start :
    got (exec (.encStart 2) { State.reset with acc := 1, nacc := 1, pbuf := [9], eout := [7] })
      (fun t => ((t.status, t.cw, t.next), (t.acc, t.nacc), t.pbuf, t.eout)) =
      some ((0x02, 3, 6), (0x04, 3), [], [7]) := by decide

theorem test_enc_start_faults :
    got (exec (.encStart 1) State.reset) seenFault = some (7, 2, 1) ∧
    got (exec (.encStart 9) State.reset) seenFault = some (7, 2, 9) ∧
    got (exec (.encStart 2) encoding) seenFault = some (7, 5, 0x40) := by decide

/-- EV2: first, then emit and insert. -/
theorem test_enc_put :
    got (exec (.encPut 0) encoding) (fun t => (t.cand, t.acc, t.next)) = some (some 0, 0x04, 6) ∧
    got (exec (.encPut 0) { encoding with cand := some 0 })
      (fun t => ((t.cand, t.acc), (t.nacc, t.next), t.cw, t.dict)) =
      some ((some 0, 0x04), (6, 7), 3, [(6, ⟨0, 0⟩)]) := by decide

/-- EV2's extension; EV5, EV9: `NEXT = 8 = 2^3` does not grow the width, 9 does; EF3. -/
theorem test_enc_put_growth :
    got (exec (.encPut 0)
        { encoding with cand := some 0, next := 7, nacc := 6, dict := [(6, ⟨0, 0⟩)] })
      (fun t => (t.cand, t.nacc, t.next)) = some (some 6, 6, 7) ∧
    got (exec (.encPut 1) { encoding with cand := some 0, next := 7, dict := [(6, ⟨0, 0⟩)] })
      (fun t => (t.next, t.cw)) = some (8, 3) ∧
    got (exec (.encPut 3)
        { encoding with cand := some 2, next := 8, dict := [(6, ⟨0, 1⟩), (7, ⟨1, 2⟩)] }) (fun t => (t.next, t.cw)) = some (9, 4) ∧
    got (exec (.encPut 4) encoding) seenFault = some (7, 4, 4) := by decide

/-- EV1 and EV2's last command. -/
theorem test_enc_end :
    got (exec .encEnd encoding) (fun t => (t.eout, t.mode, t.cw, t.next)) =
      some ([0x01, 0x2C, 0x00], .idle, 3, 6) ∧
    got (exec .encEnd
        { encoding with
          cand := some 6, next := 7, acc := 0x04, nacc := 6, dict := [(6, ⟨0, 0⟩)] }) (fun t => (t.eout, t.cand, t.pbuf)) =
      some ([0x02, 0x84, 0x0B, 0x00], none, []) := by decide

/-! ## Writer (W1 to W11) -/

theorem test_wr_open :
    got (exec .wrOpen { State.reset with eout := [1], pbuf := [2], acc := 1, nacc := 2 })
      (fun t => (t.eout, t.pbuf, t.acc, t.nacc)) = some ([], [], 0, 0) := by decide

theorem test_wr_u8 :
    got (exec (.wrU8 2) { State.reset with eout := [1] }) (fun t => t.eout) = some [1, 2] ∧
    got (exec (.wrU8 0x102) State.reset) seenFault = some (7, 6, 0x51) := by decide

theorem test_wr_u16 :
    got (exec (.wrU16 266) State.reset) (fun t => t.eout) = some [0x0A, 0x01] ∧
    got (exec (.wrU16 0xFFFE) State.reset) (fun t => t.eout) = some [0xFE, 0xFF] ∧
    got (exec (.wrU16 0x10000) State.reset) seenFault = some (7, 6, 0x52) := by decide

theorem test_bw_put :
    got (exec (.bwPut 5 3) State.reset) (fun t => (t.pbuf, t.acc, t.nacc)) = some ([], 5, 3) ∧
    got (exec (.bwPut 0x1FF 9) { State.reset with acc := 5, nacc := 3 })
      (fun t => (t.pbuf, t.acc, t.nacc)) = some ([0xFD], 0b1111, 4) := by decide

theorem test_bw_put_faults :
    got (exec (.bwPut 4 2) State.reset) seenFault = some (7, 6, 0x53) ∧
    got (exec (.bwPut 4 17) State.reset) seenFault = some (7, 6, 0x53) := by decide

theorem test_bw_flush :
    got (exec .bwFlush { State.reset with pbuf := [0xFD], acc := 0x1F, nacc := 5 })
      (fun t => (t.pbuf, t.acc, t.nacc)) = some ([0xFD, 0x1F], 0, 0) := by decide

theorem test_wr_subblocks :
    got (exec .wrSubblocks { State.reset with pbuf := [0xFD, 0x1F] }) (fun t => (t.eout, t.pbuf)) =
      some ([0x02, 0xFD, 0x1F, 0x00], []) ∧
    got (exec .wrSubblocks State.reset) (fun t => t.eout) = some [0x00] ∧
    got (exec .wrSubblocks { State.reset with acc := 1, nacc := 1, eout := [0xAA] })
      (fun t => t.eout) = some [0xAA, 0x01, 0x01, 0x00] := by decide

/-- W15: 256 bytes make a sub-block of 255, one of 1 and the terminator, 259 bytes. -/
theorem test_chunk_256 :
    ((subBlocks 256 (List.replicate 256 7)).length,
      (subBlocks 256 (List.replicate 256 7)).getD 0 0,
      (subBlocks 256 (List.replicate 256 7)).drop 256) = (259, 0xFF, [0x01, 7, 0x00]) := by
  decide +kernel

/-! ## The host's accesses (R26, R27) -/

/-- A write of `CMD` runs the command with the operand registers, its low 8 bits the opcode. -/
theorem test_step_runs_command :
    got (step { State.reset with arg0 := 2, pending := [.write 0x00 0x140 []] })
      (fun t => (t.mode, t.mcs, t.pending)) = some (.enc, 2, []) := by decide

theorem test_step_reads_register :
    got (step { encoding with pending := [.read 0x09] }) (fun t => t.seen) = some (.value 6) ∧
    got (step { encoding with pending := [.write 0x09 3 []] }) (fun t => t.next) = some 6 ∧
    got (step { encoding with pending := [.read 0x13] }) (fun t => t.seen) = some (.value 0) := by
  decide

/-- `PREV` reads with bit 12 set when a code is present (R15). -/
theorem test_code_register :
    State.readReg { decoding [] with prev := some 6 } 0x0A = 0x1006 ∧
    State.readReg (decoding []) 0x0A = 0 := by decide

/-- A placed instruction is the next one to run, from reset. -/
theorem test_fetch_placed_word :
    got (step (State.reset.withFetchWord 40 (0x30 + 2 * 2 ^ 8))) (fun t => (t.mode, t.next)) =
      some (.dec, 6) ∧
    got (step (State.reset.withFetchWord 16 258)) (fun t => (t.oidx, t.prev)) =
      some ([0, 0], some 258) := by decide

/-! ## Witnesses: states and operands that meet the hypotheses of each obligation -/

/-- A decode in progress: DV6 after its first code, with one dynamic entry. -/
def midDecode : State :=
  { decoding [0x71, 0x01] with next := 7, prev := some 1, dict := [(6, ⟨1, 1⟩)], bitpos := 3 }

/-- An encode in progress with one dynamic entry and a candidate. -/
def midEncode : State := { encoding with next := 7, cand := some 1, dict := [(6, ⟨1, 1⟩)] }

/-- `n` entries (0, 0) from code `lo` on. -/
def fill : Nat → Nat → Memory
  | _, 0 => []
  | lo, n + 1 => (lo, ⟨0, 0⟩) :: fill (lo + 1) n

theorem fill_read {lo n c : Nat} (h : lo ≤ c) (h' : c < lo + n) :
    (fill lo n).read c = some ⟨0, 0⟩ := by
  induction n generalizing lo with
  | zero => omega
  | succ n ih =>
    by_cases hc : lo = c
    · simp [fill, Memory.read, hc]
    · simp [fill, Memory.read, hc, ih (lo := lo + 1) (by omega) (by omega)]

theorem fill_wf {lo n : Nat} (h : lo + n ≤ 4096) : Memory.wfFrom lo (fill lo n) = true := by
  induction n generalizing lo with
  | zero => rfl
  | succ n ih =>
    simp only [fill, Memory.wfFrom, Config.dictMax, Bool.and_eq_true, decide_eq_true_eq]
    exact ⟨⟨le_rfl, by omega⟩, ih (by omega)⟩

/-- A decode in progress with a full dictionary. -/
def fullDecode : State :=
  { decoding [0x03, 0x00] with cw := 12, next := 4096, prev := some 3, dict := fill 6 4090 }

/-- A step before the cap: the next append fills the dictionary. -/
def almostFull : State :=
  { decoding [0x03, 0x00] with cw := 12, next := 4095, prev := some 3, dict := fill 6 4089 }

/-- A faulted block. -/
def faulted : State := State.reset.raise .invalidCode 7

theorem midDecode_inv : midDecode.Inv where
  dictWf := by decide
  payEmpty := rfl
  widths := by simp [State.Widths, midDecode, decoding, State.reset]
  causeIff := by decide
  finfoZero := fun _ => rfl
  byteCursor := fun _ => by simp [State.ilen, midDecode, decoding, State.reset]
  bitCursor := fun _ => by simp [State.clen, midDecode, decoding, State.reset]
  writer := fun _ => by decide
  codec := fun _ => ⟨by decide, by decide, fun c h1 h2 => by
    change 6 ≤ c at h1
    change c < 7 at h2
    obtain rfl : c = 6 := by omega
    exact ⟨⟨1, 1⟩, by decide⟩⟩
  decWidth := fun _ => .inl (by decide)
  prevCode := fun _ p hp => by
    cases hp
    exact .inl (by decide)
  noEndYet := fun _ => ⟨rfl, rfl⟩
  candCode := fun h => by cases h
  unique := fun h => by cases h

theorem midEncode_inv : midEncode.Inv where
  dictWf := by decide
  payEmpty := rfl
  widths := by simp [State.Widths, midEncode, encoding, State.reset]
  causeIff := by decide
  finfoZero := fun _ => rfl
  byteCursor := fun _ => by simp [State.ilen, midEncode, encoding, State.reset]
  bitCursor := fun _ => by simp [State.clen, midEncode, encoding, State.reset]
  writer := fun _ => by decide
  codec := fun _ => ⟨by decide, by decide, fun c h1 h2 => by
    change 6 ≤ c at h1
    change c < 7 at h2
    obtain rfl : c = 6 := by omega
    exact ⟨⟨1, 1⟩, by decide⟩⟩
  decWidth := fun h => by cases h
  prevCode := fun h => by cases h
  noEndYet := fun h => by cases h
  candCode := fun _ p hp => by
    cases hp
    exact .inl (by decide)
  unique := fun _ c d h1 h2 h3 h4 _ => by
    change 6 ≤ c at h1
    change c < 7 at h2
    change 6 ≤ d at h3
    change d < 7 at h4
    omega

theorem fullDecode_inv : fullDecode.Inv where
  dictWf := Memory.wfFrom_mono (Nat.zero_le 6) (fill_wf (by decide))
  payEmpty := rfl
  widths := by simp [State.Widths, fullDecode, decoding, State.reset]
  causeIff := by decide
  finfoZero := fun _ => rfl
  byteCursor := fun _ => by simp [State.ilen, fullDecode, decoding, State.reset]
  bitCursor := fun _ => by simp [State.clen, fullDecode, decoding, State.reset]
  writer := fun _ => Nat.one_pos
  codec := fun _ => ⟨by decide, by decide, fun c h1 h2 =>
    ⟨⟨0, 0⟩, fill_read h1 h2, by
      change 6 ≤ c at h1
      show 0 < c
      omega, by decide, by decide, by decide⟩⟩
  decWidth := fun _ => .inr rfl
  prevCode := fun _ p hp => by
    cases hp
    exact .inl (by decide)
  noEndYet := fun _ => ⟨rfl, rfl⟩
  candCode := fun h => by cases h
  unique := fun h => by cases h

/-! ### Reset, the order of checks, faults -/

theorem witness_unassignedOpcodes :
    (unassigned 0x56 = true ∧ State.reset.mode ≠ .fault) ∧
    (unassigned 0xFF = true ∧ faulted.mode = .fault) ∧ unassigned 0x55 = false := by decide

theorem witness_faultModeIgnores :
    (Instr.rdBytes 5).format = .cmd ∧ Instr.rdBytes 5 ≠ .reset ∧ faulted.mode = .fault := by
  decide

theorem witness_wrongMode :
    (opcodeOf .rdU8 = some 0x11 ∧ midDecode.mode ≠ .fault ∧ legalIn .rdU8 midDecode.mode = false) ∧
    (opcodeOf (.encPut 4) = some 0x41 ∧ legalIn (.encPut 4) State.reset.mode = false) ∧
    (opcodeOf .decRun = some 0x32 ∧ legalIn .decRun midEncode.mode = false) := by decide

/-- A block whose `POSW` is 1: a `data` operand of two bytes is too long (R39). -/
def tinyPosw : State := { State.reset with posw := 1 }

theorem witness_operandOutOfRange :
    State.reset.mode = .idle ∧ 255 < (256 : Word).toNat ∧ (0 : Word).toNat < 1 ∧
    16 < (17 : Word).toNat ∧ (1 ≤ (1 : Word).toNat ∧ 2 ^ (1 : Word).toNat ≤ (2 : Word).toNat) ∧
    (1 ≤ (16 : Word).toNat ∧ (16 : Word).toNat ≤ 16 ∧
      2 ^ (16 : Word).toNat ≤ (65536 : Word).toNat) ∧
    65535 < (65536 : Word).toNat ∧
    (tinyPosw.mode = .idle ∧ 2 ^ tinyPosw.posw ≤ ([0, 0] : List Byte).length) := by decide

theorem witness_codecOperand :
    (State.reset.mode = .idle ∧ (1 : Word).toNat < 2 ∧ 8 < (9 : Word).toNat) ∧
    (midEncode.mode = .enc ∧ midEncode.CodecRegs ∧ 2 ^ midEncode.mcs ≤ (4 : Word).toNat) := by
  decide

theorem witness_onlyReset :
    (∃ t, step { faulted with pending := [.write 0x00 0x01 []] } = .next t ∧ t.mode ≠ .fault) ∧
    (∃ t, step { faulted with pending := [.hardReset] } = .next t ∧ t.mode ≠ .fault) ∧
    (∃ t, step { faulted with pending := [.write 0x00 0x10 []] } = .next t ∧ t.mode = .fault) :=
  ⟨⟨_, rfl, by decide⟩, ⟨_, rfl, by decide⟩, ⟨_, rfl, rfl⟩⟩

theorem witness_modeWritten :
    ∃ t, exec .brRewind (withCbuf [1] 3) = .next t ∧ t.mode = .idle := ⟨_, rfl, rfl⟩

/-! ### Byte reader -/

theorem witness_rdOpen :
    tinyPosw.mode = .idle ∧ 2 ^ tinyPosw.posw ≤ ([0, 0] : List Byte).length ∧
    ([0] : List Byte).length < 2 ^ tinyPosw.posw := by decide

theorem witness_rdU8 :
    ((withInput [0x2C] 0).mode = .idle ∧
      (withInput [0x2C] 0).ibuf[(withInput [0x2C] 0).rpos]? = some 0x2C) ∧
    ((withInput [0x2C] 1).mode = .idle ∧ (withInput [0x2C] 1).ilen ≤ (withInput [0x2C] 1).rpos) := by
  decide

theorem witness_rdU16 :
    ((withInput [0x0A, 0x01] 0).mode = .idle ∧
      (withInput [0x0A, 0x01] 0).ibuf[(withInput [0x0A, 0x01] 0).rpos]? = some 0x0A ∧
      (withInput [0x0A, 0x01] 0).ibuf[(withInput [0x0A, 0x01] 0).rpos + 1]? = some 0x01) ∧
    ((withInput [0x0A] 0).mode = .idle ∧
      (withInput [0x0A] 0).ilen < (withInput [0x0A] 0).rpos + 2) := by decide

theorem witness_rdExpect :
    (withInput [0xFF] 0).mode = .idle ∧ 255 < (256 : Word).toNat ∧ (255 : Word).toNat ≤ 255 ∧
    (withInput [0xFF] 0).ibuf[(withInput [0xFF] 0).rpos]? = some 0xFF ∧
    (0xFF : Byte).toNat = (255 : Word).toNat ∧ (0xFF : Byte).toNat ≠ (254 : Word).toNat ∧
    (withInput [0xFF] 1).ilen ≤ (withInput [0xFF] 1).rpos := by decide

theorem witness_rdBytes :
    (withInput [1, 2, 3] 1).mode = .idle ∧
    (withInput [1, 2, 3] 1).rpos + (2 : Word).toNat ≤ (withInput [1, 2, 3] 1).ilen ∧
    (withInput [1, 2, 3] 1).ilen < (withInput [1, 2, 3] 1).rpos + (3 : Word).toNat := by decide

/-- No run starts in an empty rest of `IBUF`. -/
theorem no_run_in_nothing :
    ¬ ∃ blocks rest, LegalBlocks blocks ∧ ([] : List Byte) = runBytes blocks ++ rest := by
  rintro ⟨blocks, rest, -, h⟩
  have hl := congrArg List.length h
  simp [runBytes] at hl

theorem legalBlocks_single {p : List Byte} (h1 : 1 ≤ p.length) (h2 : p.length ≤ 255) :
    LegalBlocks [p] := fun b hb => by
  rw [List.mem_singleton.mp hb]
  exact ⟨h1, h2⟩

theorem witness_rdSubblocks :
    ((withInput [0x02, 0xAA, 0xBB, 0x00, 0x3B] 0).mode = .idle ∧ LegalBlocks [[0xAA, 0xBB]] ∧
      (withInput [0x02, 0xAA, 0xBB, 0x00, 0x3B] 0).ibuf.drop 0 =
        runBytes [[0xAA, 0xBB]] ++ [0x3B]) ∧
    (LegalBlocks [] ∧ (withInput [0x00] 0).ibuf.drop 0 = runBytes [] ++ []) ∧
    ((withInput [0x00] 1).mode = .idle ∧ ¬ ∃ blocks rest, LegalBlocks blocks ∧
      (withInput [0x00] 1).ibuf.drop 1 = runBytes blocks ++ rest) :=
  ⟨⟨rfl, legalBlocks_single (by decide) (by decide), by decide⟩,
    ⟨fun b hb => (by cases hb), rfl⟩, rfl, no_run_in_nothing⟩

theorem witness_rdImagedata :
    ((withInput [0x09, 0x01, 0xAA, 0x00] 0).mode = .idle ∧ LegalBlocks [[0xAA]] ∧
      (withInput [0x09, 0x01, 0xAA, 0x00] 0).ibuf.drop 0 = 0x09 :: runBytes [[0xAA]] ++ []) ∧
    ((withInput [0x09] 0).mode = .idle ∧ ¬ ∃ m blocks rest, LegalBlocks blocks ∧
      (withInput [0x09] 0).ibuf.drop 0 = m :: runBytes blocks ++ rest) ∧
    (∃ t, exec .rdU8 (withInput [0x09] 0) = .next t ∧ t.mode = .idle) := by
  refine ⟨⟨rfl, legalBlocks_single (by decide) (by decide), by decide⟩, ⟨rfl, ?_⟩, _, rfl, rfl⟩
  rintro ⟨m, blocks, rest, -, h⟩
  have hl := congrArg List.length h
  simp [withInput, runBytes] at hl

theorem witness_subblockTokens :
    State.reset.mode = .idle ∧ (1 ≤ ([7] : List Byte).length ∧ ([7] : List Byte).length ≤ 255) ∧
    1 ≤ (List.replicate 255 (7 : Byte)).length ∧ (List.replicate 255 (7 : Byte)).length ≤ 255 := by
  refine ⟨rfl, by decide, ?_⟩
  rw [List.length_replicate]
  decide

theorem witness_readerKeeps :
    readsInput .rdSubblocks = true ∧ (withInput [0x01, 0xAA, 0x00] 0).mode = .idle ∧
    (withInput [0x01, 0xAA, 0x00] 0).rpos ≤ (withInput [0x01, 0xAA, 0x00] 0).ilen ∧
    ∃ t, exec .rdSubblocks (withInput [0x01, 0xAA, 0x00] 0) = .next t ∧ t.mode ≠ .fault :=
  ⟨rfl, rfl, by decide, _, rfl, by decide⟩

/-! ### Bit reader -/

theorem witness_cbLoad :
    tinyPosw.mode = .idle ∧ 2 ^ tinyPosw.posw ≤ ([0, 0] : List Byte).length ∧
    ([0] : List Byte).length < 2 ^ tinyPosw.posw := by decide

theorem witness_brGet :
    (withCbuf [0xFD, 0x1F] 0).mode = .idle ∧ (0 : Word).toNat < 1 ∧ 16 < (17 : Word).toNat ∧
    (1 ≤ (16 : Word).toNat ∧ (16 : Word).toNat ≤ 16 ∧
      (withCbuf [0xFD, 0x1F] 0).bitpos + (16 : Word).toNat ≤ 8 * (withCbuf [0xFD, 0x1F] 0).clen) ∧
    (1 ≤ (1 : Word).toNat ∧ (1 : Word).toNat ≤ 16 ∧
      8 * (withCbuf [0xFD] 8).clen < (withCbuf [0xFD] 8).bitpos + (1 : Word).toNat) := by decide

theorem witness_consecutiveFields :
    (withCbuf [0xFD, 0x1F] 0).mode = .idle ∧ 1 ≤ 1 ∧ 1 ≤ 15 ∧ 1 + 15 ≤ 16 ∧
    (withCbuf [0xFD, 0x1F] 0).bitpos + 1 + 15 ≤ 8 * (withCbuf [0xFD, 0x1F] 0).clen := by decide

/-! ### Decoder -/

theorem witness_decStart :
    State.reset.mode = .idle ∧ ((1 : Word).toNat < 2 ∧ 8 < (9 : Word).toNat) ∧
    (2 ≤ (2 : Word).toNat ∧ (2 : Word).toNat ≤ 8) ∧ (2 ≤ (8 : Word).toNat ∧ (8 : Word).toNat ≤ 8) := by
  decide

/-- The least `NEXT` of R14, and a code for each condition of R86. -/
theorem witness_codeClasses :
    2 ^ 2 + 2 ≤ 6 ∧ (4 : Code).toNat = 2 ^ 2 ∧ (5 : Code).toNat = 2 ^ 2 + 1 ∧
    (3 : Code).toNat < 2 ^ 2 ∧ (2 ^ 2 + 2 ≤ (6 : Code).toNat ∧ (6 : Code).toNat < 7) ∧
    ((6 : Code).toNat = 6 ∧ (some 1 : Option Code) ≠ none) ∧ 6 < (7 : Code).toNat := by decide

theorem witness_exhaustion :
    (decoding []).mode = .dec ∧ (decoding []).CodecRegs ∧
    8 * (decoding []).clen < (decoding []).bitpos + (decoding []).cw := by decide

/-- The last code of the buffer, first a literal and then a control code. -/
theorem witness_decStepRuns :
    (midDecode.mode = .dec ∧ midDecode.CodecRegs ∧
      midDecode.bitpos + midDecode.cw ≤ 8 * midDecode.clen) ∧
    ((decoding [0x71]).mode = .dec ∧ (decoding [0x71]).CodecRegs ∧
      (decoding [0x71]).bitpos + (decoding [0x71]).cw ≤ 8 * (decoding [0x71]).clen ∧
      (1 : Code) = BitVec.ofNat 12 (field (decoding [0x71]).cbuf 0 3) ∧
      (1 : Code).toNat < (decoding [0x71]).clr) := by decide

theorem witness_controlCodes :
    midDecode.mode = .dec ∧ midDecode.CodecRegs ∧ (4 : Code).toNat = midDecode.clr ∧
    (5 : Code).toNat = midDecode.clr + 1 := by decide

theorem witness_dataCodes :
    midDecode.mode = .dec ∧ midDecode.CodecRegs ∧ (3 : Code).toNat < midDecode.clr ∧
    midDecode.clr + 2 ≤ (6 : Code).toNat ∧ (6 : Code).toNat < midDecode.next ∧
    midDecode.seq 6 = some [1, 1] := by decide

theorem witness_kwkwk :
    midDecode.mode = .dec ∧ midDecode.CodecRegs ∧ (7 : Code).toNat = midDecode.next ∧
    midDecode.prev = some 1 ∧ midDecode.seq 1 = some [1] := by decide

theorem witness_invalidCode :
    (midDecode.mode = .dec ∧ midDecode.CodecRegs ∧ midDecode.next < (8 : Code).toNat) ∧
    ((decoding []).mode = .dec ∧ (decoding []).CodecRegs ∧
      (6 : Code).toNat = (decoding []).next ∧ (decoding []).prev = none) ∧
    (fullDecode.mode = .dec ∧ fullDecode.next = 4096) := by decide

theorem witness_invalidCode_full : fullDecode.CodecRegs := by decide

theorem witness_append :
    (decoding []).prev = none ∧ 4096 ≤ fullDecode.next ∧
    (almostFull.prev = some 3 ∧ almostFull.next < 4096) ∧ (0 : Nat) ≠ almostFull.next := by decide

theorem witness_fullDictionary :
    fullDecode.Inv ∧ fullDecode.mode = .dec ∧ fullDecode.next = 4096 ∧
    (6 : Code).toNat ≠ fullDecode.clr ∧ (6 : Code).toNat ≠ fullDecode.eoiCode :=
  ⟨fullDecode_inv, rfl, rfl, by decide, by decide⟩

theorem witness_sequences :
    (3 : Code).toNat < midDecode.clr ∧
    (midDecode.DictOk ∧ midDecode.clr + 2 ≤ (6 : Code).toNat ∧ (6 : Code).toNat < midDecode.next) ∧
    (4 : Code).toNat = midDecode.clr ∧ (5 : Code).toNat = midDecode.eoiCode ∧
    (midDecode.clr + 2 ≤ midDecode.next ∧ midDecode.next ≤ (7 : Code).toNat) :=
  ⟨by decide, ⟨(midDecode_inv.codec (.inl rfl)).2.2, by decide, by decide⟩, by decide, by decide,
    by decide, by decide⟩

theorem witness_decRun :
    midDecode.mode = .dec ∧ midDecode.Inv ∧ midDecode.eoif = false ∧ midDecode.exhf = false ∧
    (∃ t, exec .decStep (decoding [0x71, 0x01]) = .next t ∧ t.mode = .dec) ∧
    (∃ t, exec .decStep (decoding []) = .next t ∧ t.mode ≠ .dec) ∧
    (∃ t, exec .decRun midDecode = .next t) :=
  ⟨rfl, midDecode_inv, rfl, rfl, ⟨_, rfl, by decide⟩, ⟨_, rfl, by decide⟩, ⟨_, rfl⟩⟩

theorem witness_decRunEnds : (decoding []).mode = .dec ∧ midDecode.mode = .dec := by decide

theorem witness_decoderKeeps :
    decodes .decStep = true ∧ ∃ t, exec .decStep midDecode = .next t ∧ t.mode ≠ .fault :=
  ⟨rfl, _, rfl, by decide⟩

theorem witness_codeWidth :
    (mayGrowWidth (.encPut 3) = true ∧ midEncode.Inv ∧
      ∃ t, exec (.encPut 3) midEncode = .next t ∧ t.mode ≠ .fault) ∧
    (mayGrowWidth (.literal 3) = true ∧ midDecode.Inv ∧
      ∃ t, exec (.literal 3) midDecode = .next t ∧ t.mode ≠ .fault ∧ t.cw = 4) ∧
    (∃ t, exec (.clear 4) midDecode = .next t) :=
  ⟨⟨rfl, midEncode_inv, _, rfl, by decide⟩, ⟨rfl, midDecode_inv, _, rfl, by decide⟩, _, rfl⟩

/-! ### Encoder -/

theorem witness_encStart :
    State.reset.mode = .idle ∧ ((1 : Word).toNat < 2 ∧ 8 < (9 : Word).toNat) ∧
    (2 ≤ (2 : Word).toNat ∧ (2 : Word).toNat ≤ 8) ∧ (2 ≤ (8 : Word).toNat ∧ (8 : Word).toNat ≤ 8) := by
  decide

/-- An encode with a full dictionary in which (1, 2) has no entry. -/
def fullEncode : State := { midEncode with cw := 12, next := 4096 }

theorem witness_encPut :
    (encoding.mode = .enc ∧ encoding.CodecRegs ∧ (3 : Word).toNat < 2 ^ encoding.mcs ∧
      encoding.cand = none) ∧
    (midEncode.mode = .enc ∧ midEncode.CodecRegs ∧ midEncode.cand = some 1 ∧
      midEncode.lookup 1 1 = some 6 ∧ midEncode.lookup 1 3 = none ∧ midEncode.next < 4096) ∧
    (fullEncode.mode = .enc ∧ fullEncode.CodecRegs ∧ fullEncode.cand = some 1 ∧
      fullEncode.lookup 1 3 = none ∧ 4096 ≤ fullEncode.next) := by decide

theorem witness_lookup :
    midEncode.dict.wf = true ∧ midEncode.lookup 1 1 = some 6 ∧ midEncode.lookup 1 3 = none ∧
    midEncode.DictUnique ∧ (midEncode.clr + 2 ≤ (6 : Code).toNat ∧
      (6 : Code).toNat < midEncode.next ∧ midEncode.dict.read 6 = some ⟨1, 1⟩) :=
  ⟨by decide, by decide, by decide, midEncode_inv.unique rfl, by decide⟩

theorem witness_encEnd :
    (encoding.mode = .enc ∧ encoding.CodecRegs ∧ encoding.cand = none) ∧
    (midEncode.mode = .enc ∧ midEncode.CodecRegs ∧ midEncode.cand = some 1) := by decide

theorem witness_encoderCodesFit :
    midEncode.Inv ∧ midEncode.mode = .enc ∧ midEncode.cand = some 1 := ⟨midEncode_inv, rfl, rfl⟩

/-! ### Writer -/

theorem witness_writerBytes :
    State.reset.mode = .idle ∧ (255 : Word).toNat ≤ 255 ∧ 255 < (256 : Word).toNat ∧
    (65535 : Word).toNat ≤ 65535 ∧ 65535 < (65536 : Word).toNat := by decide

/-- A writer whose partial byte is full but for one bit. -/
def sevenBits : State := { State.reset with acc := 0x7F, nacc := 7, pbuf := [0xAA] }

theorem witness_bwPut :
    (sevenBits.mode = .idle ∧ sevenBits.nacc < 8 ∧ sevenBits.acc.toNat < 2 ^ sevenBits.nacc) ∧
    (1 ≤ (1 : Word).toNat ∧ (1 : Word).toNat < 2 ^ (1 : Word).toNat) ∧
    ((16 : Word).toNat ≤ 16 ∧ (65535 : Word).toNat < 2 ^ (16 : Word).toNat) ∧
    ((0 : Word).toNat < 1 ∧ 16 < (17 : Word).toNat) ∧
    (1 ≤ (1 : Word).toNat ∧ (1 : Word).toNat ≤ 16 ∧ 2 ^ (1 : Word).toNat ≤ (2 : Word).toNat) := by
  decide

theorem witness_bwFlush :
    (sevenBits.mode = .idle ∧ 0 < sevenBits.nacc) ∧
    (State.reset.mode = .idle ∧ State.reset.nacc = 0) := by decide

theorem witness_wrSubblocks :
    (sevenBits.mode = .idle ∧
      [0xAA, 0x7F] = sevenBits.pbuf ++ (if 0 < sevenBits.nacc then [sevenBits.acc] else [])) ∧
    (State.reset.mode = .idle ∧
      [] = State.reset.pbuf ++ (if 0 < State.reset.nacc then [State.reset.acc] else [])) := by
  decide

theorem witness_framing :
    State.reset.mode = .idle ∧ State.reset.nacc = 0 ∧ tinyPosw.mode = .idle ∧
    ([0] : List Byte).length < 2 ^ tinyPosw.posw := by decide

/-! ### The machine as a whole -/

theorem witness_buffers :
    ∃ t, exec (.wrU8 7) State.reset = .next t ∧ t.mode ≠ .fault ∧ Instr.wrU8 7 ≠ .reset :=
  ⟨_, rfl, by decide, by decide⟩

theorem witness_everyStep :
    (midDecode.Inv ∧ ∃ t, step midDecode = .next t) ∧ (midEncode.Inv ∧ ∃ t, step midEncode = .next t) :=
  ⟨⟨midDecode_inv, _, rfl⟩, midEncode_inv, _, rfl⟩

/-- The invariant does not depend on the host's accesses, so a command can follow. -/
theorem witness_noStepStops : midDecode.Inv ∧ fullDecode.Inv ∧ midEncode.Inv :=
  ⟨midDecode_inv, fullDecode_inv, midEncode_inv⟩

theorem witness_stepRuns :
    (State.pending { State.reset with pending := [.write 0x00 0x10 [1]] } =
        .write 0x00 0x10 [1] :: [] ∧ State.reset.mode ≠ .fault) ∧
      (State.pending { faulted with pending := [.write 0x00 0x10 [1]] } =
        .write 0x00 0x10 [1] :: [] ∧ faulted.mode = .fault) := by decide

theorem witness_hostAccesses :
    State.reset.pending = [] ∧ State.reset.mode ≠ .fault ∧
    State.pending { State.reset with pending := [.read 0x12] } = .read 0x12 :: [] ∧
    State.pending { State.reset with pending := [.readOidx] } = .readOidx :: [] ∧
    State.pending { State.reset with pending := [.readEout] } = .readEout :: [] ∧
    State.pending { State.reset with pending := [.write 0x01 5 []] } = .write 0x01 5 [] :: [] ∧
    State.pending { State.reset with pending := [.write 0x02 5 []] } = .write 0x02 5 [] :: [] ∧
    (State.pending { State.reset with pending := [.write 0x03 5 []] } = .write 0x03 5 [] :: [] ∧
      0x02 < (0x03 : Byte).toNat) ∧ 0x13 ≤ (0x13 : Byte).toNat := by decide

theorem witness_status :
    State.pending { State.reset with pending := [.write 0x03 5 []] } = .write 0x03 5 [] :: [] := rfl

theorem witness_registerNumbers :
    (tinyPosw.ilen < 2 ^ tinyPosw.posw ∧ tinyPosw.clen < 2 ^ tinyPosw.posw ∧
      tinyPosw.oidx.length < 2 ^ tinyPosw.posw ∧ tinyPosw.pbuf.length < 2 ^ tinyPosw.posw ∧
      tinyPosw.eout.length < 2 ^ tinyPosw.posw) ∧
    tinyPosw.prev = none ∧ tinyPosw.cand = none ∧
    (midDecode.ilen < 2 ^ midDecode.posw ∧ midDecode.prev = some 1) ∧
    (midEncode.ilen < 2 ^ midEncode.posw ∧ midEncode.cand = some 1) := by decide

theorem witness_instances :
    (0 : Nat) ≠ 1 ∧ (∃ q, stepInstance 0 [midDecode, midEncode] = .next q ∧
      ∃ r, stepInstance 1 q = .next r) := ⟨by decide, _, rfl, _, rfl⟩

theorem witness_decodeDepends :
    (withCbuf [0x71, 0x01] 0).mode = .idle ∧ (withCbuf [0x71, 0x01] 5).mode = .idle ∧
    (withCbuf [0x71, 0x01] 0).cbuf = (withCbuf [0x71, 0x01] 5).cbuf := by decide

theorem witness_encodeDepends :
    2 ≤ (2 : Word).toNat ∧ (2 : Word).toNat ≤ 8 ∧
    (∀ y ∈ ([3, 0] : List Byte), y.toNat < 2 ^ (2 : Word).toNat) ∧ State.reset.mode = .idle ∧
    sevenBits.mode = .idle ∧ State.reset.dict.wf = true ∧ sevenBits.dict.wf = true := by decide

theorem witness_decodeInvertsEncode :
    (2 ≤ (8 : Word).toNat ∧ (8 : Word).toNat ≤ 8 ∧
      ∀ y ∈ ([255, 0, 255] : List Byte), y.toNat < 2 ^ (8 : Word).toNat) ∧
    State.reset.mode = .idle ∧ State.reset.dict.wf = true ∧
    ([0x01, 0x2C, 0x00] : List Byte).length < 2 ^ State.reset.posw := by decide

theorem witness_decodingInvertsEncoding :
    ((Instr.bwPut 4 17).wellFormed = true ∧ encode (.bwPut 4 17) = .command ⟨0x53, 4, 17, []⟩) ∧
    ((Instr.sbData 1 [0xCC]).wellFormed = true ∧ encode (.sbData 1 [0xCC]) = .token [1, 0xCC]) ∧
    (encode (.kwkwk 7) = .code 7 ∧ decodeCode ⟨2, 7, some 1⟩ 7 = .kwkwk 7 ∧
      (7 : Code).toNat < 2 ^ 3 ∧ 3 ≤ 12 ∧ sevenBits.nacc < 8 ∧
      sevenBits.acc.toNat < 2 ^ sevenBits.nacc) := by decide

end Sys2Proof.Tests
end

section
/-! SUPPORT. Results whose next states satisfy a predicate: one rule per guard of a command. -/

namespace Sys2Proof.Machine

/-- Every next state the result answers satisfies `P`. -/
def Yields (P : State → Prop) (r : Result) : Prop := ∀ t, r = .next t → P t

theorem yields_next {P : State → Prop} {t : State} (h : P t) : Yields P (.next t) :=
  fun _ e => Host.Outcome.next.inj e ▸ h

theorem yields_fault {P : State → Prop} {f : Fault} : Yields P (.fault f) := nofun

theorem yields_refused {P : State → Prop} {f : Refusal} : Yields P (.refused f) := nofun

/-- A guarded command (R224): ignored, `IllegalCommand`, or its body in the mode it needs. -/
theorem yields_inMode {P : State → Prop} {need : Mode} {op : Byte} {s : State} {k : Result}
    (hs : P s) (hr : P (s.raise .illegalCommand op.toNat)) (hk : s.mode = need → Yields P k) :
    Yields P (inMode need op s k) := by
  rcases inMode_cases (need := need) (op := op) (s := s) (k := k) with
    ⟨-, h⟩ | ⟨-, hm, h⟩ | ⟨-, -, h⟩ <;> rw [h]
  · exact yields_next hs
  · exact hk hm
  · exact yields_next hr

/-- A checked operand (R224): the fault, or the rest of the body. -/
theorem yields_checked {P : State → Prop} {ok : Prop} [Decidable ok] {c : Cause} {info : Nat}
    {s : State} {k : Result} (hr : P (s.raise c info)) (hk : ok → Yields P k) :
    Yields P (checked ok c info s k) := by
  by_cases h : ok
  · rw [checked_ok h]
    exact hk h
  · rw [checked_bad h]
    exact yields_next hr

theorem yields_codecOk {P : State → Prop} {s : State} {k : Result}
    (hk : s.CodecRegs → Yields P k) : Yields P (codecOk s k) :=
  fun t h => hk (codecOk_next h).1 t (codecOk_next h).2

/-- A code's meaning (R86): its body in `DEC` mode, where the code has the class. -/
theorem yields_asClass {P : State → Prop} {want : CodeClass} {c : Code} {s : State} {k : Result}
    (hk : s.mode = .dec → s.CodecRegs → classify s.codeContext c = want → Yields P k) :
    Yields P (asClass want c s k) := by
  rcases asClass_cases (want := want) (c := c) (s := s) (k := k) with ⟨hm, hr, hc, h⟩ | h
  · rw [h]
    exact hk hm hr hc
  · exact fun t ht => absurd ht (h t)

end Sys2Proof.Machine
end

section
/-! SUPPORT. The invariant (R11 to R25, R30, R37) cut into the parts the operations speak of, and
what raising a fault, a reset, the host and a command in `IDLE` mode owe to it. -/

namespace Sys2Proof.Machine

/-! ## The parts of the invariant -/

/-- R18: the byte cursor stays within `IBUF`, whose length fits its register. -/
def State.ByteCursorOk (s : State) : Prop := s.rpos ≤ s.ilen ∧ s.ilen < 2 ^ s.posw

/-- R19: the bit cursor stays within `CBUF`, whose length fits its register. -/
def State.BitCursorOk (s : State) : Prop := s.bitpos ≤ 8 * s.clen ∧ s.clen < 2 ^ s.posw

/-- The clauses outside `FAULT` mode that concern neither the codec's registers nor the
dictionary. -/
structure State.IoInv (s : State) : Prop where
  payEmpty : s.pay = []
  noCause : s.cause = .none
  finfoZero : s.finfo = 0
  byteCursor : s.ByteCursorOk
  bitCursor : s.BitCursorOk
  writer : s.PartialOk

/-- The clauses on the dictionary and the codec's registers that hold in every mode. -/
def State.TableInv (s : State) : Prop :=
  s.dict.wf = true ∧ s.mcs < 2 ^ 4 ∧ s.cw < 2 ^ 4 ∧ s.next < 2 ^ 13

/-- The clauses while a decode or an encode is in progress: R12 to R14, R30 (a) to (d). -/
structure State.CodecInv (s : State) : Prop where
  wf : s.dict.wf = true
  regs : s.CodecRegs
  size : s.next ≤ 2 ^ s.cw
  dictOk : s.DictOk

/-- The clauses while a decode is in progress: R15, R22, R158. -/
structure State.DecInv (s : State) : Prop extends s.CodecInv where
  width : s.next < 2 ^ s.cw ∨ s.cw = 12
  prevCode : ∀ p, s.prev = some p → s.IsSeqCode p
  noEndYet : s.eoif = false ∧ s.exhf = false

/-- The clauses while an encode is in progress: R16, R30 (e). -/
structure State.EncInv (s : State) : Prop extends s.CodecInv where
  candCode : ∀ p, s.cand = some p → s.IsSeqCode p
  unique : s.DictUnique

/-! ## The invariant from its parts, and its parts from the invariant -/

theorem State.CodecInv.tableInv {s : State} (h : s.CodecInv) : s.TableInv := by
  obtain ⟨-, hm, -, hc, -, hn⟩ := h.regs
  dsimp only [Config.mcsMax, Config.cwMax, Config.dictMax] at hm hc hn
  exact ⟨h.wf, by omega, by omega, by omega⟩

theorem State.CodecInv.cw_le {s : State} (h : s.CodecInv) : s.cw ≤ 12 := by
  obtain ⟨-, -, -, hcw, -, -⟩ := h.regs
  exact hcw

theorem State.CodecInv.clr_le_next {s : State} (h : s.CodecInv) : s.clr + 2 ≤ s.next := by
  obtain ⟨-, -, -, -, hnext, -⟩ := h.regs
  exact hnext

theorem State.Inv.partialOk {s : State} (h : s.Inv) (hm : s.mode ≠ .fault) : s.PartialOk := by
  obtain ⟨-, -, -, hnacc, -, -⟩ := h.widths
  exact ⟨hnacc, h.writer hm⟩

theorem State.Inv.ioInv {s : State} (h : s.Inv) (hm : s.mode ≠ .fault) : s.IoInv where
  payEmpty := h.payEmpty
  noCause := not_not.mp fun hc => hm (h.causeIff.mpr hc)
  finfoZero := h.finfoZero hm
  byteCursor := h.byteCursor hm
  bitCursor := h.bitCursor hm
  writer := h.partialOk hm

theorem State.Inv.tableInv {s : State} (h : s.Inv) : s.TableInv := by
  obtain ⟨hm, hc, hn, -⟩ := h.widths
  exact ⟨h.dictWf, hm, hc, hn⟩

theorem State.Inv.codecInv {s : State} (h : s.Inv) (hm : s.mode = .dec ∨ s.mode = .enc) :
    s.CodecInv := by
  obtain ⟨hr, hs, hd⟩ := h.codec hm
  exact ⟨h.dictWf, hr, hs, hd⟩

theorem State.Inv.decInv {s : State} (h : s.Inv) (hm : s.mode = .dec) : s.DecInv :=
  ⟨h.codecInv (.inl hm), h.decWidth hm, h.prevCode hm, h.noEndYet hm⟩

theorem State.Inv.encInv {s : State} (h : s.Inv) (hm : s.mode = .enc) : s.EncInv :=
  ⟨h.codecInv (.inr hm), h.candCode hm, h.unique hm⟩

/-- Outside `FAULT` mode the invariant is the three parts, the codec's clauses in its own mode. -/
theorem inv_of_parts {s : State} (hf : s.mode ≠ .fault) (hio : s.IoInv) (ht : s.TableInv)
    (hd : s.mode = .dec → s.DecInv) (he : s.mode = .enc → s.EncInv) : s.Inv where
  dictWf := ht.1
  payEmpty := hio.payEmpty
  widths := by
    obtain ⟨-, hm, hc, hn⟩ := ht
    obtain ⟨hr, hi⟩ := hio.byteCursor
    obtain ⟨hb, hl⟩ := hio.bitCursor
    exact ⟨hm, hc, hn, hio.writer.1, by omega, by rw [pow_add]; omega⟩
  causeIff := ⟨fun h => absurd h hf, fun h => absurd hio.noCause h⟩
  finfoZero _ := hio.finfoZero
  byteCursor _ := hio.byteCursor
  bitCursor _ := hio.bitCursor
  writer _ := hio.writer.2
  codec hm := by
    have h : s.CodecInv := hm.elim (fun h => (hd h).toCodecInv) fun h => (he h).toCodecInv
    exact ⟨h.regs, h.size, h.dictOk⟩
  decWidth hm := (hd hm).width
  prevCode hm := (hd hm).prevCode
  noEndYet hm := (hd hm).noEndYet
  candCode hm := (he hm).candCode
  unique hm := (he hm).unique

theorem inv_of_idle {s : State} (hm : s.mode = .idle) (hio : s.IoInv) (ht : s.TableInv) : s.Inv :=
  inv_of_parts (by simp [hm]) hio ht (by simp [hm]) (by simp [hm])

theorem inv_of_dec {s : State} (hm : s.mode = .dec) (hio : s.IoInv) (hd : s.DecInv) : s.Inv :=
  inv_of_parts (by simp [hm]) hio hd.toCodecInv.tableInv (fun _ => hd) (by simp [hm])

theorem inv_of_enc {s : State} (hm : s.mode = .enc) (hio : s.IoInv) (he : s.EncInv) : s.Inv :=
  inv_of_parts (by simp [hm]) hio he.toCodecInv.tableInv (by simp [hm]) (fun _ => he)

/-! ## Faults, resets and the host's side -/

/-- Raising a fault leads to the invariant from every state: what R40 leaves free stays within its
register's width. -/
theorem raise_inv (s : State) {c : Cause} (hc : c ≠ .none) (info : Nat) : (s.raise c info).Inv where
  dictWf := rfl
  payEmpty := rfl
  widths := by
    refine ⟨?_, ?_, ?_, ?_, ?_, ?_⟩ <;> exact Nat.mod_lt _ (by positivity)
  causeIff := ⟨fun _ => hc, fun _ => rfl⟩
  finfoZero h := absurd rfl h
  byteCursor h := absurd rfl h
  bitCursor h := absurd rfl h
  writer h := absurd rfl h
  codec h := by simp at h
  decWidth h := by simp at h
  prevCode h := by simp at h
  noEndYet h := by simp at h
  candCode h := by simp at h
  unique h := by simp at h

theorem underrun_inv (s : State) : s.underrun.Inv := raise_inv s (by decide) _

/-- A reset leads to the invariant from every state. -/
theorem resetBlock_inv (s : State) : s.resetBlock.Inv :=
  inv_of_idle rfl
    ⟨rfl, rfl, rfl, ⟨Nat.le_refl 0, by simp⟩, ⟨Nat.zero_le _, by simp⟩, by simp, by simp⟩
    ⟨rfl, by simp⟩

theorem reset_inv : State.reset.Inv := resetBlock_inv State.reset

/-- The registers the host writes, and the host's side, are no part of the invariant. -/
theorem State.Inv.of_hostSide {s t : State} (h : s.Inv)
    (ht : t = { s with
      cmd := t.cmd, arg0 := t.arg0, arg1 := t.arg1, draws := t.draws, pending := t.pending,
      seen := t.seen }) : t.Inv := by
  rw [ht]
  exact ⟨h.dictWf, h.payEmpty, h.widths, h.causeIff, h.finfoZero, h.byteCursor, h.bitCursor,
    h.writer, h.codec, h.decWidth, h.prevCode, h.noEndYet, h.candCode, h.unique⟩

/-- The codec's registers, the dictionary and the output are no part of the cursors' clauses. -/
theorem State.IoInv.of_frame {s t : State} (h : s.IoInv)
    (ht : t = { s with
      mode := t.mode, mcs := t.mcs, cw := t.cw, next := t.next, prev := t.prev, cand := t.cand,
      result := t.result, eoif := t.eoif, exhf := t.exhf, dict := t.dict, oidx := t.oidx,
      pbuf := t.pbuf, eout := t.eout }) : t.IoInv := by
  rw [ht]
  exact ⟨h.payEmpty, h.noCause, h.finfoZero, h.byteCursor, h.bitCursor, h.writer⟩

/-! ## Commands that stay in `IDLE` mode -/

/-- A command that stays in `IDLE` mode owes the cursors and the partial byte. -/
theorem State.Inv.of_idle_frame {s t : State} (h : s.Inv) (hm : s.mode = .idle)
    (ht : t = { s with
      rpos := t.rpos, bitpos := t.bitpos, acc := t.acc, nacc := t.nacc, result := t.result,
      exhf := t.exhf, ibuf := t.ibuf, cbuf := t.cbuf, pbuf := t.pbuf, eout := t.eout })
    (hbyte : t.ByteCursorOk) (hbit : t.BitCursorOk) (hw : t.PartialOk) : t.Inv := by
  have hio := h.ioInv (by simp [hm])
  have htab := h.tableInv
  refine inv_of_idle (by rw [ht]; exact hm) ⟨?_, ?_, ?_, hbyte, hbit, hw⟩ (by rw [ht]; exact htab)
  · rw [ht]; exact hio.payEmpty
  · rw [ht]; exact hio.noCause
  · rw [ht]; exact hio.finfoZero

end Sys2Proof.Machine
end

section
/-! SUPPORT. The dictionary under the invariant: a fresh one, an insertion (R28, R30), `Lookup`
(R31). -/

namespace Sys2Proof.Machine

/-- A fresh dictionary: `CLR + 2` codes, none of them dynamic, at the width `MCS + 1`. -/
theorem codecInv_fresh {s : State} (hw : s.dict.wf = true) (h2 : 2 ≤ s.mcs) (h8 : s.mcs ≤ 8)
    (hc : s.cw = s.mcs + 1) (hn : s.next = s.clr + 2) : s.CodecInv ∧ s.next < 2 ^ s.cw := by
  have hlo : 2 ^ 2 ≤ s.clr := Nat.pow_le_pow_right (by decide) h2
  have hhi : s.clr ≤ 2 ^ 8 := Nat.pow_le_pow_right (by decide) h8
  have hcw : 2 ^ s.cw = 2 * s.clr := by rw [hc, pow_succ, Nat.mul_comm]; rfl
  have hlt : s.next < 2 ^ s.cw := by omega
  refine ⟨⟨hw, ⟨h2, h8, ?_, ?_, ?_, ?_⟩, hlt.le, fun c h1 h3 => absurd h3 (by omega)⟩, hlt⟩
  · omega
  · dsimp only [Config.cwMax]; omega
  · omega
  · dsimp only [Config.dictMax]; omega

/-- A code that has a sequence is below `NEXT` and no control code. -/
theorem State.IsSeqCode.not_control {s : State} {p : Code} (h : s.IsSeqCode p)
    (hn : s.clr + 2 ≤ s.next) :
    p.toNat < s.next ∧ p.toNat ≠ s.clr ∧ p.toNat ≠ s.eoiCode := by
  unfold State.IsSeqCode at h
  unfold State.eoiCode
  omega

/-- R30 (a) is kept by an insertion at `NEXT`. -/
theorem State.DictOk.insert {s : State} {p : Code} {y : Byte} (h : s.DictOk)
    (hn : s.clr + 2 ≤ s.next) (hp : s.IsSeqCode p) (hy : y.toNat < s.clr) :
    (s.insert p y).DictOk := by
  intro c h1 h2
  rw [insert_dict, Memory.read_write]
  split
  · subst c
    obtain ⟨hlt, hclr, heoi⟩ := hp.not_control hn
    exact ⟨_, rfl, hlt, hclr, heoi, hy⟩
  · rw [insert_next] at h2
    exact h c h1 (by omega)

/-- R30 (e) is kept by the insertion of a pair that no dynamic entry holds. -/
theorem State.DictUnique.insert {s : State} {p : Code} {y : Byte} (h : s.DictUnique)
    (hnew : ∀ c, s.clr + 2 ≤ c → c < s.next → s.dict.read c ≠ some ⟨p, y⟩) :
    (s.insert p y).DictUnique := by
  intro c d hc hc' hd hd' he
  rw [insert_clr] at hc hd
  rw [insert_next] at hc' hd'
  rw [insert_dict, Memory.read_write, Memory.read_write] at he
  split at he <;> split at he
  · omega
  · exact absurd he.symm (hnew d hd (by omega))
  · exact absurd he (hnew c hc (by omega))
  · exact h c d hc (by omega) hd (by omega) he

/-- An insertion below 4096, with the width `w` after it, keeps the codec's clauses. -/
theorem State.CodecInv.insert {s : State} {p : Code} {y : Byte} {w : Nat} (h : s.CodecInv)
    (hn : s.next < 4096) (hp : s.IsSeqCode p) (hy : y.toNat < s.clr) (hlo : s.cw ≤ w)
    (hhi : w ≤ 12) (hsize : s.next + 1 ≤ 2 ^ w) : ({ s.insert p y with cw := w }).CodecInv := by
  obtain ⟨h2, h8, hcw, -, hnext, -⟩ := h.regs
  exact ⟨Memory.wf_write _ h.wf hn, ⟨h2, h8, hcw.trans hlo, hhi, Nat.le_succ_of_le hnext, hn⟩,
    hsize, h.dictOk.insert hnext hp hy⟩

/-- A code that has a sequence keeps having one while the dictionary grows. -/
theorem State.IsSeqCode.mono {s t : State} {c : Code} (h : s.IsSeqCode c) (hm : t.mcs = s.mcs)
    (hn : s.next ≤ t.next) : t.IsSeqCode c := by
  unfold State.IsSeqCode State.clr at *
  rw [hm]
  omega

/-! ## `Lookup` (R31) -/

/-- A canonical memory lists codes below 4096 only. -/
theorem Memory.lt_of_mem {m : Memory} {lo k : Nat} {e : DictEntry}
    (hm : Memory.wfFrom lo m = true) (h : (k, e) ∈ m) : k < 4096 := by
  induction m generalizing lo with
  | nil => cases h
  | cons p m ih =>
    obtain ⟨j, d⟩ := p
    simp only [Memory.wfFrom, Bool.and_eq_true, decide_eq_true_eq] at hm
    rcases List.mem_cons.mp h with h | h
    · cases h
      exact hm.1.2
    · exact ih hm.2 h

/-- What `Lookup` finds is a dynamic code whose entry is the pair. -/
theorem lookup_some {s : State} {p c : Code} {y : Byte} (hw : s.dict.wf = true)
    (h : s.lookup p y = some c) :
    s.clr + 2 ≤ c.toNat ∧ c.toNat < s.next ∧ s.dict.read c.toNat = some ⟨p, y⟩ := by
  obtain ⟨k, h1, h2, hmem, rfl⟩ := lookupIn_some h
  rw [BitVec.toNat_ofNat, Nat.mod_eq_of_lt (Memory.lt_of_mem hw hmem)]
  exact ⟨h1, h2, Memory.read_of_mem hw hmem⟩

/-- Where `Lookup` finds none, no dynamic entry is the pair. -/
theorem lookup_none {s : State} {p : Code} {y : Byte} (h : s.lookup p y = none) (c : Nat)
    (h1 : s.clr + 2 ≤ c) (h2 : c < s.next) : s.dict.read c ≠ some ⟨p, y⟩ :=
  fun hr => lookupIn_none h h1 h2 (Memory.mem_of_read hr)

/-- Under R30 (e) `Lookup` finds the one dynamic code whose entry is the pair. -/
theorem lookup_eq_of_read {s : State} {p c : Code} {y : Byte} (hw : s.dict.wf = true)
    (hu : s.DictUnique) (h1 : s.clr + 2 ≤ c.toNat) (h2 : c.toNat < s.next)
    (hr : s.dict.read c.toNat = some ⟨p, y⟩) : s.lookup p y = some c := by
  cases hl : s.lookup p y with
  | none => exact absurd hr (lookup_none hl _ h1 h2)
  | some d =>
    obtain ⟨hd1, hd2, hd⟩ := lookup_some hw hl
    rw [BitVec.eq_of_toNat_eq (hu _ _ hd1 hd2 h1 h2 (hd.trans hr.symm))]

end Sys2Proof.Machine
end

section
/-! SUPPORT. The decoder keeps the invariant (R150 to R160). -/

namespace Sys2Proof.Machine

/-- A code's effect leaves the cursors and the writer alone. -/
theorem State.IoInv.of_codeEffect {s t : State} (h : s.IoInv) (he : CodeEffect s t) : t.IoInv :=
  h.of_frame (by rw [he.frame])

/-- `Append` of a symbol below `CLR` keeps the decoder's clauses (R158). -/
theorem State.DecInv.append {s : State} (h : s.DecInv) {f : Byte} (hf : f.toNat < s.clr) :
    (append f s).DecInv := by
  have hp := h.prevCode
  have hcw := h.cw_le
  have hwidth := h.width
  rcases append_cases f s with ⟨-, e⟩ | ⟨p, -, -, e⟩ | ⟨p, hprev, hn, hreach, hlt, e⟩ |
    ⟨p, hprev, hn, hno, e⟩
  · rwa [e]
  · rwa [e]
  · have hgrow : s.next + 1 < 2 ^ (s.cw + 1) := by rw [pow_succ]; omega
    rw [e]
    exact ⟨h.toCodecInv.insert hn (hp p hprev) hf (by omega) hlt hgrow.le, .inl hgrow,
      fun q hq => (hp q hq).mono rfl (Nat.le_succ _), h.noEndYet⟩
  · have hsize : s.next + 1 < 2 ^ s.cw ∨ s.cw = 12 := by omega
    have hle : s.next + 1 ≤ 2 ^ s.cw := hsize.elim (fun h => h.le) fun h => by rw [h]; omega
    rw [e]
    exact ⟨h.toCodecInv.insert hn (hp p hprev) hf le_rfl hcw hle, hsize,
      fun q hq => (hp q hq).mono rfl (Nat.le_succ _), h.noEndYet⟩

/-- The code `c` is one the decoder's tail may remember in `PREV`: it has a sequence, or `Append`
gives it one (R156). -/
def State.Emittable (s : State) (c : Code) : Prop :=
  s.IsSeqCode c ∨ (c.toNat = s.next ∧ s.prev.isSome)

theorem le_append_next (f : Byte) (s : State) : s.next ≤ (append f s).next := by
  rcases append_cases f s with ⟨-, e⟩ | ⟨_, -, -, e⟩ | ⟨_, -, -, -, -, e⟩ | ⟨_, -, -, -, e⟩ <;>
    rw [e]
  · exact Nat.le_succ _
  · exact Nat.le_succ _

/-- With a previous code and room in the dictionary `Append` adds an entry (R158). -/
theorem append_next {s : State} (hp : s.prev.isSome) (hn : s.next < 4096) (f : Byte) :
    (append f s).next = s.next + 1 := by
  rcases append_cases f s with ⟨hnone, -⟩ | ⟨_, -, hfull, -⟩ | ⟨_, -, -, -, -, e⟩ | ⟨_, -, -, -, e⟩
  · simp [hnone] at hp
  · omega
  · rw [e]; rfl
  · rw [e]; rfl

theorem State.Emittable.isSeqCode_append {s : State} {c : Code} (hc : s.Emittable c)
    (hn : s.clr + 2 ≤ s.next) (f : Byte) : (append f s).IsSeqCode c := by
  rcases hc with h | ⟨h, hp⟩
  · exact h.mono (append_mcs s f) (le_append_next f s)
  · have hnext := append_next hp (h ▸ c.isLt) f
    have hclr : (append f s).clr = s.clr := by rw [State.clr, append_mcs, State.clr]
    exact .inr ⟨by omega, by omega⟩

/-- The tail of a data code keeps the decoder's clauses (R151). -/
theorem emitSeq_decInv {s : State} {c : Code} {q : Option (List Byte)} (h : s.DecInv)
    (hc : s.Emittable c) (hq : ∀ f r, q = some (f :: r) → f.toNat < s.clr) :
    Yields State.DecInv (emitSeq c q s) := by
  intro t ht
  obtain ⟨-, -, -, f, r, rfl, -⟩ := emitSeq_effect ht
  cases ht
  have hu : ({ s with oidx := s.oidx ++ f :: r }).DecInv :=
    ⟨⟨h.wf, h.regs, h.size, h.dictOk⟩, h.width, h.prevCode, h.noEndYet⟩
  have hc' : ({ s with oidx := s.oidx ++ f :: r }).Emittable c := hc
  have ha := hu.append (hq f r rfl)
  refine ⟨⟨ha.wf, ha.regs, ha.size, ha.dictOk⟩, ha.width, fun p hp => ?_, ha.noEndYet⟩
  cases hp
  exact hc'.isSeqCode_append h.clr_le_next f

/-- The tail of a data code keeps the invariant. -/
theorem emitSeq_inv {s : State} {c : Code} {q : Option (List Byte)} (h : s.Inv)
    (hm : s.mode = .dec) (hc : s.Emittable c)
    (hq : ∀ f r, q = some (f :: r) → f.toNat < s.clr) : Yields State.Inv (emitSeq c q s) := by
  intro t ht
  obtain ⟨heff, hmode, -⟩ := emitSeq_effect ht
  exact inv_of_dec (hmode.trans hm) ((h.ioInv (by simp [hm])).of_codeEffect heff)
    (emitSeq_decInv (h.decInv hm) hc hq t ht)

/-- The condition R86 gives each class of a code. -/
def ClassCondition (x : CodeContext) (c : Code) : CodeClass → Prop
  | .clear => c.toNat = 2 ^ x.mcs
  | .eoi => c.toNat = 2 ^ x.mcs + 1
  | .literal => c.toNat < 2 ^ x.mcs
  | .dict => 2 ^ x.mcs + 2 ≤ c.toNat ∧ c.toNat < x.next
  | .kwkwk => 2 ^ x.mcs + 2 ≤ c.toNat ∧ c.toNat = x.next ∧ x.prev.isSome
  | .invalid => 2 ^ x.mcs + 2 ≤ c.toNat ∧ x.next ≤ c.toNat ∧ ¬ (c.toNat = x.next ∧ x.prev.isSome)

/-- A code meets the condition of its class. -/
theorem classCondition_classify (x : CodeContext) (c : Code) :
    ClassCondition x c (classify x c) := by
  unfold classify
  split_ifs with hclr heoi hlit hdict hkwkwk
  · exact hclr
  · exact heoi
  · exact hlit
  · exact ⟨by omega, hdict⟩
  · exact ⟨by omega, hkwkwk⟩
  · exact ⟨by omega, by omega, hkwkwk⟩

theorem classCondition_of_classify {x : CodeContext} {c : Code} {k : CodeClass}
    (h : classify x c = k) : ClassCondition x c k :=
  h ▸ classCondition_classify x c

/-- The first symbol of a code's sequence is below `CLR` (R163). -/
theorem first_lt_of_seq {s : State} (h : s.DictOk) {c : Code} (hc : s.IsSeqCode c) {f : Byte}
    {r : List Byte} (hq : s.seq c = some (f :: r)) : f.toNat < s.clr := by
  obtain ⟨g, q, hs, hlt⟩ := seq_of_isSeqCode h hc
  rw [hs] at hq
  cases hq
  exact hlt f List.mem_cons_self

/-- The first symbol of the sequence of R156 is the previous sequence's. -/
theorem first_lt_of_kwkwkSeq {s : State} (h : s.DecInv) {f : Byte} {r : List Byte}
    (hq : s.kwkwkSeq = some (f :: r)) : f.toNat < s.clr := by
  unfold State.kwkwkSeq at hq
  split at hq
  · rename_i g q hb
    cases hq
    obtain ⟨p, hp, hs⟩ := Option.bind_eq_some_iff.mp hb
    exact first_lt_of_seq h.dictOk (h.prevCode p hp) hs
  · cases hq

/-- Executing a code keeps the invariant (R152 to R157). -/
theorem runCode_inv {s : State} (h : s.Inv) (k : CodeClass) (c : Code) :
    Yields State.Inv (runCode k c s) := by
  cases k with
  | clear =>
    refine yields_asClass fun hm hr _ => yields_next ?_
    have hd := h.decInv hm
    obtain ⟨hcodec, hlt⟩ := codecInv_fresh (s := { s with
      next := s.clr + 2, cw := s.mcs + 1, prev := none }) hd.wf hr.1 hr.2.1 rfl rfl
    exact inv_of_dec hm ((h.ioInv (by simp [hm])).of_frame rfl)
      ⟨hcodec, .inl hlt, nofun, hd.noEndYet⟩
  | eoi =>
    refine yields_asClass fun hm _ _ => yields_next ?_
    exact inv_of_idle rfl ((h.ioInv (by simp [hm])).of_frame rfl) h.tableInv
  | literal =>
    refine yields_asClass fun hm _ hc => ?_
    have hlt : c.toNat < s.clr := classCondition_of_classify hc
    refine emitSeq_inv h hm (.inl (.inl hlt)) fun f r hq => ?_
    exact first_lt_of_seq (h.decInv hm).dictOk (.inl hlt) ((seq_literal hlt).trans hq)
  | dict =>
    refine yields_asClass fun hm _ hc => ?_
    have hseq : s.IsSeqCode c := .inr (classCondition_of_classify hc)
    exact emitSeq_inv h hm (.inl hseq) fun f r => first_lt_of_seq (h.decInv hm).dictOk hseq
  | kwkwk =>
    refine yields_asClass fun hm _ hc => ?_
    obtain ⟨-, hnext⟩ := classCondition_of_classify hc
    exact emitSeq_inv h hm (.inr hnext) fun f r => first_lt_of_kwkwkSeq (h.decInv hm)
  | invalid => exact yields_asClass fun _ _ _ => yields_next (raise_inv s (by decide) _)

/-- The state past a code's bits (R151). -/
theorem State.Inv.advanceBits {s : State} (h : s.Inv) (hm : s.mode = .dec) {w : Nat}
    (hb : s.bitpos + w ≤ 8 * s.clen) : ({ s with bitpos := s.bitpos + w }).Inv := by
  have hio := h.ioInv (by simp [hm])
  have hd := h.decInv hm
  exact inv_of_dec hm
    ⟨hio.payEmpty, hio.noCause, hio.finfoZero, hio.byteCursor, ⟨hb, hio.bitCursor.2⟩, hio.writer⟩
    ⟨⟨hd.wf, hd.regs, hd.size, hd.dictOk⟩, hd.width, hd.prevCode, hd.noEndYet⟩

theorem endByExhaustion_inv {s : State} (h : s.Inv) (hm : s.mode = .dec) :
    s.endByExhaustion.Inv :=
  inv_of_idle rfl ((h.ioInv (by simp [hm])).of_frame rfl) h.tableInv

/-- One step of the decoder keeps the invariant (R151, R159). -/
theorem stepCode_inv {s : State} (h : s.Inv) (hm : s.mode = .dec) :
    Yields State.Inv (stepCode s) := by
  have hr := (h.decInv hm).regs
  by_cases hb : s.bitpos + s.cw ≤ 8 * s.clen
  · rw [stepCode_code hr hb]
    exact runCode_inv (h.advanceBits hm hb) _ _
  · rw [stepCode_exhausted hr (by omega)]
    exact yields_next (endByExhaustion_inv h hm)

/-- The loop of `DEC_RUN` keeps the invariant (R160). -/
theorem decLoop_inv (k : Nat) {s : State} (h : s.Inv) (hm : s.mode = .dec) :
    Yields State.Inv (decLoop k s) := by
  induction k generalizing s with
  | zero => exact yields_fault
  | succ k ih =>
    rw [decLoop_succ]
    have hstep := stepCode_inv h hm
    cases hs : stepCode s with
    | next t =>
      dsimp only
      split
      · exact ih (hstep t hs) ‹_›
      · exact yields_next (hstep t hs)
    | fault => exact yields_fault
    | refused => exact yields_refused

end Sys2Proof.Machine
end

section
/-! SUPPORT. The bit writer and the encoder keep the invariant (R181 to R187, R200, R201). -/

namespace Sys2Proof.Machine

/-- `PutBits` keeps every clause but the writer's, and that one by its own law (R20, R200). -/
theorem State.IoInv.putBits {s : State} (h : s.IoInv) (v w : Nat) : (putBits v w s).IoInv := by
  have hw : (Machine.putBits v w s).PartialOk := putBits_partialOk h.writer
  obtain ⟨a, n, p, e⟩ := putBits_frame v w s
  rw [e] at hw ⊢
  exact ⟨h.payEmpty, h.noCause, h.finfoZero, h.byteCursor, h.bitCursor, hw⟩

theorem State.IoInv.flush {s : State} (h : s.IoInv) : (flush s).IoInv := by
  have hw : (Machine.flush s).PartialOk := ⟨by rw [flush_nacc]; decide, flush_acc s h.writer.2⟩
  obtain ⟨a, n, p, e⟩ := flush_frame s
  rw [e] at hw ⊢
  exact ⟨h.payEmpty, h.noCause, h.finfoZero, h.byteCursor, h.bitCursor, hw⟩

/-- The bit writer touches neither the dictionary nor the codec's registers. -/
theorem State.TableInv.putBits {s : State} (h : s.TableInv) (v w : Nat) :
    (putBits v w s).TableInv := by
  obtain ⟨a, n, p, e⟩ := putBits_frame v w s
  rw [e]
  exact h

theorem State.TableInv.flush {s : State} (h : s.TableInv) : (flush s).TableInv := by
  obtain ⟨a, n, p, e⟩ := flush_frame s
  rw [e]
  exact h

/-- The bit writer touches no register of the encoder and not the dictionary. -/
theorem State.EncInv.putBits {s : State} (h : s.EncInv) (v w : Nat) : (putBits v w s).EncInv := by
  obtain ⟨a, n, p, e⟩ := putBits_frame v w s
  rw [e]
  exact ⟨⟨h.wf, h.regs, h.size, h.dictOk⟩, h.candCode, h.unique⟩

/-- A new candidate that has a sequence keeps the encoder's clauses. -/
theorem State.EncInv.setCand {s : State} (h : s.EncInv) {c : Code} (hc : s.IsSeqCode c) :
    ({ s with cand := some c }).EncInv :=
  ⟨⟨h.wf, h.regs, h.size, h.dictOk⟩, fun p hp => by cases hp; exact hc, h.unique⟩

/-- The insertion of a pair that no dynamic entry holds keeps the encoder's clauses (R185). -/
theorem State.EncInv.insertGrow {s : State} {p : Code} {y : Byte} (h : s.EncInv)
    (hp : s.IsSeqCode p) (hy : y.toNat < s.clr) (hnew : s.lookup p y = none) :
    (insertGrow p y s).EncInv := by
  have hcw := h.cw_le
  have hsize := h.size
  have huniq := h.unique.insert (lookup_none hnew)
  have hcand : ∀ q, s.cand = some q → ∀ w, ({ s.insert p y with cw := w }).IsSeqCode q :=
    fun q hq _ => (h.candCode q hq).mono rfl (Nat.le_succ _)
  rcases insertGrow_cases p y s with ⟨-, e⟩ | ⟨hn, -, hlt, e⟩ | ⟨hn, hno, e⟩
  · rwa [e]
  · have hpos := Nat.two_pow_pos s.cw
    have hgrow : s.next + 1 ≤ 2 ^ (s.cw + 1) := by rw [pow_succ]; omega
    rw [e]
    exact ⟨h.toCodecInv.insert hn hp hy (Nat.le_succ _) hlt hgrow, fun q hq => hcand q hq _, huniq⟩
  · have hle : s.next + 1 ≤ 2 ^ s.cw := by
      by_cases hfull : s.cw = 12
      · rw [hfull]; omega
      · omega
    rw [e]
    exact ⟨h.toCodecInv.insert hn hp hy le_rfl hcw hle, fun q hq => hcand q hq _, huniq⟩

/-- The encoder's insertion leaves the cursors and the writer alone. -/
theorem State.IoInv.insertGrow {s : State} (h : s.IoInv) (p : Code) (y : Byte) :
    (insertGrow p y s).IoInv := by
  obtain ⟨d, n, w, e⟩ := insertGrow_frame p y s
  exact h.of_frame (by rw [e])

theorem le_insertGrow_next (p : Code) (y : Byte) (s : State) :
    s.next ≤ (insertGrow p y s).next := by
  rcases insertGrow_cases p y s with ⟨-, e⟩ | ⟨-, -, -, e⟩ | ⟨-, -, e⟩ <;> rw [e]
  · exact Nat.le_succ _
  · exact Nat.le_succ _

/-- A symbol below `CLR` is a literal code. -/
theorem isSeqCode_symbol {s : State} {y : Byte} (hy : y.toNat < s.clr) :
    s.IsSeqCode (y.setWidth 12) := by
  refine .inl ?_
  rw [BitVec.toNat_setWidth]
  exact lt_of_le_of_lt (Nat.mod_le _ _) hy

/-- What one symbol of the greedy walk does: a candidate that has a sequence, or the candidate's
code, the insertion of the pair that `Lookup` does not find, and the symbol as candidate (R183 to
R185). -/
theorem walk_cases {s : State} (h : s.EncInv) {y : Byte} (hy : y.toNat < s.clr) :
    (∃ c, s.IsSeqCode c ∧ walk y s = { s with cand := some c }) ∨
    (∃ p, s.IsSeqCode p ∧ s.lookup p y = none ∧ walk y s = emitInsert p y s) := by
  cases hc : s.cand with
  | none =>
    exact .inl ⟨y.setWidth 12, isSeqCode_symbol hy, by simp only [walk, hc]⟩
  | some p =>
    cases hl : s.lookup p y with
    | some c =>
      obtain ⟨h1, h2, -⟩ := lookup_some h.wf hl
      exact .inl ⟨c, .inr ⟨h1, h2⟩, by simp only [walk, hc, hl]⟩
    | none => exact .inr ⟨p, h.candCode p hc, hl, by simp only [walk, hc, hl]⟩

/-- Emitting a code, inserting a pair `Lookup` does not find and restarting the candidate keeps the
encoder's clauses (R185). -/
theorem State.EncInv.emitInsert {s : State} (h : s.EncInv) {p : Code} {y : Byte}
    (hp : s.IsSeqCode p) (hy : y.toNat < s.clr) (hnew : s.lookup p y = none) :
    (emitInsert p y s).EncInv := by
  unfold Machine.emitInsert
  have hb := h.putBits p.toNat s.cw
  obtain ⟨a, n, q, e⟩ := putBits_frame p.toNat s.cw s
  rw [e] at hb ⊢
  refine (hb.insertGrow hp hy hnew).setCand ((isSeqCode_symbol (s := s) hy).mono ?_ ?_)
  · rw [insertGrow_mcs]
  · exact le_insertGrow_next p y { s with acc := a, nacc := n, pbuf := q }

/-- One symbol of the walk keeps the invariant (R182 to R185). -/
theorem walk_inv {s : State} (h : s.Inv) (hm : s.mode = .enc) {y : Byte} (hy : y.toNat < s.clr) :
    (walk y s).Inv := by
  have hio := h.ioInv (by simp [hm])
  have he := h.encInv hm
  rcases walk_cases he hy with ⟨c, hc, e⟩ | ⟨p, hp, hnew, e⟩ <;> rw [e]
  · exact inv_of_enc hm (hio.of_frame rfl) (he.setCand hc)
  · have hi := (hio.putBits p.toNat s.cw).insertGrow p y
    refine inv_of_enc ?_ (hi.of_frame rfl) (he.emitInsert hp hy hnew)
    simp only [emitInsert, insertGrow_mode, putBits_mode, hm]

end Sys2Proof.Machine
end

section
/-! SUPPORT. Every command, every access of the host and every step keeps the invariant. -/

namespace Sys2Proof.Machine

theorem illegalCommand_inv (s : State) (op : Byte) : (s.raise .illegalCommand op.toNat).Inv :=
  raise_inv s (by decide) _

theorem badOperand_inv (s : State) (op : Byte) : (s.raise .badOperand op.toNat).Inv :=
  raise_inv s (by decide) _

/-- A command guarded by `inMode` owes the invariant in the mode it needs only. -/
theorem yields_inv_inMode {need : Mode} {op : Byte} {s : State} {k : Result} (h : s.Inv)
    (hk : s.mode = need → Yields State.Inv k) : Yields State.Inv (inMode need op s k) :=
  yields_inMode h (illegalCommand_inv s op) hk

/-- The cursors and the partial byte of a state in `IDLE` mode. -/
theorem State.Inv.idle_io {s : State} (h : s.Inv) (hm : s.mode = .idle) :
    s.ByteCursorOk ∧ s.BitCursorOk ∧ s.PartialOk := by
  have hio := h.ioInv (by simp [hm])
  exact ⟨hio.byteCursor, hio.bitCursor, hio.writer⟩

theorem execRdOpen_inv {s : State} (h : s.Inv) (data : List Byte) :
    Yields State.Inv (execRdOpen data s) :=
  yields_inv_inMode h fun hm => yields_checked (badOperand_inv s _) fun hd =>
    have ⟨_, hbit, hw⟩ := h.idle_io hm
    yields_next (h.of_idle_frame hm rfl ⟨Nat.zero_le _, hd⟩ hbit hw)

theorem execRdU8_inv {s : State} (h : s.Inv) : Yields State.Inv (execRdU8 s) := by
  refine yields_inv_inMode h fun hm => ?_
  obtain ⟨hbyte, hbit, hw⟩ := h.idle_io hm
  by_cases hr : s.rpos < s.ilen
  · rw [readByte_some hr]
    exact yields_next (h.of_idle_frame hm rfl ⟨hr, hbyte.2⟩ hbit hw)
  · rw [readByte_none (by omega)]
    exact yields_next (underrun_inv s)

theorem execRdU16_inv {s : State} (h : s.Inv) : Yields State.Inv (execRdU16 s) := by
  refine yields_inv_inMode h fun hm => ?_
  obtain ⟨hbyte, hbit, hw⟩ := h.idle_io hm
  by_cases hr : s.rpos + 2 ≤ s.ilen
  · rw [readRun_some hr]
    split
    · rename_i e
      obtain ⟨-, rfl⟩ := Prod.mk.inj (Option.some.inj e)
      exact yields_next (h.of_idle_frame hm rfl ⟨hr, hbyte.2⟩ hbit hw)
    · exact yields_next (underrun_inv s)
  · rw [readRun_none (by omega)]
    exact yields_next (underrun_inv s)

theorem execRdExpect_inv {s : State} (h : s.Inv) (k : Word) :
    Yields State.Inv (execRdExpect k s) := by
  refine yields_inv_inMode h fun hm => yields_checked (badOperand_inv s _) fun _ => ?_
  obtain ⟨hbyte, hbit, hw⟩ := h.idle_io hm
  by_cases hr : s.rpos < s.ilen
  · rw [readByte_some hr]
    dsimp only
    split
    · exact yields_next (h.of_idle_frame hm rfl ⟨hr, hbyte.2⟩ hbit hw)
    · exact yields_next (raise_inv _ (by decide) _)
  · rw [readByte_none (by omega)]
    exact yields_next (underrun_inv s)

theorem execRdBytes_inv {s : State} (h : s.Inv) (n : Word) :
    Yields State.Inv (execRdBytes n s) := by
  refine yields_inv_inMode h fun hm => ?_
  obtain ⟨hbyte, -, hw⟩ := h.idle_io hm
  by_cases hr : s.rpos + n.toNat ≤ s.ilen
  · rw [readRun_some hr]
    refine yields_next (h.of_idle_frame hm rfl ⟨hr, hbyte.2⟩ ⟨Nat.zero_le _, ?_⟩ hw)
    refine lt_of_le_of_lt ?_ hbyte.2
    rw [loadCbuf_clen, List.length_take, List.length_drop]
    exact (Nat.min_le_right _ _).trans (Nat.sub_le _ _)
  · rw [readRun_none (by omega)]
    exact yields_next (underrun_inv s)

/-- The body of `RD_SUBBLOCKS` stays in `IDLE` mode or raises (R126). -/
theorem readSubblocks_mode {s : State} (hm : s.mode = .idle) :
    Yields (fun t => t.mode = .idle ∨ t.mode = .fault) (readSubblocks s) := by
  obtain ⟨t, ht, rfl | ⟨-, -, -, e⟩⟩ := readSubblocks_cases hm <;> rw [ht] <;>
    refine yields_next ?_
  · exact .inr rfl
  · exact .inl (by rw [e]; exact hm)

/-- The body of `RD_SUBBLOCKS` keeps the invariant (R126). -/
theorem readSubblocks_inv {s : State} (h : s.Inv) (hm : s.mode = .idle) :
    Yields State.Inv (readSubblocks s) := by
  obtain ⟨hbyte, -, hw⟩ := h.idle_io hm
  obtain ⟨t, ht, rfl | ⟨-, hr, hc, e⟩⟩ := readSubblocks_cases hm <;> rw [ht] <;>
    refine yields_next ?_
  · exact underrun_inv s
  · generalize t.rpos = r, t.cbuf = b at hr hc e
    subst e
    have hb : b.length < 2 ^ s.posw := lt_of_le_of_lt (by omega) hbyte.2
    exact h.of_idle_frame hm (by rw [h.payEmpty]) ⟨hr, hbyte.2⟩ ⟨Nat.zero_le _, hb⟩ hw

theorem execRdSubblocks_inv {s : State} (h : s.Inv) : Yields State.Inv (execRdSubblocks s) :=
  yields_inv_inMode h fun hm => readSubblocks_inv h hm

theorem execRdImagedata_inv {s : State} (h : s.Inv) : Yields State.Inv (execRdImagedata s) := by
  refine yields_inv_inMode h fun hm => ?_
  obtain ⟨hbyte, hbit, hw⟩ := h.idle_io hm
  by_cases hr : s.rpos < s.ilen
  · have ht : ({ s with rpos := s.rpos + 1 }).Inv :=
      h.of_idle_frame hm rfl ⟨hr, hbyte.2⟩ hbit hw
    rw [readByte_some hr]
    dsimp only
    cases e : readSubblocks { s with rpos := s.rpos + 1 } with
    | next u =>
      have hu := readSubblocks_inv ht hm u e
      have hmode := readSubblocks_mode (s := { s with rpos := s.rpos + 1 }) hm u e
      dsimp only
      split
      · exact yields_next hu
      · have hmu := hmode.resolve_right ‹_›
        obtain ⟨hbyte', hbit', hw'⟩ := hu.idle_io hmu
        exact yields_next (hu.of_idle_frame hmu rfl hbyte' hbit' hw')
    | fault => exact yields_fault
    | refused => exact yields_refused
  · rw [readByte_none (by omega)]
    exact yields_next (underrun_inv s)

theorem execCbLoad_inv {s : State} (h : s.Inv) (data : List Byte) :
    Yields State.Inv (execCbLoad data s) :=
  yields_inv_inMode h fun hm => yields_checked (badOperand_inv s _) fun hd =>
    have ⟨hbyte, _, hw⟩ := h.idle_io hm
    yields_next (h.of_idle_frame hm rfl hbyte ⟨Nat.zero_le _, hd⟩ hw)

theorem execBrGet_inv {s : State} (h : s.Inv) (w : Word) : Yields State.Inv (execBrGet w s) := by
  refine yields_inv_inMode h fun hm => yields_checked (badOperand_inv s _) fun _ => ?_
  obtain ⟨hbyte, hbit, hw⟩ := h.idle_io hm
  by_cases hb : s.bitpos + w.toNat ≤ 8 * s.clen
  · rw [getBits_some hb]
    exact yields_next (h.of_idle_frame hm rfl hbyte ⟨hb, hbit.2⟩ hw)
  · rw [getBits_none (by omega)]
    exact yields_next (h.of_idle_frame hm rfl hbyte hbit hw)

theorem execBrRewind_inv {s : State} (h : s.Inv) : Yields State.Inv (execBrRewind s) :=
  yields_inv_inMode h fun hm =>
    have ⟨hbyte, hbit, hw⟩ := h.idle_io hm
    yields_next (h.of_idle_frame hm rfl hbyte ⟨Nat.zero_le _, hbit.2⟩ hw)

theorem execDecStart_inv {s : State} (h : s.Inv) (mcs : Word) :
    Yields State.Inv (execDecStart mcs s) := by
  refine yields_inv_inMode h fun hm =>
    yields_checked (raise_inv s (by decide) _) fun hr => yields_next ?_
  have hio := h.ioInv (by simp [hm])
  obtain ⟨hcodec, hlt⟩ := codecInv_fresh (s := { s with
    mcs := mcs.toNat, cw := mcs.toNat + 1, next := 2 ^ mcs.toNat + 2, prev := none, oidx := [],
    bitpos := 0, eoif := false, exhf := false, mode := .dec }) h.dictWf hr.1 hr.2 rfl rfl
  exact inv_of_dec rfl
    ⟨hio.payEmpty, hio.noCause, hio.finfoZero, hio.byteCursor, ⟨Nat.zero_le _, hio.bitCursor.2⟩,
      hio.writer⟩
    ⟨hcodec, .inl hlt, nofun, rfl, rfl⟩

theorem execDecStep_inv {s : State} (h : s.Inv) : Yields State.Inv (execDecStep s) :=
  yields_inv_inMode h fun hm => stepCode_inv h hm

theorem execDecRun_inv {s : State} (h : s.Inv) : Yields State.Inv (execDecRun s) :=
  yields_inv_inMode h fun hm => decLoop_inv _ h hm

theorem execEncStart_inv {s : State} (h : s.Inv) (mcs : Word) :
    Yields State.Inv (execEncStart mcs s) := by
  refine yields_inv_inMode h fun hm =>
    yields_checked (raise_inv s (by decide) _) fun hr => yields_next ?_
  have hio := h.ioInv (by simp [hm])
  set u : State := { s with
    mcs := mcs.toNat, cw := mcs.toNat + 1, next := 2 ^ mcs.toNat + 2, cand := none, pbuf := [],
    acc := 0, nacc := 0 } with hu
  have hiou : u.IoInv :=
    ⟨hio.payEmpty, hio.noCause, hio.finfoZero, hio.byteCursor, hio.bitCursor,
      by simp [State.PartialOk, hu]⟩
  have heu : u.EncInv :=
    ⟨(codecInv_fresh (s := u) h.dictWf hr.1 hr.2 rfl rfl).1, nofun,
      fun c _ h1 h2 => absurd h2 h1.not_gt⟩
  have he := heu.putBits u.clr u.cw
  exact inv_of_enc rfl ((hiou.putBits u.clr u.cw).of_frame rfl)
    ⟨⟨he.wf, he.regs, he.size, he.dictOk⟩, he.candCode, he.unique⟩

theorem execEncPut_inv {s : State} (h : s.Inv) (sym : Word) :
    Yields State.Inv (execEncPut sym s) := by
  refine yields_inv_inMode h fun hm => yields_codecOk fun _ =>
    yields_checked (raise_inv s (by decide) _) fun hs => yields_next (walk_inv h hm ?_)
  rw [BitVec.toNat_setWidth]
  exact lt_of_le_of_lt (Nat.mod_le _ _) hs

/-- The codes that end an encode are bits of the stream: the registers stay (R187). -/
theorem putCandidate_frame (s : State) :
    ∃ v w, putCandidate s = putBits v w s := by
  unfold putCandidate
  split
  · exact ⟨0, 0, rfl⟩
  · exact ⟨_, _, rfl⟩

theorem execEncEnd_inv {s : State} (h : s.Inv) : Yields State.Inv (execEncEnd s) := by
  refine yields_inv_inMode h fun hm => yields_codecOk fun _ => yields_next ?_
  have hio := h.ioInv (by simp [hm])
  obtain ⟨v, w, e⟩ := putCandidate_frame s
  rw [e, putEoi]
  have hi := ((hio.putBits v w).putBits (putBits v w s).eoiCode (putBits v w s).cw).flush
  refine inv_of_idle rfl (hi.of_frame rfl) ?_
  exact ((h.tableInv.putBits v w).putBits _ _).flush

theorem execWrOpen_inv {s : State} (h : s.Inv) : Yields State.Inv (execWrOpen s) :=
  yields_inv_inMode h fun hm =>
    have ⟨hbyte, hbit, _⟩ := h.idle_io hm
    yields_next (h.of_idle_frame hm rfl hbyte hbit (by simp [State.PartialOk]))

theorem execWrU8_inv {s : State} (h : s.Inv) (v : Word) : Yields State.Inv (execWrU8 v s) :=
  yields_inv_inMode h fun hm => yields_checked (badOperand_inv s _) fun _ =>
    have ⟨hbyte, hbit, hw⟩ := h.idle_io hm
    yields_next (h.of_idle_frame hm rfl hbyte hbit hw)

theorem execWrU16_inv {s : State} (h : s.Inv) (v : Word) : Yields State.Inv (execWrU16 v s) :=
  yields_inv_inMode h fun hm => yields_checked (badOperand_inv s _) fun _ =>
    have ⟨hbyte, hbit, hw⟩ := h.idle_io hm
    yields_next (h.of_idle_frame hm rfl hbyte hbit hw)

/-- The bit writer in `IDLE` mode keeps the invariant (R20, R200). -/
theorem putBits_inv {s : State} (h : s.Inv) (hm : s.mode = .idle) (v w : Nat) :
    (putBits v w s).Inv :=
  inv_of_idle (by rw [putBits_mode, hm]) ((h.ioInv (by simp [hm])).putBits v w)
    (h.tableInv.putBits v w)

/-- `Flush` in `IDLE` mode keeps the invariant (R201). -/
theorem flush_inv {s : State} (h : s.Inv) (hm : s.mode = .idle) : (flush s).Inv :=
  inv_of_idle (by rw [flush_mode, hm]) ((h.ioInv (by simp [hm])).flush)
    h.tableInv.flush

theorem execBwPut_inv {s : State} (h : s.Inv) (v w : Word) : Yields State.Inv (execBwPut v w s) :=
  yields_inv_inMode h fun hm => yields_checked (badOperand_inv s _) fun _ =>
    yields_checked (badOperand_inv s _) fun _ => yields_next (putBits_inv h hm _ _)

theorem execBwFlush_inv {s : State} (h : s.Inv) : Yields State.Inv (execBwFlush s) :=
  yields_inv_inMode h fun hm => yields_next (flush_inv h hm)

theorem execWrSubblocks_inv {s : State} (h : s.Inv) : Yields State.Inv (execWrSubblocks s) :=
  yields_inv_inMode h fun hm => by
    have hf := flush_inv h hm
    have hmf : (flush s).mode = .idle := by rw [flush_mode, hm]
    obtain ⟨hbyte, hbit, hw⟩ := hf.idle_io hmf
    exact yields_next (hf.of_idle_frame hmf rfl hbyte hbit hw)

theorem execIllegal_inv {s : State} (h : s.Inv) (op : Byte) :
    Yields State.Inv (execIllegal op s) := by
  unfold execIllegal
  split
  · exact yields_next h
  · exact yields_next (illegalCommand_inv s op)

/-! ## One command, one access, one step -/

/-- Every command keeps the invariant; the codes and tokens are executed by commands only (R80). -/
theorem exec_inv {i : Instr} {s : State} (hi : i.format = .cmd) (h : s.Inv) :
    Yields State.Inv (exec i s) := by
  cases i with
  | nop => exact yields_next h
  | reset => exact yields_next (resetBlock_inv s)
  | rdOpen data => exact execRdOpen_inv h data
  | rdU8 => exact execRdU8_inv h
  | rdU16 => exact execRdU16_inv h
  | rdExpect k => exact execRdExpect_inv h k
  | rdBytes n => exact execRdBytes_inv h n
  | rdSubblocks => exact execRdSubblocks_inv h
  | rdImagedata => exact execRdImagedata_inv h
  | cbLoad data => exact execCbLoad_inv h data
  | brGet w => exact execBrGet_inv h w
  | brRewind => exact execBrRewind_inv h
  | decStart mcs => exact execDecStart_inv h mcs
  | decStep => exact execDecStep_inv h
  | decRun => exact execDecRun_inv h
  | encStart mcs => exact execEncStart_inv h mcs
  | encPut sym => exact execEncPut_inv h sym
  | encEnd => exact execEncEnd_inv h
  | wrOpen => exact execWrOpen_inv h
  | wrU8 v => exact execWrU8_inv h v
  | wrU16 v => exact execWrU16_inv h v
  | bwPut v w => exact execBwPut_inv h v w
  | bwFlush => exact execBwFlush_inv h
  | wrSubblocks => exact execWrSubblocks_inv h
  | illegal op => exact execIllegal_inv h op
  | clear | eoi | literal | dict | kwkwk | invalid | sbData | sbEnd => cases hi

/-- A write of `CMD` issues a command, never a code or a token (R82, R83). -/
theorem decodeCommand_format (w : CmdWords) : (decodeCommand w).format = .cmd := by
  unfold decodeCommand
  split <;> rfl

/-- A write of a register other than `CMD` keeps the invariant (R27). -/
theorem writeReg_inv {s : State} (h : s.Inv) (no : Byte) (v : Word) : (s.writeReg no v).Inv := by
  unfold State.writeReg
  split
  · exact h.of_hostSide rfl
  · exact h.of_hostSide rfl
  · exact h

theorem latchCmd_inv {s : State} (h : s.Inv) (v : Word) : (s.latchCmd v).Inv := by
  unfold State.latchCmd
  split
  · exact h
  · exact h.of_hostSide rfl

/-- Every access of the host keeps the invariant. -/
theorem access_inv {s : State} (h : s.Inv) (a : HostAccess) : Yields State.Inv (access a s) := by
  cases a with
  | write no v data =>
    rw [access]
    split
    · exact exec_inv (decodeCommand_format _) (latchCmd_inv h v)
    · exact yields_next (writeReg_inv h no v)
  | read no => exact yields_next (h.of_hostSide rfl)
  | readOidx => exact yields_next (h.of_hostSide rfl)
  | readEout => exact yields_next (h.of_hostSide rfl)
  | hardReset => exact yields_next (resetBlock_inv s)

theorem step_inv {s : State} (h : s.Inv) : Yields State.Inv (step s) := by
  unfold step
  split
  · exact yields_next h
  · exact access_inv (h.of_hostSide rfl) _

/-- Settles O49: each access of the host, and with it each command, keeps the invariant. -/
theorem everyStepKeepsInvariant : Obligations.EveryStepKeepsInvariant :=
  fun _ t h ht => step_inv h t ht

end Sys2Proof.Machine
end

section
/-! SUPPORT. Which commands write `MODE` (R11). -/

namespace Sys2Proof.Machine

/-- The mode is that of `s`, or a fault was raised. -/
def State.ModeKept (s t : State) : Prop := t.mode = s.mode ∨ t.mode = .fault

theorem modeKept_raise (s u : State) (c : Cause) (info : Nat) : s.ModeKept (u.raise c info) :=
  .inr rfl

/-- A command guarded by `inMode` owes its body. -/
theorem yields_modeKept_inMode {need : Mode} {op : Byte} {s : State} {k : Result}
    (hk : s.mode = need → Yields s.ModeKept k) : Yields s.ModeKept (inMode need op s k) :=
  yields_inMode (.inl rfl) (modeKept_raise s s _ _) hk

theorem yields_modeKept_checked {ok : Prop} [Decidable ok] {c : Cause} {info : Nat} {s : State}
    {k : Result} (hk : Yields s.ModeKept k) : Yields s.ModeKept (checked ok c info s k) :=
  yields_checked (modeKept_raise s s _ _) fun _ => hk

theorem yields_sameMode {s t : State} (h : t.mode = s.mode) : Yields s.ModeKept (.next t) :=
  yields_next (.inl h)

theorem yields_raise (s u : State) (c : Cause) (info : Nat) :
    Yields s.ModeKept (.next (u.raise c info)) :=
  yields_next (modeKept_raise s u c info)

/-! ## The commands that read, one at a time -/

theorem execRdU8_modeKept (s : State) : Yields s.ModeKept (execRdU8 s) := by
  refine yields_modeKept_inMode fun _ => ?_
  by_cases hr : s.rpos < s.ilen
  · rw [readByte_some hr]
    exact yields_sameMode rfl
  · rw [readByte_none (by omega)]
    exact yields_raise s s _ _

theorem execRdU16_modeKept (s : State) : Yields s.ModeKept (execRdU16 s) := by
  refine yields_modeKept_inMode fun _ => ?_
  by_cases hr : s.rpos + 2 ≤ s.ilen
  · rw [readRun_some hr]
    split
    · rename_i e
      obtain ⟨-, rfl⟩ := Prod.mk.inj (Option.some.inj e)
      exact yields_sameMode rfl
    · exact yields_raise s s _ _
  · rw [readRun_none (by omega)]
    exact yields_raise s s _ _

theorem execRdExpect_modeKept (k : Word) (s : State) : Yields s.ModeKept (execRdExpect k s) := by
  refine yields_modeKept_inMode fun _ => yields_modeKept_checked ?_
  by_cases hr : s.rpos < s.ilen
  · rw [readByte_some hr]
    dsimp only
    split
    · exact yields_sameMode rfl
    · exact yields_raise s _ _ _
  · rw [readByte_none (by omega)]
    exact yields_raise s s _ _

theorem execRdBytes_modeKept (n : Word) (s : State) : Yields s.ModeKept (execRdBytes n s) := by
  refine yields_modeKept_inMode fun _ => ?_
  by_cases hr : s.rpos + n.toNat ≤ s.ilen
  · rw [readRun_some hr]
    exact yields_sameMode rfl
  · rw [readRun_none (by omega)]
    exact yields_raise s s _ _

theorem execRdSubblocks_modeKept (s : State) : Yields s.ModeKept (execRdSubblocks s) :=
  yields_modeKept_inMode fun hm t ht =>
    (readSubblocks_mode hm t ht).imp_left fun h => h.trans hm.symm

theorem execRdImagedata_modeKept (s : State) : Yields s.ModeKept (execRdImagedata s) := by
  refine yields_modeKept_inMode fun hm => ?_
  by_cases hr : s.rpos < s.ilen
  · rw [readByte_some hr]
    dsimp only
    cases e : readSubblocks { s with rpos := s.rpos + 1 } with
    | next u =>
      have hu := readSubblocks_mode (s := { s with rpos := s.rpos + 1 }) hm u e
      dsimp only
      split
      · exact yields_next (.inr ‹_›)
      · exact yields_sameMode ((hu.resolve_right ‹_›).trans hm.symm)
    | fault => exact yields_fault
    | refused => exact yields_refused
  · rw [readByte_none (by omega)]
    exact yields_raise s s _ _

theorem execBrGet_modeKept (w : Word) (s : State) : Yields s.ModeKept (execBrGet w s) := by
  refine yields_modeKept_inMode fun _ => yields_modeKept_checked ?_
  by_cases hb : s.bitpos + w.toNat ≤ 8 * s.clen
  · rw [getBits_some hb]
    exact yields_sameMode rfl
  · rw [getBits_none (by omega)]
    exact yields_sameMode rfl

/-! ## The other instructions -/

/-- One symbol of the walk keeps the mode (R183 to R185). -/
theorem walk_mode (y : Byte) (s : State) : (walk y s).mode = s.mode := by
  unfold walk
  split
  · rfl
  · split
    · rfl
    · simp only [emitInsert, insertGrow_mode, putBits_mode]

theorem execIllegal_modeKept (op : Byte) (s : State) : Yields s.ModeKept (execIllegal op s) := by
  unfold execIllegal
  split
  · exact yields_sameMode rfl
  · exact yields_raise s s _ _

theorem emitSeq_modeKept (c : Code) (q : Option (List Byte)) (s : State) :
    Yields s.ModeKept (emitSeq c q s) :=
  fun _ ht => .inl (emitSeq_effect ht).2.1

/-- A token keeps the mode (R90). -/
theorem yields_modeKept_inRun {s : State} {k : Result} (hk : Yields s.ModeKept k) :
    Yields s.ModeKept (inRun s k) := by
  unfold inRun
  split
  · exact hk
  · exact yields_refused

/-- An instruction that R11 does not list keeps the mode or raises. -/
theorem exec_modeKept {i : Instr} (hi : writesMode i = false) (s : State) :
    Yields s.ModeKept (exec i s) := by
  cases i with
  | decStart | decStep | decRun | encStart | encEnd | reset | eoi => cases hi
  | nop => exact yields_sameMode rfl
  | rdU8 => exact execRdU8_modeKept s
  | rdU16 => exact execRdU16_modeKept s
  | rdExpect k => exact execRdExpect_modeKept k s
  | rdBytes n => exact execRdBytes_modeKept n s
  | rdSubblocks => exact execRdSubblocks_modeKept s
  | rdImagedata => exact execRdImagedata_modeKept s
  | brGet w => exact execBrGet_modeKept w s
  | rdOpen | cbLoad | wrU8 | wrU16 =>
    exact yields_modeKept_inMode fun _ => yields_modeKept_checked (yields_sameMode rfl)
  | brRewind | wrOpen => exact yields_modeKept_inMode fun _ => yields_sameMode rfl
  | bwPut v w =>
    exact yields_modeKept_inMode fun _ => yields_modeKept_checked <| yields_modeKept_checked <|
      yields_sameMode (putBits_mode s _ _)
  | bwFlush => exact yields_modeKept_inMode fun _ => yields_sameMode (flush_mode s)
  | wrSubblocks => exact yields_modeKept_inMode fun _ => yields_sameMode (flush_mode s)
  | encPut sym =>
    exact yields_modeKept_inMode fun _ => yields_codecOk fun _ => yields_modeKept_checked <|
      yields_sameMode (walk_mode _ s)
  | illegal op => exact execIllegal_modeKept op s
  | clear => exact yields_asClass fun _ _ _ => yields_sameMode rfl
  | literal | dict | kwkwk => exact yields_asClass fun _ _ _ => emitSeq_modeKept _ _ s
  | invalid => exact yields_asClass fun _ _ _ => yields_raise s s _ _
  | sbData | sbEnd => exact yields_modeKept_inRun (yields_sameMode rfl)

/-- Settles O9: the instructions R11 does not list keep the mode or raise. -/
theorem modeWrittenOnlyByStartsAndEnds : Obligations.ModeWrittenOnlyByStartsAndEnds := by
  intro i s t ht
  by_cases hi : writesMode i = true
  · exact .inr (.inr hi)
  · exact (exec_modeKept (Bool.eq_false_iff.mpr hi) s t ht).imp_right .inl

end Sys2Proof.Machine
end

section
/-! SUPPORT. The sequence of a code (R29) and `Lookup` (R31). -/

namespace Sys2Proof.Machine

/-- Settles O32: the three cases of R29, the dynamic one by the sequence that R30 (a) gives the
code its entry extends. -/
theorem sequencesOfCodes : Obligations.SequencesOfCodes := by
  intro s c
  refine ⟨seq_literal, fun hd h1 h2 => ?_, fun h => seq_undefined ?_⟩
  · obtain ⟨e, hr, hp, hclr, heoi, hy⟩ := hd _ h1 h2
    have hpfx : s.IsSeqCode e.pfx := by
      unfold State.IsSeqCode State.eoiCode at *
      omega
    obtain ⟨f, q, hq, hlt⟩ := seq_of_isSeqCode hd hpfx
    refine ⟨e, f :: q, hr, hq, by rw [seq_dynamic h1 h2 hr hp, hq]; rfl, ?_, fun y hmem => ?_⟩
    · simp
    · rcases List.mem_append.mp hmem with hmem | hmem
      · exact hlt y hmem
      · rwa [List.mem_singleton.mp hmem]
  · unfold State.IsSeqCode State.eoiCode at *
    omega

/-- Settles O39: `Lookup` finds exactly the listed pairs, and a canonical memory reads what it
lists. -/
theorem lookupFindsThePair : Obligations.LookupFindsThePair :=
  fun _ _ _ hw =>
    ⟨fun _ => lookup_some hw, lookup_none, fun hu _ => lookup_eq_of_read hw hu⟩

end Sys2Proof.Machine
end

section
/-! SUPPORT. Reset (R38) and the host's registers (R23, R27, R223). -/

namespace Sys2Proof.Machine

theorem resetBlock_atResetValues (s : State) : s.resetBlock.AtResetValues := by
  simp [State.AtResetValues, State.status, State.full, Mode.number]

/-- Settles O1: `RESET` and a hardware reset are both `resetBlock`. -/
theorem resetGivesResetValues : Obligations.ResetGivesResetValues :=
  ⟨resetBlock_atResetValues State.reset, fun s =>
    ⟨⟨_, rfl, resetBlock_atResetValues s⟩, ⟨_, rfl, resetBlock_atResetValues s⟩⟩⟩

/-- Settles O48: the reset state is a reset of itself. -/
theorem invariantHoldsAtReset : Obligations.InvariantHoldsAtReset := reset_inv

/-- One step is the oldest access of the host (R251). -/
theorem step_of_pending {s : State} {a : HostAccess} {rest : List HostAccess}
    (h : s.pending = a :: rest) : step s = access a { s with pending := rest } := by
  rw [step, h]

theorem step_of_no_pending {s : State} (h : s.pending = []) : step s = .next s := by
  rw [step, h]

/-- A write of a register other than `CMD`, `ARG0` and `ARG1` is ignored (R27). -/
theorem access_write_ignored {no : Byte} (h : 0x02 < no.toNat) (v : Word) (d : List Byte)
    (s : State) : access (.write no v d) s = .next s := by
  have hcmd : no ≠ regCmd := by rintro rfl; exact absurd h (by decide)
  rw [access, if_neg hcmd, State.writeReg]
  split
  · omega
  · omega
  · rfl

/-- Outside `FAULT` mode a write of `ARG0` or `ARG1` stores the word (R26). -/
theorem access_write_arg0 {s : State} (h : s.mode ≠ .fault) (v : Word) (d : List Byte) :
    access (.write 0x01 v d) s = .next { s with arg0 := v } := by
  show Host.Outcome.next (s.writeReg 0x01 v) = _
  simp [State.writeReg, State.hostWord, h]

theorem access_write_arg1 {s : State} (h : s.mode ≠ .fault) (v : Word) (d : List Byte) :
    access (.write 0x02 v d) s = .next { s with arg1 := v } := by
  show Host.Outcome.next (s.writeReg 0x02 v) = _
  simp [State.writeReg, State.hostWord, h]

/-- An unassigned register number reads 0 (R27). -/
theorem readReg_unassigned {no : Byte} (h : 0x13 ≤ no.toNat) (s : State) : s.readReg no = 0 := by
  unfold State.readReg
  split
  case h_20 => rfl
  all_goals omega

/-- Settles O52, one access at a time. -/
theorem hostReadsAndWritesRegisters : Obligations.HostReadsAndWritesRegisters := by
  intro s no v d rest
  refine ⟨step_of_no_pending, fun h => step_of_pending h, fun h => step_of_pending h,
    fun h => step_of_pending h, fun h hm => ?_, fun h hm => ?_, fun h hno => ?_,
    fun hno => readReg_unassigned hno s, fun hm => if_neg hm⟩
  · rw [step_of_pending h, access_write_arg0 (by exact hm)]
  · rw [step_of_pending h, access_write_arg1 (by exact hm)]
  · rw [step_of_pending h, access_write_ignored hno]

/-- `STATUS` as a number: its parts stay below 2^32, so nothing is cut (R23). -/
theorem status_toNat (s : State) :
    s.status.toNat =
      s.mode.number + (if s.eoif then 16 else 0) + (if s.exhf then 32 else 0) +
        (if s.next = 4096 then 64 else 0) := by
  have hm : s.mode.number < 8 := by cases s.mode <;> decide
  have flag : ∀ (b : Bool) (n : Nat), b.toNat * n = if b then n else 0 := by
    intro b n
    cases b <;> simp
  rw [State.status, BitVec.toNat_ofNat, flag, flag, flag]
  simp only [State.full, beq_iff_eq]
  refine Nat.mod_eq_of_lt ?_
  split_ifs <;> omega

/-- Settles O53: the number of `STATUS` is the sum of its parts, and register 0x03 is no register a
write stores. -/
theorem statusIsViewOfModeAndFlags : Obligations.StatusIsViewOfModeAndFlags := by
  refine ⟨rfl, fun s v d rest => ⟨?_, fun h => ?_⟩⟩
  · show s.status.toNat = _
    rw [status_toNat]
    cases s.mode <;> rfl
  · rw [step_of_pending h, access_write_ignored (by decide)]

/-- A length that fits its register is what the register reads. -/
theorem lengthReg_of_lt {posw len : Nat} (h : len < 2 ^ posw) : lengthReg posw len = len :=
  if_pos h

/-- Settles O54, one register at a time. -/
theorem registerNumbersReadTheirRegisters : Obligations.RegisterNumbersReadTheirRegisters := by
  intro s hi hc ho hp he
  have hprev : s.readReg 0x0A = codeReg s.prev := rfl
  have hcand : s.readReg 0x0B = codeReg s.cand := rfl
  refine ⟨rfl, rfl, ?_, rfl, rfl, rfl, rfl, rfl, fun h => ?_, fun c h => ?_, fun h => ?_,
    fun c h => ?_, rfl, lengthReg_of_lt hi, rfl, lengthReg_of_lt hc, lengthReg_of_lt ho,
    lengthReg_of_lt hp, lengthReg_of_lt he⟩
  · show s.cause.number = _
    cases s.cause <;> rfl
  · rw [hprev, h]; rfl
  · rw [hprev, h]; rfl
  · rw [hcand, h]; rfl
  · rw [hcand, h]; rfl

end Sys2Proof.Machine
end

section
/-! SUPPORT. Which instructions write which address space (R50) or operand register (R26). -/

namespace Sys2Proof.Machine

/-- Nothing but the spaces `ws` is written of what R50 and R26 speak of: the operand registers, the
fault's registers and the other address spaces are those of `s`. By default a field is closed
by the laws of the operations. -/
structure State.Frame (s : State) (ws : List Space) (t : State) : Prop where
  cmd : t.cmd = s.cmd := by simp
  arg0 : t.arg0 = s.arg0 := by simp
  arg1 : t.arg1 = s.arg1 := by simp
  cause : t.cause = s.cause := by simp
  finfo : t.finfo = s.finfo := by simp
  ibuf : t.ibuf = s.ibuf ∨ .ibuf ∈ ws := by simp [spacesWritten]
  cbuf : t.cbuf = s.cbuf ∨ .cbuf ∈ ws := by simp [spacesWritten]
  dict : t.dict = s.dict ∨ .dict ∈ ws := by simp [spacesWritten]
  oidx : t.oidx = s.oidx ∨ .oidx ∈ ws := by simp [spacesWritten]
  pbuf : t.pbuf = s.pbuf ∨ .pbuf ∈ ws := by simp [spacesWritten]
  eout : t.eout = s.eout ∨ .eout ∈ ws := by simp [spacesWritten]

/-- A fault was raised, or nothing but the spaces `ws` was written. -/
def State.Spares (s : State) (ws : List Space) (t : State) : Prop :=
  t.mode = .fault ∨ s.Frame ws t

variable {ws : List Space}

theorem State.Frame.trans {s t u : State} (h : s.Frame ws t) (h' : t.Frame ws u) :
    s.Frame ws u where
  cmd := h'.cmd.trans h.cmd
  arg0 := h'.arg0.trans h.arg0
  arg1 := h'.arg1.trans h.arg1
  cause := h'.cause.trans h.cause
  finfo := h'.finfo.trans h.finfo
  ibuf := h'.ibuf.elim (fun e => h.ibuf.imp_left e.trans) .inr
  cbuf := h'.cbuf.elim (fun e => h.cbuf.imp_left e.trans) .inr
  dict := h'.dict.elim (fun e => h.dict.imp_left e.trans) .inr
  oidx := h'.oidx.elim (fun e => h.oidx.imp_left e.trans) .inr
  pbuf := h'.pbuf.elim (fun e => h.pbuf.imp_left e.trans) .inr
  eout := h'.eout.elim (fun e => h.eout.imp_left e.trans) .inr

theorem State.Frame.spares {s t u : State} (h : s.Frame ws t) (h' : t.Spares ws u) :
    s.Spares ws u :=
  h'.imp_right h.trans

/-! ## The guards of a command -/

theorem yields_frame {s t : State} (h : s.Frame ws t) : Yields (s.Spares ws) (.next t) :=
  yields_next (.inr h)

theorem yields_spares_raise (s u : State) (c : Cause) (info : Nat) :
    Yields (s.Spares ws) (.next (u.raise c info)) :=
  yields_next (.inl rfl)

/-- A command guarded by `inMode` owes its body. -/
theorem yields_spares_inMode {need : Mode} {op : Byte} {s : State} {k : Result}
    (hk : s.mode = need → Yields (s.Spares ws) k) : Yields (s.Spares ws) (inMode need op s k) :=
  yields_inMode (.inr {}) (.inl rfl) hk

theorem yields_spares_checked {ok : Prop} [Decidable ok] {c : Cause} {info : Nat} {s : State}
    {k : Result} (hk : Yields (s.Spares ws) k) : Yields (s.Spares ws) (checked ok c info s k) :=
  yields_checked (.inl rfl) fun _ => hk

theorem yields_spares_inRun {s : State} {k : Result} (hk : Yields (s.Spares ws) k) :
    Yields (s.Spares ws) (inRun s k) := by
  unfold inRun
  split
  · exact hk
  · exact yields_refused

/-! ## The commands that read (R121 to R127, R142) -/

theorem execRdU8_spares (s : State) : Yields (s.Spares []) (execRdU8 s) := by
  refine yields_spares_inMode fun _ => ?_
  by_cases hr : s.rpos < s.ilen
  · rw [readByte_some hr]
    exact yields_frame {}
  · rw [readByte_none (by omega)]
    exact yields_spares_raise s s _ _

theorem execRdU16_spares (s : State) : Yields (s.Spares []) (execRdU16 s) := by
  refine yields_spares_inMode fun _ => ?_
  by_cases hr : s.rpos + 2 ≤ s.ilen
  · rw [readRun_some hr]
    split
    · rename_i e
      obtain ⟨-, rfl⟩ := Prod.mk.inj (Option.some.inj e)
      exact yields_frame {}
    · exact yields_spares_raise s s _ _
  · rw [readRun_none (by omega)]
    exact yields_spares_raise s s _ _

theorem execRdExpect_spares (k : Word) (s : State) : Yields (s.Spares []) (execRdExpect k s) := by
  refine yields_spares_inMode fun _ => yields_spares_checked ?_
  by_cases hr : s.rpos < s.ilen
  · rw [readByte_some hr]
    dsimp only
    split
    · exact yields_frame {}
    · exact yields_spares_raise s _ _ _
  · rw [readByte_none (by omega)]
    exact yields_spares_raise s s _ _

theorem execRdBytes_spares (n : Word) (s : State) :
    Yields (s.Spares [.cbuf]) (execRdBytes n s) := by
  refine yields_spares_inMode fun _ => ?_
  by_cases hr : s.rpos + n.toNat ≤ s.ilen
  · rw [readRun_some hr]
    exact yields_frame {}
  · rw [readRun_none (by omega)]
    exact yields_spares_raise s s _ _

/-- The body of `RD_SUBBLOCKS` writes `CBUF` only (R126). -/
theorem readSubblocks_spares {s : State} (hm : s.mode = .idle) :
    Yields (s.Spares [.cbuf]) (readSubblocks s) := by
  obtain ⟨t, ht, rfl | ⟨-, -, -, e⟩⟩ := readSubblocks_cases hm <;> rw [ht]
  · exact yields_spares_raise s s _ _
  · rw [e]
    exact yields_frame {}

theorem execRdImagedata_spares (s : State) : Yields (s.Spares [.cbuf]) (execRdImagedata s) := by
  refine yields_spares_inMode fun hm => ?_
  by_cases hr : s.rpos < s.ilen
  · rw [readByte_some hr]
    dsimp only
    cases e : readSubblocks { s with rpos := s.rpos + 1 } with
    | next u =>
      have hu := readSubblocks_spares (s := { s with rpos := s.rpos + 1 }) hm u e
      dsimp only
      split
      · exact yields_next (.inl ‹_›)
      · have hs : s.Frame [.cbuf] { s with rpos := s.rpos + 1 } := {}
        exact yields_frame ((hs.trans (hu.resolve_left ‹_›)).trans {})
    | fault => exact yields_fault
    | refused => exact yields_refused
  · rw [readByte_none (by omega)]
    exact yields_spares_raise s s _ _

theorem execBrGet_spares (w : Word) (s : State) : Yields (s.Spares []) (execBrGet w s) := by
  refine yields_spares_inMode fun _ => yields_spares_checked ?_
  by_cases hb : s.bitpos + w.toNat ≤ 8 * s.clen
  · rw [getBits_some hb]
    exact yields_frame {}
  · rw [getBits_none (by omega)]
    exact yields_frame {}

/-! ## The decoder (R151 to R160) -/

/-- A code's effect on the address spaces is on `OIDX` and `DICT`. -/
theorem CodeEffect.frame_oidx_dict {s t : State} (h : CodeEffect s t) :
    s.Frame [.oidx, .dict] t := by
  rw [h.frame]
  exact {}

theorem emitSeq_spares (c : Code) (q : Option (List Byte)) (s : State) :
    Yields (s.Spares [.oidx, .dict]) (emitSeq c q s) :=
  fun _ ht => .inr (emitSeq_effect ht).1.frame_oidx_dict

/-- One step of the decoder writes `OIDX` and `DICT` only. -/
theorem stepCode_spares (s : State) : Yields (s.Spares [.oidx, .dict]) (stepCode s) := by
  intro t ht
  obtain ⟨-, ⟨-, rfl⟩ | ⟨-, -, hf | he⟩⟩ := stepCode_cases ht
  · exact .inr {}
  · exact .inl hf
  · have hs : s.Frame [.oidx, .dict] { s with bitpos := s.bitpos + s.cw } := {}
    exact .inr (hs.trans he.frame_oidx_dict)

/-- The loop of `DEC_RUN` writes what its steps write (R160). -/
theorem decLoop_spares (k : Nat) (s : State) :
    Yields (s.Spares [.oidx, .dict]) (decLoop k s) := by
  induction k generalizing s with
  | zero => exact yields_fault
  | succ k ih =>
    rw [decLoop_succ]
    cases e : stepCode s with
    | next t =>
      have ht := stepCode_spares s t e
      dsimp only
      split
      · rename_i hm
        have hf : t.mode ≠ .fault := by simp [hm]
        exact fun u hu => (ht.resolve_left hf).spares (ih t u hu)
      · exact yields_next ht
    | fault => exact yields_fault
    | refused => exact yields_refused

/-! ## The encoder (R181 to R187) -/

/-- One symbol of the walk writes `PBUF` and `DICT` only (R183 to R185). -/
theorem walk_frame (y : Byte) (s : State) : s.Frame [.pbuf, .dict] (walk y s) := by
  unfold walk
  split
  · exact {}
  · split
    · exact {}
    · unfold emitInsert
      exact {}

theorem execEncEnd_spares (s : State) : Yields (s.Spares [.pbuf, .eout]) (execEncEnd s) := by
  refine yields_spares_inMode fun _ => yields_codecOk fun _ => ?_
  obtain ⟨v, w, e⟩ := putCandidate_frame s
  rw [e, putEoi]
  exact yields_frame {}

theorem execIllegal_spares (op : Byte) (s : State) : Yields (s.Spares []) (execIllegal op s) := by
  unfold execIllegal
  split
  · exact yields_frame {}
  · exact yields_spares_raise s s _ _

/-! ## Every instruction -/

/-- An instruction other than `RESET` writes the spaces R50 lists for it, or raises. -/
theorem exec_spares {i : Instr} (hi : i ≠ .reset) (s : State) :
    Yields (s.Spares (spacesWritten i)) (exec i s) := by
  cases i with
  | reset => exact absurd rfl hi
  | nop => exact yields_frame {}
  | rdU8 => exact execRdU8_spares s
  | rdU16 => exact execRdU16_spares s
  | rdExpect k => exact execRdExpect_spares k s
  | rdBytes n => exact execRdBytes_spares n s
  | rdSubblocks => exact yields_spares_inMode readSubblocks_spares
  | rdImagedata => exact execRdImagedata_spares s
  | brGet w => exact execBrGet_spares w s
  | rdOpen | cbLoad | decStart | encStart | wrU8 | wrU16 =>
    exact yields_spares_inMode fun _ => yields_spares_checked (yields_frame {})
  | brRewind | wrOpen | bwFlush | wrSubblocks =>
    exact yields_spares_inMode fun _ => yields_frame {}
  | bwPut v w =>
    exact yields_spares_inMode fun _ => yields_spares_checked <| yields_spares_checked <|
      yields_frame {}
  | decStep => exact yields_spares_inMode fun _ => stepCode_spares s
  | decRun => exact yields_spares_inMode fun _ => decLoop_spares _ s
  | encPut sym =>
    exact yields_spares_inMode fun _ => yields_codecOk fun _ => yields_spares_checked <|
      yields_frame (walk_frame _ s)
  | encEnd => exact execEncEnd_spares s
  | illegal op => exact execIllegal_spares op s
  | clear | eoi => exact yields_asClass fun _ _ _ => yields_frame {}
  | literal | dict | kwkwk => exact yields_asClass fun _ _ _ => emitSeq_spares _ _ s
  | invalid => exact yields_asClass fun _ _ _ => yields_spares_raise s s _ _
  | sbData | sbEnd => exact yields_spares_inRun (yields_frame {})

/-- Settles O47: outside a fault an instruction writes only the spaces R50 lists for it. -/
theorem buffersHaveTheirWriters : Obligations.BuffersHaveTheirWriters := by
  intro i s t ht hf hi
  obtain ⟨hcmd, harg0, harg1, hcause, hfinfo, hibuf, hcbuf, hdict, hoidx, hpbuf, heout⟩ :=
    (exec_spares hi s t ht).resolve_left hf
  exact ⟨hcmd, harg0, harg1, hcause, hfinfo, hibuf, hcbuf, hdict, hoidx, hpbuf, heout⟩

end Sys2Proof.Machine
end

section
/-! SUPPORT. The three formats of R80 read back: the opcode map and its unassigned opcodes (R82,
R83), a command's number, the sub-block tokens (R90), the classes of a code (R86). -/

namespace Sys2Proof

/-! ## Commands -/

theorem unassigned_iff {op : Byte} : unassigned op = true ↔
    0x02 ≤ op.toNat ∧ op.toNat ≤ 0x0F ∨ 0x17 ≤ op.toNat ∧ op.toNat ≤ 0x1F ∨
    0x23 ≤ op.toNat ∧ op.toNat ≤ 0x2F ∨ 0x33 ≤ op.toNat ∧ op.toNat ≤ 0x3F ∨
    0x43 ≤ op.toNat ∧ op.toNat ≤ 0x4F ∨ 0x56 ≤ op.toNat ∧ op.toNat ≤ 0xFF := by
  simp [unassigned, or_assoc]

/-- The opcode map gives an opcode `ILLEGAL` exactly where R83 lists it: each of its 24 opcodes is
in no range of R83, and the ranges leave out no other. -/
theorem decodeCommand_illegal_iff (w : CmdWords) :
    decodeCommand w = .illegal w.op ↔ unassigned w.op = true := by
  rw [unassigned_iff, decodeCommand]
  split
  case h_25 =>
    simp only [imp_false] at *
    simp only [true_iff]
    omega
  all_goals
    rename_i hop
    simp [hop]

/-- A command is read back from its registers (R82). -/
theorem decodeCommand_encode {i : Instr} {w : CmdWords} (hi : i.wellFormed = true)
    (h : encode i = .command w) : decodeCommand w = i := by
  cases i with
  | clear | eoi | literal | dict | kwkwk | invalid | sbData | sbEnd => cases h
  | illegal op => cases h; exact (decodeCommand_illegal_iff _).mpr hi
  | _ => cases h; rfl

/-- The number of a command's registers holds all of them (log 15). -/
theorem ofNumber_number {w : CmdWords} (hd : w.data = []) : CmdWords.ofNumber w.number = w := by
  obtain ⟨op, arg0, arg1, data⟩ := w
  cases hd
  have hop := op.isLt
  have harg0 := arg0.isLt
  have harg1 := arg1.isLt
  simp only [CmdWords.ofNumber, CmdWords.number, CmdWords.mk.injEq, and_true]
  refine ⟨BitVec.eq_of_toNat_eq ?_, BitVec.eq_of_toNat_eq ?_, BitVec.eq_of_toNat_eq ?_⟩ <;>
    rw [BitVec.toNat_ofNat] <;> omega

/-- A row that is no code's is read as a command. -/
theorem decodeTableWord_command {nbits : Nat} (h : isCodeRow nbits = false) (n : Nat) :
    decodeTableWord nbits n = some (decodeCommand (CmdWords.ofNumber n)) := by
  simp [decodeTableWord, h]

/-! ## Sub-block tokens -/

/-- A size byte and as many bytes of payload are a data token, whatever follows (R90). -/
theorem decodeToken_payload {n : Byte} {p : List Byte} (h0 : n ≠ 0) (hn : n.toNat = p.length)
    (rest : List Byte) : decodeToken (n :: p ++ rest) = .ok (.sbData n p) rest := by
  have hl : n.toNat ≤ (p ++ rest).length := by simp [hn]
  rw [List.cons_append, Machine.decodeToken_data h0 hl, hn, List.take_left, List.drop_left]

/-- A token is read back from its bytes (R90). -/
theorem decodeToken_encode {i : Instr} {bytes : List Byte} (hi : i.wellFormed = true)
    (h : encode i = .token bytes) (rest : List Byte) : decodeToken (bytes ++ rest) = .ok i rest := by
  cases i with
  | sbData n p =>
    cases h
    obtain ⟨h0, hn⟩ : n.toNat ≠ 0 ∧ n.toNat = p.length := by simpa [Instr.wellFormed] using hi
    exact decodeToken_payload (fun e => h0 (by simp [e])) hn rest
  | sbEnd => cases h; exact Machine.decodeToken_end rest
  | _ => cases h

/-! ## Codes -/

theorem classify_of_classCondition {x : CodeContext} {c : Code} {k : CodeClass}
    (h : Machine.ClassCondition x c k) : classify x c = k := by
  cases k with
  | clear => exact if_pos h
  | eoi =>
    have hc : c.toNat = 2 ^ x.mcs + 1 := h
    simp [classify, hc]
  | literal => exact Machine.classify_literal h
  | dict => exact Machine.classify_dict h.1 h.2
  | kwkwk => exact Machine.classify_kwkwk h.1 h.2.1 h.2.2
  | invalid =>
    obtain ⟨hdyn, hnext, hnot⟩ := h
    rw [classify, if_neg (by omega), if_neg (by omega), if_neg (by omega), if_neg (by omega),
      if_neg hnot]

/-- A code has the class whose condition it meets, and no other (R86). -/
theorem classify_eq_iff {x : CodeContext} {c : Code} {k : CodeClass} :
    classify x c = k ↔ Machine.ClassCondition x c k :=
  ⟨Machine.classCondition_of_classify, classify_of_classCondition⟩

end Sys2Proof

namespace Sys2Proof.Machine

/-- A code stands in the packed stream at the position it was written to (R85). -/
theorem code_of_putBits {s : State} (h : s.PartialOk) {c : Code} {w : Nat} (hc : c.toNat < 2 ^ w) :
    BitVec.ofNat 12 (field (putBits c.toNat w s).stream s.streamPos w) = c := by
  rw [putBits_field h hc, BitVec.ofNat_toNat, BitVec.setWidth_eq]

/-- Settles O59, one format at a time. -/
theorem decodingInvertsEncoding : Obligations.DecodingInvertsEncoding := by
  refine ⟨fun i w x hi h => ⟨?_, fun hd => ?_⟩,
    fun i bytes rest hi h => decodeToken_encode hi h rest,
    fun i c x s t w _ hi hc _ hn ha ht => ?_⟩
  · rw [h, decode, decodeCommand_encode hi h]
  · rw [decodeTableWord_command (by decide), ofNumber_number hd, decodeCommand_encode hi h]
  · subst ht
    exact (congrArg (decodeCode x) (code_of_putBits ⟨hn, ha⟩ hc)).trans hi

/-- Settles O23: the conditions of `ClassCondition`, whose bound on dynamic codes follows from
R14's on `NEXT`. -/
theorem codeClassesByCondition : Obligations.CodeClassesByCondition := by
  intro x c hx
  refine ⟨classify_eq_iff, classify_eq_iff, classify_eq_iff, classify_eq_iff,
    classify_eq_iff.trans ?_, classify_eq_iff.trans ?_⟩
  · rw [ClassCondition, ← Option.isSome_iff_ne_none]
    exact ⟨And.right, fun h => ⟨h.1 ▸ hx, h⟩⟩
  · rw [ClassCondition, ← Option.not_isSome_iff_eq_none]
    constructor
    · rintro ⟨-, hge, hnot⟩
      rcases hge.lt_or_eq with hgt | heq
      · exact .inl hgt
      · exact .inr ⟨heq.symm, fun hp => hnot ⟨heq.symm, hp⟩⟩
    · rintro (hgt | ⟨heq, hp⟩)
      · exact ⟨by omega, hgt.le, fun h => by omega⟩
      · exact ⟨by omega, heq.ge, fun h => hp h.2⟩

/-- Settles O3: the opcode map and the one fault of `ILLEGAL`. -/
theorem unassignedOpcodesRaiseIllegalCommand : Obligations.UnassignedOpcodesRaiseIllegalCommand := by
  refine fun op a0 a1 d s =>
    ⟨(decodeCommand_illegal_iff ⟨op, a0, a1, d⟩).symm, fun hm => ?_, fun hm => if_pos hm⟩
  rw [exec, execIllegal, if_neg hm]
  exact raises_raise _ _

/-- Settles O17: both tokens run in `IDLE`, and a payload of 1 to 255 bytes has a size byte other
than the terminator. -/
theorem subblockTokensGatherAndDeliver : Obligations.SubblockTokensGatherAndDeliver := by
  refine ⟨fun s n p hm => ⟨?_, ?_⟩, decodeToken_end, fun p rest h1 h2 => ?_⟩
  · rw [exec, execSbData, inRun_ok hm]
  · rw [exec, execSbEnd, inRun_ok hm, State.loadCbuf]
  have hn : (BitVec.ofNat 8 p.length).toNat = p.length := by
    rw [BitVec.toNat_ofNat, Nat.mod_eq_of_lt (by omega)]
  have h0 : BitVec.ofNat 8 p.length ≠ 0 := by
    intro e
    have hlen : p.length = 0 := hn.symm.trans (congrArg BitVec.toNat e)
    omega
  exact decodeToken_payload h0 hn rest

/-- Settles O60: the three decoders on the eight words. -/
theorem knownWordsDecode : Obligations.KnownWordsDecode := by
  unfold Obligations.KnownWordsDecode
  decide

end Sys2Proof.Machine
end

section
/-! SUPPORT. The byte reader's commands in `IDLE` mode, one equation per outcome (R120 to R125). -/

namespace Sys2Proof.Machine

theorem inMode_idle {op : Byte} {s : State} {k : Result} (hm : s.mode = .idle) :
    inMode .idle op s k = k :=
  inMode_legal hm (by decide)

theorem raises_underrun (s : State) : Raises s (.next s.underrun) .malformedStream s.ilen :=
  raises_raise _ _

/-- `ReadByte` by the byte itself (R120). -/
theorem readByte_of_getElem? {s : State} {b : Byte} (hb : s.ibuf[s.rpos]? = some b) :
    readByte s = some (b, { s with rpos := s.rpos + 1 }) := by
  rw [readByte, hb]

theorem rpos_lt_of_getElem? {s : State} {b : Byte} (hb : s.ibuf[s.rpos]? = some b) :
    s.rpos < s.ilen :=
  (List.getElem?_eq_some_iff.mp hb).1

/-- A byte stands at `RPOS`, or none is left. -/
theorem byte_or_end (s : State) : (∃ b, s.ibuf[s.rpos]? = some b) ∨ s.ilen ≤ s.rpos :=
  (lt_or_ge s.rpos s.ilen).imp_left fun h => ⟨_, List.getElem?_eq_getElem h⟩

section
variable {s : State} (hm : s.mode = .idle)
include hm

theorem execRdU8_byte {b : Byte} (hb : s.ibuf[s.rpos]? = some b) :
    execRdU8 s = .next { s with rpos := s.rpos + 1, result := b.setWidth 16 } := by
  rw [execRdU8, inMode_idle hm, readByte_of_getElem? hb]

theorem execRdU8_underrun (h : s.ilen ≤ s.rpos) : execRdU8 s = .next s.underrun := by
  rw [execRdU8, inMode_idle hm, readByte_none h]

theorem execRdU16_bytes {lo hi : Byte} (hlo : s.ibuf[s.rpos]? = some lo)
    (hhi : s.ibuf[s.rpos + 1]? = some hi) :
    execRdU16 s = .next { s with rpos := s.rpos + 2, result := u16Value lo hi } := by
  obtain ⟨h0, rfl⟩ := List.getElem?_eq_some_iff.mp hlo
  obtain ⟨h1, rfl⟩ := List.getElem?_eq_some_iff.mp hhi
  have hrun : (s.ibuf.drop s.rpos).take 2 = [s.ibuf[s.rpos], s.ibuf[s.rpos + 1]] := by
    rw [List.drop_eq_getElem_cons h0, List.drop_eq_getElem_cons h1]
    rfl
  rw [execRdU16, inMode_idle hm, readRun_some (by exact h1), hrun]

theorem execRdU16_underrun (h : s.ilen < s.rpos + 2) : execRdU16 s = .next s.underrun := by
  rw [execRdU16, inMode_idle hm, readRun_none h]

theorem execRdExpect_range {k : Word} (hk : ¬ byteInRange k) :
    execRdExpect k s = .next (s.raise .badOperand opRdExpect.toNat) := by
  rw [execRdExpect, inMode_idle hm, checked_bad hk]

theorem execRdExpect_byte {k : Word} (hk : byteInRange k) {b : Byte}
    (hb : s.ibuf[s.rpos]? = some b) :
    execRdExpect k s =
      if b.toNat = k.toNat then .next { s with rpos := s.rpos + 1, result := b.setWidth 16 }
      else .next (s.raise .malformedStream s.rpos) := by
  rw [execRdExpect, inMode_idle hm, checked_ok hk, readByte_of_getElem? hb]
  rfl

theorem execRdExpect_underrun {k : Word} (hk : byteInRange k) (h : s.ilen ≤ s.rpos) :
    execRdExpect k s = .next s.underrun := by
  rw [execRdExpect, inMode_idle hm, checked_ok hk, readByte_none h]

theorem execRdBytes_run {n : Word} (h : s.rpos + n.toNat ≤ s.ilen) :
    execRdBytes n s = .next { s with
      rpos := s.rpos + n.toNat, cbuf := (s.ibuf.drop s.rpos).take n.toNat, bitpos := 0 } := by
  rw [execRdBytes, inMode_idle hm, readRun_some h]
  rfl

theorem execRdBytes_underrun {n : Word} (h : s.ilen < s.rpos + n.toNat) :
    execRdBytes n s = .next s.underrun := by
  rw [execRdBytes, inMode_idle hm, readRun_none h]

end

/-- Settles O10: the length check, then the new `IBUF`. -/
theorem rdOpenLoadsInput : Obligations.RdOpenLoadsInput := by
  refine fun s a0 a1 d => ⟨rfl, fun hm => ?_⟩
  rw [exec, execRdOpen, inMode_idle hm]
  refine ⟨fun h => ?_, fun h => checked_ok h⟩
  rw [checked_bad (Nat.not_lt.mpr h)]
  exact raises_raise _ _

/-- Settles O11 by the two outcomes of `RD_U8`. -/
theorem rdU8DeliversByte : Obligations.RdU8DeliversByte := by
  refine fun s a0 a1 d => ⟨rfl, fun hm => ⟨fun b => execRdU8_byte hm, fun h => ?_⟩⟩
  rw [exec, execRdU8_underrun hm h]
  exact raises_underrun s

/-- Settles O12 by the two outcomes of `RD_U16`. -/
theorem rdU16DeliversLittleEndian : Obligations.RdU16DeliversLittleEndian := by
  refine fun s a0 a1 d => ⟨rfl, fun hm => ⟨fun lo hi => execRdU16_bytes hm, fun h => ?_⟩⟩
  rw [exec, execRdU16_underrun hm h]
  exact raises_underrun s

/-- Settles O13 by the outcomes of `RD_EXPECT`, the operand check first. -/
theorem rdExpectChecksByte : Obligations.RdExpectChecksByte := by
  refine fun s k a1 d => ⟨rfl, fun hm => ⟨fun h => ?_, fun hk => ⟨fun b hb => ?_, fun h => ?_⟩⟩⟩
  · rw [exec, execRdExpect_range hm (Nat.not_le.mpr h)]
    exact raises_raise _ _
  · rw [exec, execRdExpect_byte hm hk hb]
    refine ⟨fun e => if_pos e, fun e => ?_⟩
    rw [if_neg e]
    exact raises_raise _ _
  · rw [exec, execRdExpect_underrun hm hk h]
    exact raises_underrun s

/-- Settles O14 by the two outcomes of `RD_BYTES`. -/
theorem rdBytesFillsCbuf : Obligations.RdBytesFillsCbuf := by
  refine fun s n a1 d => ⟨rfl, fun hm => ⟨execRdBytes_run hm, fun h => ?_⟩⟩
  rw [exec, execRdBytes_underrun hm h]
  exact raises_underrun s

end Sys2Proof.Machine
end

section
/-! SUPPORT. Sub-block runs of any sizes 1 to 255 (R90): `RD_SUBBLOCKS` delivers the payload exactly
where one stands at `RPOS` (R126), and `RD_IMAGEDATA` is `RD_U8` before it (R127). -/

namespace Sys2Proof

theorem runBytes_cons (b : List Byte) (bs : List (List Byte)) :
    runBytes (b :: bs) = BitVec.ofNat 8 b.length :: b ++ runBytes bs := by
  simp [runBytes]

theorem legalBlocks_cons {b : List Byte} {bs : List (List Byte)} :
    LegalBlocks (b :: bs) ↔ (1 ≤ b.length ∧ b.length ≤ 255) ∧ LegalBlocks bs :=
  List.forall_mem_cons

/-- The data token of a legal block is an instruction (R90). -/
theorem wellFormed_block {b : List Byte} (h1 : 1 ≤ b.length) (h2 : b.length ≤ 255) :
    (Instr.sbData (BitVec.ofNat 8 b.length) b).wellFormed = true := by
  have hn : (BitVec.ofNat 8 b.length).toNat = b.length :=
    Nat.mod_eq_of_lt (Nat.lt_succ_of_le h2)
  simp only [Instr.wellFormed, hn, bne_iff_ne, Bool.and_eq_true, beq_self_eq_true, and_true]
  omega

/-- The size byte of a data token that is an instruction counts its payload (R90). -/
theorem block_of_wellFormed {n : Byte} {p : List Byte} (h : (Instr.sbData n p).wellFormed = true) :
    n = BitVec.ofNat 8 p.length ∧ 1 ≤ p.length ∧ p.length ≤ 255 := by
  obtain ⟨h0, hn⟩ : n.toNat ≠ 0 ∧ n.toNat = p.length := by simpa [Instr.wellFormed] using h
  have hlt := n.isLt
  exact ⟨by rw [← hn, BitVec.ofNat_toNat, BitVec.setWidth_eq], by omega, by omega⟩

/-- What the token decoder reads is a token's bytes and what follows them (R90); the converse of
`decodeToken_encode`. -/
theorem decodeToken_ok {bytes rest : List Byte} {i : Instr} (h : decodeToken bytes = .ok i rest) :
    i.wellFormed = true ∧ ∃ tok, encode i = .token tok ∧ bytes = tok ++ rest := by
  cases bytes with
  | nil => cases h
  | cons n bytes =>
    rw [decodeToken] at h
    split at h
    · rename_i h0
      cases h
      exact ⟨rfl, [0], rfl, by rw [h0]; rfl⟩
    · split at h
      · cases h
      · rename_i h0 hl
        cases h
        have hlen : (bytes.take n.toNat).length = n.toNat :=
          List.length_take_of_le (Nat.not_lt.mp hl)
        have hn : n.toNat ≠ 0 := fun e => h0 (BitVec.eq_of_toNat_eq e)
        refine ⟨by simp [Instr.wellFormed, hlen, hn], _, rfl, ?_⟩
        rw [List.cons_append, List.take_append_drop]

end Sys2Proof

namespace Sys2Proof.Machine

/-- A run of sub-blocks of any sizes stands at `RPOS` (R90, R126). -/
def State.RunAt (s : State) : Prop :=
  ∃ blocks rest, LegalBlocks blocks ∧ s.ibuf.drop s.rpos = runBytes blocks ++ rest

/-! ## The token at `RPOS` -/

theorem fetchToken_of_token {s : State} {i : Instr} {tok rest : List Byte}
    (hi : i.wellFormed = true) (he : encode i = .token tok)
    (h : s.ibuf.drop s.rpos = tok ++ rest) :
    fetchToken s = some (i, { s with rpos := s.rpos + tokenLength i }) := by
  rw [fetchToken, h, decodeToken_encode hi he]

theorem drop_add_of_append {l a rest : List Byte} {n : Nat} (h : l.drop n = a ++ rest) :
    l.drop (n + a.length) = rest := by
  rw [← List.drop_drop, h, List.drop_left]

/-- A fetched token is an instruction whose bytes stand at `RPOS` (R90). -/
theorem fetchToken_bytes {s t : State} {i : Instr} (h : fetchToken s = some (i, t)) :
    i.wellFormed = true ∧
      ∃ tok rest, encode i = .token tok ∧ s.ibuf.drop s.rpos = tok ++ rest := by
  rw [fetchToken] at h
  cases hd : decodeToken (s.ibuf.drop s.rpos) with
  | rejected e => rw [hd] at h; cases h
  | ok i rest =>
    rw [hd] at h
    cases h
    obtain ⟨hwf, tok, he, hbytes⟩ := decodeToken_ok hd
    exact ⟨hwf, tok, rest, he, hbytes⟩

/-- A fetched data token is a legal block, and the rest of `IBUF` is what the block precedes. -/
theorem fetchToken_data {s t : State} {n : Byte} {p : List Byte}
    (h : fetchToken s = some (.sbData n p, t)) :
    (1 ≤ p.length ∧ p.length ≤ 255) ∧
      s.ibuf.drop s.rpos = BitVec.ofNat 8 p.length :: p ++ t.ibuf.drop t.rpos := by
  obtain ⟨rfl, -, -⟩ := fetchToken_some h
  obtain ⟨hwf, _, rest, ⟨⟩, hbytes⟩ := fetchToken_bytes h
  obtain ⟨rfl, hp⟩ := block_of_wellFormed hwf
  exact ⟨hp, hbytes.trans (congrArg _ (drop_add_of_append hbytes).symm)⟩

/-! ## The loop of R126 -/

/-- From a run at `RPOS` the loop delivers what was gathered and the run's payload. -/
theorem runTokens_run {k : Nat} {s : State} {blocks : List (List Byte)} {rest : List Byte}
    (hm : s.mode = .idle) (hk : (runBytes blocks).length ≤ k) (hb : LegalBlocks blocks)
    (h : s.ibuf.drop s.rpos = runBytes blocks ++ rest) :
    runTokens k s = .next { s with
      rpos := s.rpos + (runBytes blocks).length, cbuf := s.pay ++ blocks.flatten, bitpos := 0,
      pay := [] } := by
  induction blocks generalizing k s with
  | nil =>
    obtain _ | k := k
    · cases hk
    · rw [runTokens_succ k hm, fetchToken_of_token (i := .sbEnd) rfl rfl h, List.flatten_nil,
        List.append_nil]
      rfl
  | cons b bs ih =>
    obtain _ | k := k
    · cases hk
    obtain ⟨⟨h1, h2⟩, hbs⟩ := legalBlocks_cons.mp hb
    rw [runBytes_cons, List.length_append, List.length_cons] at hk
    rw [runBytes_cons, List.append_assoc] at h
    rw [runTokens_succ k hm, fetchToken_of_token (wellFormed_block h1 h2) rfl h]
    dsimp only
    rw [ih (by exact hm) (by omega) hbs (drop_add_of_append h), runBytes_cons,
      List.length_append, List.flatten_cons, ← List.append_assoc, ← Nat.add_assoc]
    rfl

/-- The loop raises, or a run stands at `RPOS`. -/
theorem underrun_or_runAt_of_runTokens {k : Nat} {s t : State} (hm : s.mode = .idle)
    (h : runTokens k s = .next t) : t = s.underrun ∨ s.RunAt := by
  induction k generalizing s with
  | zero => cases h
  | succ k ih =>
    rw [runTokens_succ k hm] at h
    cases hf : fetchToken s with
    | none =>
      rw [hf] at h
      exact .inl (Host.Outcome.next.inj h).symm
    | some iu =>
      obtain ⟨i, u⟩ := iu
      obtain ⟨hu, -, rfl | ⟨n, p, rfl⟩⟩ := fetchToken_some hf
      · obtain ⟨-, _, rest, ⟨⟩, hr⟩ := fetchToken_bytes hf
        exact .inr ⟨[], rest, nofun, hr⟩
      · obtain ⟨hp, hd⟩ := fetchToken_data hf
        rw [hf] at h
        rcases ih (by rw [hu]; exact hm) h with e | ⟨bs, rest, hbs, hr⟩
        · exact .inl (by rw [e, hu]; rfl)
        · refine .inr ⟨p :: bs, rest, legalBlocks_cons.mpr ⟨hp, hbs⟩, ?_⟩
          rw [hd, hr, runBytes_cons, List.append_assoc]

/-! ## The body of `RD_SUBBLOCKS` -/

/-- Where a run stands at `RPOS` its payload becomes `CBUF` (R126). -/
theorem readSubblocks_run {s : State} {blocks : List (List Byte)} {rest : List Byte}
    (hm : s.mode = .idle) (hb : LegalBlocks blocks)
    (h : s.ibuf.drop s.rpos = runBytes blocks ++ rest) :
    readSubblocks s = .next { s with
      rpos := s.rpos + (runBytes blocks).length, cbuf := blocks.flatten, bitpos := 0,
      pay := [] } := by
  have hl := congrArg List.length h
  rw [List.length_drop, List.length_append] at hl
  exact runTokens_run (s := { s with pay := [] }) hm (by unfold State.ilen; omega) hb h

/-- Where none stands the body raises `MalformedStream(ILEN)` (R126). -/
theorem readSubblocks_no_run {s : State} (hm : s.mode = .idle) (h : ¬ s.RunAt) :
    readSubblocks s = .next s.underrun := by
  obtain ⟨t, ht, -⟩ := readSubblocks_cases hm
  have ht' := underrun_or_runAt_of_runTokens (s := { s with pay := [] }) hm ht
  rw [ht, ht'.resolve_right h]
  rfl

/-- Settles O15: the run at `RPOS`, or none. -/
theorem rdSubblocksDeliversPayload : Obligations.RdSubblocksDeliversPayload := by
  refine fun s a0 a1 d => ⟨rfl, fun hm => ?_⟩
  rw [exec, execRdSubblocks, inMode_idle hm]
  refine ⟨fun blocks rest => readSubblocks_run hm, fun h => ?_⟩
  rw [readSubblocks_no_run hm h]
  exact raises_underrun s

/-! ## `RD_IMAGEDATA` -/

theorem execRdImagedata_underrun {s : State} (hm : s.mode = .idle) (h : s.ilen ≤ s.rpos) :
    execRdImagedata s = .next s.underrun := by
  rw [execRdImagedata, inMode_idle hm, readByte_none h]

/-- With a byte at `RPOS`, `RD_IMAGEDATA` is `RD_SUBBLOCKS` past it with the byte in `RESULT`
(R127). -/
theorem execRdImagedata_byte {s : State} (hm : s.mode = .idle) {m : Byte}
    (hb : s.ibuf[s.rpos]? = some m) :
    execRdImagedata s =
      execRdSubblocks { s with rpos := s.rpos + 1, result := m.setWidth 16 } := by
  rw [execRdImagedata, inMode_idle hm, readByte_of_getElem? hb, execRdSubblocks,
    inMode_idle (by exact hm)]
  dsimp only
  by_cases hrun : State.RunAt { s with rpos := s.rpos + 1 }
  · obtain ⟨blocks, rest, hbs, hr⟩ := hrun
    rw [readSubblocks_run (by exact hm) hbs hr, readSubblocks_run (by exact hm) hbs (by exact hr)]
    simp [hm]
  · rw [readSubblocks_no_run (by exact hm) hrun, readSubblocks_no_run (by exact hm) (by exact hrun)]
    rfl

/-- Settles O16: with a byte at `RPOS` by `RD_SUBBLOCKS` past it, and without one by the underrun
that `RD_U8` raises as well. -/
theorem rdImagedataDeliversUnit : Obligations.RdImagedataDeliversUnit := by
  refine fun s a0 a1 d => ⟨rfl, fun hm => ⟨fun m blocks rest hb h => ?_, fun hno => ?_,
    fun t ht hmt => ?_⟩⟩
  · have hbyte : s.ibuf[s.rpos]? = some m := by
      rw [← List.head?_drop, h]
      rfl
    have htail : s.ibuf.drop (s.rpos + 1) = runBytes blocks ++ rest :=
      drop_add_of_append (a := [m]) h
    rw [exec, execRdImagedata_byte hm hbyte, execRdSubblocks, inMode_idle (by exact hm),
      readSubblocks_run (by exact hm) hb (by exact htail)]
  · rcases byte_or_end s with ⟨m, hbyte⟩ | hend
    · have hrun : ¬ State.RunAt { s with rpos := s.rpos + 1, result := m.setWidth 16 } := by
        rintro ⟨blocks, rest, hb, h⟩
        obtain ⟨hlt, rfl⟩ := List.getElem?_eq_some_iff.mp hbyte
        exact hno ⟨_, blocks, rest, hb, (List.drop_eq_getElem_cons hlt).trans (congrArg _ h)⟩
      rw [exec, execRdImagedata_byte hm hbyte, execRdSubblocks, inMode_idle (by exact hm),
        readSubblocks_no_run (by exact hm) hrun]
      exact raises_underrun s
    · rw [exec, execRdImagedata_underrun hm hend]
      exact raises_underrun s
  · rcases byte_or_end s with ⟨m, hbyte⟩ | hend
    · rw [exec, execRdU8_byte hm hbyte] at ht
      cases ht
      exact execRdImagedata_byte hm hbyte
    · rw [exec, execRdU8_underrun hm hend] at ht
      cases ht
      cases hmt

end Sys2Proof.Machine
end

section
/-! SUPPORT. What the commands that read `IBUF` can move (R129). -/

namespace Sys2Proof.Machine

/-- `t` is `s` with `RPOS` moved forward within `IBUF` and nothing else written but `RESULT`, `CBUF`,
the bit cursor and the gathered payload (R129). -/
def State.ReaderMove (s t : State) : Prop :=
  ∃ r v b p y, t = { s with rpos := r, result := v, cbuf := b, bitpos := p, pay := y } ∧
    s.rpos ≤ r ∧ r ≤ s.ilen

/-- A fault was raised, or `t` is a move of the reader from `s`. -/
def State.Reads (s t : State) : Prop := t.mode = .fault ∨ s.ReaderMove t

theorem yields_reads_raise (s u : State) (c : Cause) (info : Nat) :
    Yields s.Reads (.next (u.raise c info)) :=
  yields_next (.inl rfl)

/-- A next state that is a move of the reader by its form. -/
theorem yields_reads_move {s : State} {r p : Nat} {v : BitVec 16} {b y : List Byte}
    (hle : s.rpos ≤ r) (hlen : r ≤ s.ilen) :
    Yields s.Reads
      (.next { s with rpos := r, result := v, cbuf := b, bitpos := p, pay := y }) :=
  yields_next (.inr ⟨r, v, b, p, y, rfl, hle, hlen⟩)

section
variable {s : State} (hm : s.mode = .idle)
include hm

theorem execRdU8_reads : Yields s.Reads (execRdU8 s) := by
  rcases byte_or_end s with ⟨b, hb⟩ | hend
  · rw [execRdU8_byte hm hb]
    exact yields_reads_move (Nat.le_succ _) (rpos_lt_of_getElem? hb)
  · rw [execRdU8_underrun hm hend]
    exact yields_reads_raise s s _ _

theorem execRdU16_reads : Yields s.Reads (execRdU16 s) := by
  rcases Nat.lt_or_ge s.ilen (s.rpos + 2) with hend | hr
  · rw [execRdU16_underrun hm hend]
    exact yields_reads_raise s s _ _
  · rw [execRdU16_bytes hm (List.getElem?_eq_getElem (by unfold State.ilen at hr; omega))
      (List.getElem?_eq_getElem hr)]
    exact yields_reads_move (Nat.le_add_right _ _) hr

theorem execRdExpect_reads (k : Word) : Yields s.Reads (execRdExpect k s) := by
  by_cases hk : byteInRange k
  · rcases byte_or_end s with ⟨b, hb⟩ | hend
    · rw [execRdExpect_byte hm hk hb]
      split
      · exact yields_reads_move (Nat.le_succ _) (rpos_lt_of_getElem? hb)
      · exact yields_reads_raise s s _ _
    · rw [execRdExpect_underrun hm hk hend]
      exact yields_reads_raise s s _ _
  · rw [execRdExpect_range hm hk]
    exact yields_reads_raise s s _ _

theorem execRdBytes_reads (n : Word) : Yields s.Reads (execRdBytes n s) := by
  rcases Nat.lt_or_ge s.ilen (s.rpos + n.toNat) with hend | hr
  · rw [execRdBytes_underrun hm hend]
    exact yields_reads_raise s s _ _
  · rw [execRdBytes_run hm hr]
    exact yields_reads_move (Nat.le_add_right _ _) hr

theorem execRdSubblocks_reads : Yields s.Reads (execRdSubblocks s) := by
  rw [execRdSubblocks, inMode_idle hm]
  obtain ⟨t, ht, rfl | ⟨hle, hlen, -, e⟩⟩ := readSubblocks_cases hm <;> rw [ht]
  · exact yields_reads_raise s s _ _
  · rw [e]
    exact yields_reads_move hle hlen

theorem execRdImagedata_reads : Yields s.Reads (execRdImagedata s) := by
  rcases byte_or_end s with ⟨m, hb⟩ | hend
  · rw [execRdImagedata_byte hm hb]
    intro t ht
    refine (execRdSubblocks_reads (by exact hm) t ht).imp_right ?_
    rintro ⟨r, v, b, p, y, rfl, hle, hlen⟩
    exact ⟨r, v, b, p, y, rfl, (Nat.le_succ _).trans hle, hlen⟩
  · rw [execRdImagedata_underrun hm hend]
    exact yields_reads_raise s s _ _

/-- Every command that reads `IBUF` raises or is a move of the reader (R129). -/
theorem exec_reads {i : Instr} (hi : readsInput i = true) : Yields s.Reads (exec i s) := by
  cases i with
  | rdU8 => exact execRdU8_reads hm
  | rdU16 => exact execRdU16_reads hm
  | rdExpect k => exact execRdExpect_reads hm k
  | rdBytes n => exact execRdBytes_reads hm n
  | rdSubblocks => exact execRdSubblocks_reads hm
  | rdImagedata => exact execRdImagedata_reads hm
  | _ => cases hi

end

/-- Settles O18: a command that completes is a move of the reader, whose form is the frame. -/
theorem readerCommandsKeepTheRest : Obligations.ReaderCommandsKeepTheRest := by
  intro i s t hi hm ht hf
  obtain ⟨r, v, b, p, y, rfl, hle, hlen⟩ := (exec_reads hm hi t ht).resolve_left hf
  exact ⟨hm, hle, fun _ => hlen, by simp⟩

end Sys2Proof.Machine
end

section
/-! SUPPORT. The bit reader's commands in `IDLE` mode, one equation per outcome (R141 to R143), and
two fields read one after the other (R144). -/

namespace Sys2Proof.Machine

/-- The state past a field of `w` bits that `BR_GET` has delivered (R142). -/
def State.takeField (w : Nat) (s : State) : State :=
  { s with
    bitpos := s.bitpos + w, result := BitVec.ofNat 16 (field s.cbuf s.bitpos w), exhf := false }

/-- `RESULT` holds every bit of a field of up to 16. -/
theorem State.takeField_result_toNat (s : State) {w : Nat} (h : w ≤ 16) :
    (s.takeField w).result.toNat = field s.cbuf s.bitpos w :=
  Nat.mod_eq_of_lt <|
    (field_lt s.cbuf s.bitpos w).trans_le (Nat.pow_le_pow_right (by decide) h)

section
variable {s : State} (hm : s.mode = .idle)
include hm

theorem execBrGet_range {w : Word} (hw : ¬ widthInRange w) :
    execBrGet w s = .next (s.raise .badOperand opBrGet.toNat) := by
  rw [execBrGet, inMode_idle hm, checked_bad hw]

theorem execBrGet_field {w : Word} (hw : widthInRange w)
    (hb : s.bitpos + w.toNat ≤ 8 * s.clen) : execBrGet w s = .next (s.takeField w.toNat) := by
  rw [execBrGet, inMode_idle hm, checked_ok hw, getBits_some hb]
  rfl

theorem execBrGet_exhausted {w : Word} (hw : widthInRange w)
    (hb : 8 * s.clen < s.bitpos + w.toNat) : execBrGet w s = .next { s with exhf := true } := by
  rw [execBrGet, inMode_idle hm, checked_ok hw, getBits_none hb]

/-- `BR_GET` of a width given by its number. -/
theorem exec_brGet_ofNat {w : Nat} (h1 : 1 ≤ w) (h16 : w ≤ 16)
    (hb : s.bitpos + w ≤ 8 * s.clen) :
    exec (.brGet (BitVec.ofNat 32 w)) s = .next (s.takeField w) := by
  have hw : (BitVec.ofNat 32 w).toNat = w := Nat.mod_eq_of_lt (by omega)
  have h := execBrGet_field (w := BitVec.ofNat 32 w) hm
  rw [widthInRange, hw] at h
  exact h ⟨h1, h16⟩ hb

end

/-- Settles O21: the three commands deliver their fields, and two fields that follow each other are
one. -/
theorem consecutiveFieldsConcatenate : Obligations.ConsecutiveFieldsConcatenate := by
  intro s w w' hm h1 h1' h16 hb
  refine ⟨s.takeField w, (s.takeField w).takeField w', s.takeField (w + w'),
    exec_brGet_ofNat hm h1 (by omega) (by omega), exec_brGet_ofNat (by exact hm) h1' (by omega) hb,
    exec_brGet_ofNat hm (by omega) h16 (by omega), (Nat.add_assoc _ _ _).symm, ?_⟩
  rw [State.takeField_result_toNat _ h16, State.takeField_result_toNat _ (by omega),
    State.takeField_result_toNat _ (by omega)]
  exact field_add s.cbuf s.bitpos w w'

/-- Settles O19: the length check, then the new `CBUF`. -/
theorem cbLoadReplacesCompressedBytes : Obligations.CbLoadReplacesCompressedBytes := by
  refine fun s a0 a1 d => ⟨rfl, fun hm => ?_⟩
  rw [exec, execCbLoad, inMode_idle hm]
  refine ⟨fun h => ?_, fun h => checked_ok h⟩
  rw [checked_bad (Nat.not_lt.mpr h)]
  exact raises_raise _ _

/-- Settles O20 by the three outcomes of `BR_GET` and the one of `BR_REWIND`. -/
theorem brGetReadsFieldAndBrRewindRewinds : Obligations.BrGetReadsFieldAndBrRewindRewinds := by
  refine fun s w a1 d => ⟨rfl, rfl, fun hm => ⟨fun h => ?_,
    fun h1 h16 => execBrGet_field hm ⟨h1, h16⟩, fun h1 h16 => execBrGet_exhausted hm ⟨h1, h16⟩,
    inMode_idle hm⟩⟩
  have hw : ¬ widthInRange w := fun ⟨h1, h16⟩ => h.elim h1.not_gt h16.not_gt
  rw [exec, execBrGet_range hm hw]
  exact raises_raise _ _

end Sys2Proof.Machine
end

section
/-! SUPPORT. The execution of a code in `DEC` mode, one equation per class (R152 to R157), and
`Append` with a previous code (R158). -/

namespace Sys2Proof.Machine

theorem State.CodecRegs.cw_le {s : State} (h : s.CodecRegs) : s.cw ≤ 12 := by
  obtain ⟨-, -, -, hcw, -, -⟩ := h
  exact hcw

theorem State.CodecRegs.clr_le_next {s : State} (h : s.CodecRegs) : s.clr + 2 ≤ s.next := by
  obtain ⟨-, -, -, -, hnext, -⟩ := h
  exact hnext

/-- A decoded code is executed as its class says (R86). -/
theorem exec_decodeCode (x : CodeContext) (c : Code) (s : State) :
    exec (decodeCode x c) s = runCode (classify x c) c s := by
  unfold decodeCode
  cases classify x c <;> rfl

/-- The common tail of a data code whose sequence is `f :: q` (R151). -/
def State.emit (c : Code) (f : Byte) (q : List Byte) (s : State) : State :=
  { append f { s with oidx := s.oidx ++ f :: q } with prev := some c }

theorem emitSeq_cons (c : Code) (f : Byte) (q : List Byte) (s : State) :
    emitSeq c (some (f :: q)) s = .next (s.emit c f q) := rfl

/-- With a previous code and room in the dictionary `Append` inserts the entry, and the width grows
when the size reaches `2^CW` (R158). -/
theorem append_insert {s : State} {p : Code} (hp : s.prev = some p) (hn : s.next < 4096)
    (f : Byte) :
    append f s = { s.insert p f with
      cw := if s.next + 1 = 2 ^ s.cw ∧ s.cw < 12 then s.cw + 1 else s.cw } := by
  rcases append_cases f s with ⟨hnone, -⟩ | ⟨_, -, hfull, -⟩ | ⟨_, hq, -, hreach, hlt, e⟩ |
    ⟨_, hq, -, hno, e⟩
  · cases hp.symm.trans hnone
  · omega
  · cases hp.symm.trans hq
    rw [e, if_pos ⟨hreach, hlt⟩]
  · cases hp.symm.trans hq
    rw [e, if_neg hno]
    rfl

/-- Without a previous code `Append` does nothing (R158). -/
theorem append_of_prev_none {s : State} (hp : s.prev = none) (f : Byte) : append f s = s := by
  rw [append, hp]

/-- With a full dictionary `Append` does nothing (R158, R166). -/
theorem append_full {s : State} (hn : 4096 ≤ s.next) (f : Byte) : append f s = s := by
  cases hp : s.prev with
  | none => exact append_of_prev_none hp f
  | some p =>
    rw [append, hp]
    exact if_neg (Nat.not_lt.mpr hn)

/-- The entry inserted at `NEXT` stands for the sequence of the code it extends and its symbol
(R29). -/
theorem seq_insert_new {s : State} {p c : Code} {f : Byte} (hn : s.clr + 2 ≤ s.next)
    (hc : c.toNat = s.next) (hp : p.toNat < s.next) :
    (s.insert p f).seq c = (s.seq p).map (· ++ [f]) := by
  have hr : (s.insert p f).dict.read c.toNat = some ⟨p, f⟩ := by
    rw [insert_dict, hc, Memory.read_write_same]
  have hlo : (s.insert p f).clr + 2 ≤ c.toNat := by rw [insert_clr]; omega
  have hhi : c.toNat < (s.insert p f).next := by rw [insert_next]; omega
  rw [seq_dynamic hlo hhi hr (by rw [hc]; exact hp), seq_insert hp]

/-- A code whose sequence is defined has one by R29. -/
theorem isSeqCode_of_seq {s : State} {c : Code} {q : List Byte} (h : s.seq c = some q) :
    s.IsSeqCode c := by
  by_contra hc
  rw [seq_undefined hc] at h
  cases h

section
variable {s : State} {c : Code} (hm : s.mode = .dec) (hr : s.CodecRegs)
include hm hr

/-- A code that meets the condition of a class is executed as that class. -/
theorem asClass_of_condition {want : CodeClass} {k : Result}
    (hc : ClassCondition s.codeContext c want) : asClass want c s k = k :=
  asClass_ok hm hr (classify_eq_iff.mpr hc)

theorem exec_literal (h : c.toNat < s.clr) :
    exec (.literal c) s = .next (s.emit c (c.setWidth 8) []) :=
  asClass_of_condition hm hr h

theorem exec_dict {f : Byte} {q : List Byte} (h1 : s.clr + 2 ≤ c.toNat) (h2 : c.toNat < s.next)
    (hq : s.seq c = some (f :: q)) : exec (.dict c) s = .next (s.emit c f q) := by
  have hcond : ClassCondition s.codeContext c .dict := ⟨h1, h2⟩
  rw [exec, execDict, asClass_of_condition hm hr hcond, hq, emitSeq_cons]

theorem exec_kwkwk {p : Code} {f : Byte} {q : List Byte} (hc : c.toNat = s.next)
    (hp : s.prev = some p) (hq : s.seq p = some (f :: q)) :
    exec (.kwkwk c) s = .next (s.emit c f (q ++ [f])) := by
  have hcond : ClassCondition s.codeContext c .kwkwk :=
    ⟨hc ▸ hr.clr_le_next, hc, Option.isSome_of_eq_some hp⟩
  have hseq : s.kwkwkSeq = some (f :: (q ++ [f])) := by
    rw [State.kwkwkSeq, hp, Option.bind_some, hq]
    rfl
  rw [exec, execKwkwk, asClass_of_condition hm hr hcond, hseq, emitSeq_cons]

theorem exec_invalid (hc : s.next < c.toNat ∨ (c.toNat = s.next ∧ s.prev = none)) :
    exec (.invalid c) s = .next (s.raise .invalidCode c.toNat) := by
  obtain ⟨-, -, -, -, -, hinvalid⟩ := codeClassesByCondition s.codeContext c hr.clr_le_next
  exact asClass_ok hm hr (hinvalid.mpr hc)

end

/-- Settles O30 by what `Append` does without a previous code, with a full dictionary, and
otherwise. -/
theorem appendAddsEntryAndGrows : Obligations.AppendAddsEntryAndGrows := by
  refine fun f s => ⟨fun h => append_of_prev_none h f, fun h => append_full h f,
    fun p hp hn => ⟨append_insert hp hn f, ?_, fun c hc => ?_⟩⟩
  · rw [append_insert hp hn f]
    exact Memory.read_write_same _ _ _
  · rw [append_insert hp hn f]
    exact Memory.read_write_other _ _ hc

/-- Settles O26: each code value meets the condition of its class. -/
theorem controlCodesResetAndStop : Obligations.ControlCodesResetAndStop :=
  fun _ _ hm hr => ⟨fun h => asClass_of_condition hm hr h, fun h => asClass_of_condition hm hr h⟩

/-- Settles O27: the two data codes end in the common tail, and under R30 (a) the sequence of a
dynamic code extends another's. -/
theorem dataCodesEmitTheirSequence : Obligations.DataCodesEmitTheirSequence := by
  refine fun s c hm hr => ⟨exec_literal hm hr, fun f q h1 h2 hq =>
    ⟨exec_dict hm hr h1 h2 hq, fun hd => ?_⟩⟩
  obtain ⟨-, hdyn, -⟩ := sequencesOfCodes s c
  obtain ⟨e, r, -, -, hseq, hlen, -⟩ := hdyn hd h1 h2
  rwa [← Option.some.inj (hseq.symm.trans hq)]

/-- Settles O28: the tail inserts the entry `(p, f)` at `NEXT`, which is the code. -/
theorem kwkwkEmitsExtendedPrevious : Obligations.KwkwkEmitsExtendedPrevious := by
  intro s c p f q hm hr hc hp hq
  have hn : s.next < 4096 := hc ▸ c.isLt
  have hclr := hr.clr_le_next
  have hlt : p.toNat < s.next := ((isSeqCode_of_seq hq).not_control hclr).1
  have hemit := append_insert (s := { s with oidx := s.oidx ++ f :: (q ++ [f]) }) hp hn f
  refine ⟨_, exec_kwkwk hm hr hc hp hq, rfl, ?_, ?_, ?_⟩ <;> rw [State.emit, hemit]
  · rfl
  · rw [hc]
    exact Memory.read_write_same _ _ _
  · have hseq := seq_insert_new (f := f) hclr hc hlt
    rw [hq] at hseq
    exact hseq

/-- Settles O29: the codes of class `INVALID`, of which a full dictionary leaves none below 4096. -/
theorem invalidCodeRaises : Obligations.InvalidCodeRaises := by
  refine fun s c hm hr => ⟨fun hc => ?_, fun hfull hc => ?_⟩
  · rw [exec_invalid hm hr hc]
    exact raises_raise _ _
  · have hlt := c.isLt
    omega

end Sys2Proof.Machine
end

section
/-! SUPPORT. `DEC_START`, and one `DEC_STEP`: exhaustion or the code that is read (R150, R151,
R159); under the invariant it completes (R163, R166). -/

namespace Sys2Proof.Machine

theorem inMode_dec {op : Byte} {s : State} {k : Result} (hm : s.mode = .dec) :
    inMode .dec op s k = k :=
  inMode_legal hm (by decide)

theorem exec_decStep {s : State} (hm : s.mode = .dec) : exec .decStep s = stepCode s :=
  inMode_dec hm

/-- A field of `CW` bits is a code value. -/
theorem code_toNat_of_field {w : Nat} (hw : w ≤ 12) (b : List Byte) (p : Nat) :
    (BitVec.ofNat 12 (field b p w)).toNat = field b p w :=
  Nat.mod_eq_of_lt ((field_lt b p w).trans_le (Nat.pow_le_pow_right (by decide) hw))

/-- Settles O22: the range check, then the registers of R150. -/
theorem decStartInitialisesDecoder : Obligations.DecStartInitialisesDecoder := by
  refine fun s m a1 d => ⟨rfl, fun hm => ?_⟩
  rw [exec, execDecStart, inMode_idle hm]
  refine ⟨fun h => ?_, fun h2 h8 => checked_ok ⟨h2, h8⟩⟩
  have hrange : ¬ mcsInRange m := fun ⟨h2, h8⟩ => h.elim h2.not_gt h8.not_gt
  rw [checked_bad hrange]
  exact raises_raise _ _

/-- Settles O24: the exhausted step, which is the whole run. -/
theorem exhaustionEndsDecode : Obligations.ExhaustionEndsDecode := by
  intro s hm hr hb
  have hstep := stepCode_exhausted hr hb
  refine ⟨(exec_decStep hm).trans hstep, ?_⟩
  rw [exec, execDecRun, inMode_dec hm, decLoop_succ, hstep]
  rfl

/-- Settles O25: the step is the execution of the decoded code past its bits. -/
theorem decStepRunsDecodedCode : Obligations.DecStepRunsDecodedCode := by
  refine fun s a0 a1 d c => ⟨rfl, fun hm hr hb hc => ?_⟩
  have hexec : exec .decStep s =
      exec (decodeCode s.codeContext c) { s with bitpos := s.bitpos + s.cw } := by
    rw [exec_decStep hm, stepCode_code hr hb, exec_decodeCode, hc]
  refine ⟨hc ▸ code_toNat_of_field hr.cw_le _ _, hexec, fun hlit => ?_⟩
  have hclass : decodeCode s.codeContext c = .literal c := by
    rw [decodeCode, classify_literal hlit]
    rfl
  rw [hexec, hclass]
  exact exec_literal hm hr hlit

/-! ## A code under the invariant -/

/-- A code that has a sequence is executed by the common tail (R154, R155). -/
theorem exec_seqCode {s : State} {c : Code} (hm : s.mode = .dec) (hr : s.CodecRegs)
    (hd : s.DictOk) (hc : s.IsSeqCode c) :
    ∃ f q, exec (decodeCode s.codeContext c) s = .next (s.emit c f q) := by
  obtain ⟨f, q, hq, -⟩ := seq_of_isSeqCode hd hc
  rw [decodeCode]
  rcases classify_seqCode hc with ⟨hlit, hclass⟩ | ⟨hlo, hhi, hclass⟩ <;> rw [hclass]
  · exact ⟨_, _, exec_literal hm hr hlit⟩
  · exact ⟨f, q, exec_dict hm hr hlo hhi hq⟩

/-- Under the invariant every code completes: a data code has its sequence (R163). -/
theorem exec_decodeCode_completes {s : State} (h : s.Inv) (hm : s.mode = .dec) (c : Code) :
    ∃ t, exec (decodeCode s.codeContext c) s = .next t := by
  have hd := h.decInv hm
  have hcond := classCondition_classify s.codeContext c
  have hseq : s.IsSeqCode c → ∃ t, exec (decodeCode s.codeContext c) s = .next t := fun hc =>
    have ⟨_, _, e⟩ := exec_seqCode hm hd.regs hd.dictOk hc
    ⟨_, e⟩
  rw [decodeCode] at hseq ⊢
  cases hk : classify s.codeContext c <;> rw [hk] at hcond hseq
  case clear | eoi | invalid => exact ⟨_, asClass_ok hm hd.regs hk⟩
  case literal => exact hseq (.inl hcond)
  case dict => exact hseq (.inr hcond)
  case kwkwk =>
    obtain ⟨-, hnext, hsome⟩ := hcond
    obtain ⟨p, hp⟩ := Option.isSome_iff_exists.mp hsome
    obtain ⟨f, q, hq, -⟩ := seq_of_isSeqCode hd.dictOk (hd.prevCode p hp)
    exact ⟨_, exec_kwkwk hm hd.regs hnext hp hq⟩

/-- Under the invariant one step of the decoder completes (R151, R159). -/
theorem stepCode_completes {s : State} (h : s.Inv) (hm : s.mode = .dec) :
    ∃ t, stepCode s = .next t := by
  have hr := (h.decInv hm).regs
  by_cases hb : s.bitpos + s.cw ≤ 8 * s.clen
  · rw [stepCode_code hr hb]
    dsimp only
    rw [← exec_decodeCode]
    exact exec_decodeCode_completes (h.advanceBits hm hb) hm _
  · exact ⟨_, stepCode_exhausted hr (by omega)⟩

/-- Settles O31: `NEXT = 4096` forces `CW = 12`, lies above every code, and leaves `Append` nothing
to do. -/
theorem fullDictionaryIsFrozen : Obligations.FullDictionaryIsFrozen := by
  intro s c h hm hfull
  have hd := h.decInv hm
  have hlt : c.toNat < s.next := hfull ▸ c.isLt
  have hcw : s.cw = 12 := hd.width.resolve_left fun hw => by
    have hpow : 2 ^ s.cw ≤ 2 ^ 12 := Nat.pow_le_pow_right (by decide) hd.cw_le
    omega
  refine ⟨hcw, fun hk => ?_, fun hk => ?_, fun hclr heoi => ?_⟩
  · obtain ⟨-, hge, -⟩ := classCondition_of_classify hk
    exact absurd hlt hge.not_gt
  · obtain ⟨-, heq, -⟩ := classCondition_of_classify hk
    exact absurd heq hlt.ne
  · have hc : s.IsSeqCode c := by
      unfold State.IsSeqCode State.eoiCode at *
      omega
    obtain ⟨f, q, e⟩ := exec_seqCode hm hd.regs hd.dictOk hc
    refine ⟨_, e, ?_⟩
    rw [State.emit, append_full (s := { s with oidx := s.oidx ++ f :: q }) hfull.ge]
    exact ⟨hm, rfl, rfl, rfl, rfl⟩

end Sys2Proof.Machine
end

section
/-! SUPPORT. `DEC_RUN` (R160, R161): its loop by its steps, the bound on its codes, how it ends. -/

namespace Sys2Proof.Machine

/-- A bound on the codes that `DEC_RUN` reads before its last: each consumes three bits of `CBUF` or
more (R161). -/
def State.codesLeft (s : State) : Nat := (8 * s.clen - s.bitpos) / 3

theorem State.codesLeft_lt (s : State) : s.codesLeft < 8 * s.clen / 3 + 1 := by
  unfold State.codesLeft
  omega

theorem codesLeft_lt_of_stepCode {s t : State} (h : stepCode s = .next t) (hm : t.mode = .dec) :
    t.codesLeft < s.codesLeft := by
  obtain ⟨hpos, hend, hcbuf⟩ := stepCode_progress h hm
  have hclen : t.clen = s.clen := by rw [State.clen, hcbuf, State.clen]
  unfold State.codesLeft
  omega

/-- `DEC_RUN` is its loop with any bound beyond the codes that are left. -/
theorem exec_decRun {k : Nat} {s : State} (hm : s.mode = .dec) (hk : s.codesLeft < k) :
    exec .decRun s = decLoop k s := by
  have hbound := s.codesLeft_lt
  rw [exec, execDecRun, inMode_dec hm]
  exact decLoop_bound (hbound.trans_le (by omega)) hk

/-- What holds of a run: `P` between its codes, `Q` after the last. -/
theorem yields_decLoop {P Q : State → Prop}
    (hstep : ∀ s, P s →
      Yields (fun t => (t.mode = .dec → P t) ∧ (t.mode ≠ .dec → Q t)) (stepCode s))
    (k : Nat) {s : State} (hs : P s) : Yields Q (decLoop k s) := by
  induction k generalizing s with
  | zero => exact yields_fault
  | succ k ih =>
    rw [decLoop_succ]
    cases e : stepCode s with
    | next t =>
      obtain ⟨hgo, hend⟩ := hstep s hs t e
      dsimp only
      split
      · exact ih (hgo ‹_›)
      · exact yields_next (hend ‹_›)
    | fault => exact yields_fault
    | refused => exact yields_refused

/-- Under the invariant the loop completes within its bound (R161). -/
theorem decLoop_completes {k : Nat} {s : State} (h : s.Inv) (hm : s.mode = .dec)
    (hk : s.codesLeft < k) : ∃ t, decLoop k s = .next t := by
  induction k generalizing s with
  | zero => omega
  | succ k ih =>
    obtain ⟨t, ht⟩ := stepCode_completes h hm
    rw [decLoop_succ, ht]
    dsimp only
    split
    · have hlt := codesLeft_lt_of_stepCode ht ‹_›
      exact ih (stepCode_inv h hm t ht) ‹_› (by omega)
    · exact ⟨t, rfl⟩

/-- The loop's bound is not met where it exceeds the codes that are left (R161). -/
theorem decLoop_ne_noProgress {k : Nat} {s : State} (hk : s.codesLeft < k) :
    decLoop k s ≠ .fault .noProgress := by
  induction k generalizing s with
  | zero => omega
  | succ k ih =>
    have hstep := stepCode_ne_noProgress s
    rw [decLoop_succ]
    cases e : stepCode s with
    | next t =>
      dsimp only
      split
      · have hlt := codesLeft_lt_of_stepCode e ‹_›
        exact ih (by omega)
      · nofun
    | fault f =>
      rw [e] at hstep
      exact hstep
    | refused => nofun

/-! ## How a run ends (R22, R160) -/

/-- The decode goes on and neither end was met. -/
def State.Decoding (s : State) : Prop := s.mode = .dec ∧ s.eoif = false ∧ s.exhf = false

/-- The decode ended by a fault, or in `IDLE` by exactly one of `EOI` and exhaustion (R22). -/
def State.Ended (s : State) : Prop := s.mode = .fault ∨ (s.mode = .idle ∧ s.eoif ≠ s.exhf)

/-- One step goes on or ends the decode. -/
theorem stepCode_decoding_or_ended {s t : State} (hs : s.Decoding) (h : stepCode s = .next t) :
    t.Decoding ∨ t.Ended := by
  obtain ⟨hm, heoif, hexhf⟩ := hs
  obtain ⟨-, ⟨-, rfl⟩ | ⟨-, -, hf | he⟩⟩ := stepCode_cases h
  · exact .inr (.inr ⟨rfl, by simp [heoif]⟩)
  · exact .inr (.inl hf)
  · have hexhf' : t.exhf = false := by rw [he.frame]; exact hexhf
    rcases he.ending with ⟨hmode, hflag⟩ | ⟨hmode, hflag⟩
    · exact .inl ⟨hmode.trans hm, hflag.trans heoif, hexhf'⟩
    · exact .inr (.inr ⟨hmode, by simp [hflag, hexhf']⟩)

theorem State.Ended.mode_ne_dec {s : State} (h : s.Ended) : s.mode ≠ .dec := by
  rcases h with h | ⟨h, -⟩ <;> simp [h]

/-- A run from a decode in progress ends it (R160). -/
theorem decLoop_ends (k : Nat) {s : State} (hs : s.Decoding) :
    Yields State.Ended (decLoop k s) := by
  refine yields_decLoop (P := State.Decoding) (fun s hs t ht => ?_) k hs
  rcases stepCode_decoding_or_ended hs ht with hgo | hend
  · exact ⟨fun _ => hgo, fun hm => absurd hgo.1 hm⟩
  · exact ⟨fun hm => absurd hm hend.mode_ne_dec, fun _ => hend⟩

/-- Settles O33: one turn of the loop is a `DEC_STEP`, and the bound leaves room for the rest. -/
theorem decRunIteratesDecStep : Obligations.DecRunIteratesDecStep := by
  refine fun s a0 a1 d => ⟨rfl, fun hm => ?_⟩
  have hrun := exec_decRun hm (Nat.lt_succ_self s.codesLeft)
  have hends : ∀ t, exec .decRun s = .next t → s.eoif = false → s.exhf = false → t.Ended :=
    fun t ht heoif hexhf => decLoop_ends _ ⟨hm, heoif, hexhf⟩ t (hrun ▸ ht)
  refine ⟨fun t ht => ?_, hends, fun h => ?_⟩
  · rw [exec_decStep hm] at ht
    rw [hrun, decLoop_succ, ht]
    exact ⟨fun hd => (if_pos hd).trans (exec_decRun hd (codesLeft_lt_of_stepCode ht hd)).symm,
      fun hd => if_neg hd⟩
  · obtain ⟨t, ht⟩ := decLoop_completes h hm (Nat.lt_succ_self _)
    obtain ⟨heoif, hexhf⟩ := h.noEndYet hm
    exact ⟨t, hrun.trans ht, hends t (hrun.trans ht) heoif hexhf⟩

/-! ## No loop meets its bound (R161, R220) -/

/-- A guarded command stops only where its body does. -/
theorem inMode_ne_fault {need : Mode} {op : Byte} {s : State} {k : Result} {f : Fault}
    (hk : s.mode = need → k ≠ .fault f) : inMode need op s k ≠ .fault f := by
  rcases inMode_cases (need := need) (op := op) (s := s) (k := k) with
    ⟨-, e⟩ | ⟨-, hm, e⟩ | ⟨-, -, e⟩ <;> rw [e]
  · nofun
  · exact hk hm
  · nofun

/-- `RD_SUBBLOCKS` never stops. -/
theorem execRdSubblocks_ne_fault (s : State) (f : Fault) : execRdSubblocks s ≠ .fault f :=
  inMode_ne_fault fun hm => by
    obtain ⟨t, ht, -⟩ := readSubblocks_cases hm
    rw [ht]
    nofun

/-- `RD_IMAGEDATA` never stops: with a byte at `RPOS` it is `RD_SUBBLOCKS` past it. -/
theorem execRdImagedata_ne_fault (s : State) (f : Fault) : execRdImagedata s ≠ .fault f := by
  by_cases hm : s.mode = .idle
  · rcases byte_or_end s with ⟨b, hb⟩ | hend
    · rw [execRdImagedata_byte hm hb]
      exact execRdSubblocks_ne_fault _ f
    · rw [execRdImagedata_underrun hm hend]
      nofun
  · exact inMode_ne_fault fun h => absurd h hm

/-- Settles O34 by the bound on the codes that are left. -/
theorem decRunEndsWithinBound : Obligations.DecRunEndsWithinBound := by
  refine fun s => ⟨fun hm => exec_decRun hm s.codesLeft_lt, inMode_ne_fault fun _ => ?_,
    execRdSubblocks_ne_fault s _, execRdImagedata_ne_fault s _⟩
  have hbound := s.codesLeft_lt
  exact decLoop_ne_noProgress (by omega)

end Sys2Proof.Machine
end

section
/-! SUPPORT. What the decoder leaves alone (R163), and how `CW` moves (R37, R165, R190). -/

namespace Sys2Proof.Machine

/-- A command owes what it completes with in the mode it needs only. -/
theorem yields_fault_or_inMode {P : State → Prop} {need : Mode} {op : Byte} {s : State}
    {k : Result} (hk : s.mode = need → Yields (fun t => t.mode = .fault ∨ P t) k) :
    Yields (fun t => t.mode = .fault ∨ P t) (inMode need op s k) := by
  rcases inMode_cases (need := need) (op := op) (s := s) (k := k) with
    ⟨hf, e⟩ | ⟨-, hm, e⟩ | ⟨-, -, e⟩ <;> rw [e]
  · exact yields_next (.inl hf)
  · exact hk hm
  · exact yields_next (.inl rfl)

/-! ## The decoder's registers (R163) -/

/-- `t` is `s` but for the registers and buffers the decoder writes: `MODE`, `MCS`, `CW`, `NEXT`,
`PREV`, `BITPOS`, `EOIF`, `EXHF`, `DICT` and `OIDX`. -/
def State.DecoderMove (s t : State) : Prop :=
  t = { s with
    mode := t.mode, mcs := t.mcs, cw := t.cw, next := t.next, prev := t.prev, bitpos := t.bitpos,
    eoif := t.eoif, exhf := t.exhf, dict := t.dict, oidx := t.oidx }

/-- A fault was raised, or `t` is a move of the decoder from `s`. -/
def State.Decodes (s t : State) : Prop := t.mode = .fault ∨ s.DecoderMove t

theorem State.DecoderMove.trans {s t u : State} (h : s.DecoderMove t) (h' : t.DecoderMove u) :
    s.DecoderMove u := by
  unfold State.DecoderMove at *
  rw [h', h]

theorem CodeEffect.decoderMove {s t : State} (h : CodeEffect s t) : s.DecoderMove t := by
  unfold State.DecoderMove
  rw [h.frame]

theorem emitSeq_decodes (c : Code) (q : Option (List Byte)) (s : State) :
    Yields s.Decodes (emitSeq c q s) :=
  fun _ ht => .inr (emitSeq_effect ht).1.decoderMove

theorem stepCode_decodes (s : State) : Yields s.Decodes (stepCode s) := by
  intro t ht
  obtain ⟨-, ⟨-, rfl⟩ | ⟨-, -, hf | he⟩⟩ := stepCode_cases ht
  · exact .inr rfl
  · exact .inl hf
  · have hs : s.DecoderMove { s with bitpos := s.bitpos + s.cw } := rfl
    exact .inr (hs.trans he.decoderMove)

/-- A run moves what its steps move (R160). -/
theorem decLoop_decodes (k : Nat) (s : State) : Yields s.Decodes (decLoop k s) := by
  refine yields_decLoop (P := s.DecoderMove) (fun u hu t ht => ?_) k rfl
  have hmove : s.Decodes t := (stepCode_decodes u t ht).imp_right hu.trans
  exact ⟨fun hm => hmove.resolve_left (by simp [hm]), fun _ => hmove⟩

/-- A command or code of the decoder raises or is a move of the decoder (R163). -/
theorem exec_decodes {i : Instr} (hi : decodes i = true) (s : State) :
    Yields s.Decodes (exec i s) := by
  cases i with
  | decStart mcs =>
    exact yields_fault_or_inMode fun _ => yields_checked (.inl rfl) fun _ => yields_next (.inr rfl)
  | decStep => exact yields_fault_or_inMode fun _ => stepCode_decodes s
  | decRun => exact yields_fault_or_inMode fun _ => decLoop_decodes _ s
  | clear | eoi => exact yields_asClass fun _ _ _ => yields_next (.inr rfl)
  | literal | dict | kwkwk => exact yields_asClass fun _ _ _ => emitSeq_decodes _ _ s
  | invalid => exact yields_asClass fun _ _ _ => yields_next (.inl rfl)
  | _ => cases hi

/-- Settles O35: what completes is a move of the decoder, whose form is the frame. -/
theorem decoderKeepsTheRest : Obligations.DecoderKeepsTheRest := by
  intro i s t hi ht hf
  have hmove : s.DecoderMove t := (exec_decodes hi s t ht).resolve_left hf
  rw [hmove]
  simp

/-! ## The code width (R37, R165, R190) -/

/-- From `s` to `t` the width stays or grows by one bit, within R13, and `NEXT` is within R14. -/
def State.WidthStep (s t : State) : Prop :=
  s.cw ≤ t.cw ∧ t.cw ≤ s.cw + 1 ∧ t.cw ≤ 12 ∧ t.next ≤ 4096

/-- A fault was raised, or the codec's registers were in range and the width moved as R37 allows. -/
def State.WidthKept (s t : State) : Prop := t.mode = .fault ∨ (s.CodecRegs ∧ s.WidthStep t)

/-- A state with the same width and size is a width step away. -/
theorem State.CodecRegs.widthStep {s t : State} (hr : s.CodecRegs) (hc : t.cw = s.cw)
    (hn : t.next = s.next) : s.WidthStep t := by
  obtain ⟨-, -, -, hcw, -, hnext⟩ := hr
  rw [State.WidthStep, hc, hn]
  exact ⟨le_rfl, Nat.le_succ _, hcw, hnext⟩

/-- `Append` grows the width by one bit at most (R158, R165). -/
theorem append_widthStep {s : State} (hr : s.CodecRegs) (f : Byte) :
    s.WidthStep (append f s) := by
  have hcw := hr.cw_le
  rcases append_cases f s with ⟨-, e⟩ | ⟨_, -, -, e⟩ | ⟨_, -, hn, -, hlt, e⟩ | ⟨_, -, hn, -, e⟩ <;>
    rw [e]
  · exact hr.widthStep rfl rfl
  · exact hr.widthStep rfl rfl
  · exact ⟨Nat.le_succ _, le_rfl, hlt, hn⟩
  · exact ⟨le_rfl, Nat.le_succ _, hcw, hn⟩

/-- The encoder's insertion grows the width by one bit at most (R185, R190). -/
theorem insertGrow_widthStep {s : State} (hr : s.CodecRegs) (p : Code) (y : Byte) :
    s.WidthStep (insertGrow p y s) := by
  have hcw := hr.cw_le
  rcases insertGrow_cases p y s with ⟨-, e⟩ | ⟨hn, -, hlt, e⟩ | ⟨hn, -, e⟩ <;> rw [e]
  · exact hr.widthStep rfl rfl
  · exact ⟨Nat.le_succ _, le_rfl, hlt, hn⟩
  · exact ⟨le_rfl, Nat.le_succ _, hcw, hn⟩

/-- The bit writer has no part in the width: one symbol of the walk moves it by its insertion. -/
theorem walk_widthStep {s : State} (hr : s.CodecRegs) (y : Byte) : s.WidthStep (walk y s) := by
  unfold walk
  split
  · exact hr.widthStep rfl rfl
  · rename_i p _
    split
    · exact hr.widthStep rfl rfl
    · obtain ⟨a, n, b, e⟩ := putBits_frame p.toNat s.cw s
      rw [emitInsert, e]
      exact insertGrow_widthStep (s := { s with acc := a, nacc := n, pbuf := b }) hr p y

theorem emitSeq_widthKept {s : State} (hr : s.CodecRegs) (c : Code) (q : Option (List Byte)) :
    Yields s.WidthKept (emitSeq c q s) := by
  intro t ht
  obtain ⟨-, -, -, f, r, rfl, -⟩ := emitSeq_effect ht
  cases ht
  exact .inr ⟨hr, append_widthStep (s := { s with oidx := s.oidx ++ f :: r }) hr f⟩

/-- `ENC_END` writes its codes at the width it finds (R187, R190). -/
theorem execEncEnd_widthKept (s : State) : Yields s.WidthKept (execEncEnd s) := by
  refine yields_fault_or_inMode fun _ => yields_codecOk fun hr => ?_
  obtain ⟨v, w, e⟩ := putCandidate_frame s
  rw [e, putEoi]
  exact yields_next (.inr ⟨hr, hr.widthStep (by simp) (by simp)⟩)

/-- One code but `CLEAR`, and one command of the encoder after its start, move the width as R37
allows. -/
theorem exec_widthKept {i : Instr} (hi : mayGrowWidth i = true) (s : State) :
    Yields s.WidthKept (exec i s) := by
  cases i with
  | eoi => exact yields_asClass fun _ hr _ => yields_next (.inr ⟨hr, hr.widthStep rfl rfl⟩)
  | literal | dict | kwkwk => exact yields_asClass fun _ hr _ => emitSeq_widthKept hr _ _
  | encPut sym =>
    exact yields_fault_or_inMode fun _ => yields_codecOk fun hr => yields_checked (.inl rfl)
      fun _ => yields_next (.inr ⟨hr, walk_widthStep hr _⟩)
  | encEnd => exact execEncEnd_widthKept s
  | _ => cases hi

/-- Settles O36: the codes and commands that may grow the width, then the `CLEAR` code. -/
theorem codeWidthIsMonotone : Obligations.CodeWidthIsMonotone := by
  refine ⟨fun i s t hi _ ht hf => ?_, fun s t c ht => ?_⟩
  · obtain ⟨⟨-, -, hmcs, -⟩, hle, hgrow, hmax, hnext⟩ :=
      (exec_widthKept hi s t ht).resolve_left hf
    exact ⟨hle, hgrow, hmcs.trans hle, hmax, hnext⟩
  · have hclear : Yields (fun t => t.cw = s.mcs + 1) (exec (.clear c) s) :=
      yields_asClass fun _ _ _ => yields_next rfl
    exact hclear t ht

end Sys2Proof.Machine
end

section
/-! SUPPORT. The encoder's commands in the modes they are legal in, one equation per outcome (R181
to R187), and that the encoder's codes fit their width (R188). -/

namespace Sys2Proof.Machine

theorem inMode_enc {op : Byte} {s : State} {k : Result} (hm : s.mode = .enc) :
    inMode .enc op s k = k :=
  inMode_legal hm (by decide)

/-- The registers and the empty bit writer `ENC_START mcs` sets up before it puts `CLR` (R181). -/
def State.encInit (m : Word) (s : State) : State :=
  { s with
    mcs := m.toNat, cw := m.toNat + 1, next := 2 ^ m.toNat + 2, cand := none, pbuf := [], acc := 0,
    nacc := 0 }

/-- The state after `ENC_START mcs` (R181). -/
def State.encStart (m : Word) (s : State) : State :=
  { putBits (2 ^ m.toNat) (m.toNat + 1) (s.encInit m) with mode := .enc }

/-- The state after `ENC_END` (R187). -/
def State.encEnd (s : State) : State :=
  { chunk (flush (putEoi (putCandidate s))) with cand := none, mode := .idle }

theorem exec_encStart {s : State} {m : Word} (hm : s.mode = .idle) (h : mcsInRange m) :
    exec (.encStart m) s = .next (s.encStart m) := by
  rw [exec, execEncStart, inMode_idle hm, checked_ok h]
  rfl

theorem exec_encStart_range {s : State} {m : Word} (hm : s.mode = .idle) (h : ¬ mcsInRange m) :
    exec (.encStart m) s = .next (s.raise .badMinCodeSize m.toNat) := by
  rw [exec, execEncStart, inMode_idle hm, checked_bad h]

theorem exec_encPut {s : State} {y : Word} (hm : s.mode = .enc) (hr : s.CodecRegs)
    (hy : y.toNat < s.clr) : exec (.encPut y) s = .next (walk (y.setWidth 8) s) := by
  rw [exec, execEncPut, inMode_enc hm, codecOk_ok hr, checked_ok hy]

theorem exec_encEnd {s : State} (hm : s.mode = .enc) (hr : s.CodecRegs) :
    exec .encEnd s = .next s.encEnd := by
  rw [exec, execEncEnd, inMode_enc hm, codecOk_ok hr]
  rfl

/-! ## The three arms of `ENC_PUT` (R183 to R185) -/

theorem walk_first {s : State} (hc : s.cand = none) (y : Byte) :
    walk y s = { s with cand := some (y.setWidth 12) } := by
  rw [walk, hc]

theorem walk_extend {s : State} {p c : Code} {y : Byte} (hc : s.cand = some p)
    (hl : s.lookup p y = some c) : walk y s = { s with cand := some c } := by
  simp only [walk, hc, hl]

theorem walk_emit {s : State} {p : Code} {y : Byte} (hc : s.cand = some p)
    (hl : s.lookup p y = none) : walk y s = emitInsert p y s := by
  simp only [walk, hc, hl]

/-- With room in the dictionary the encoder inserts the entry, and the width grows when the size
exceeds `2^CW` (R185). -/
theorem insertGrow_insert {s : State} (hn : s.next < 4096) (p : Code) (y : Byte) :
    insertGrow p y s = { s.insert p y with
      cw := if 2 ^ s.cw < s.next + 1 ∧ s.cw < 12 then s.cw + 1 else s.cw } := by
  rcases insertGrow_cases p y s with ⟨hfull, -⟩ | ⟨-, hexceed, hlt, e⟩ | ⟨-, hno, e⟩
  · omega
  · rw [e, if_pos ⟨hexceed, hlt⟩]
  · rw [e, if_neg hno]
    rfl

/-- With a full dictionary the encoder inserts nothing (R186). -/
theorem insertGrow_full {s : State} (hn : 4096 ≤ s.next) (p : Code) (y : Byte) :
    insertGrow p y s = s :=
  if_neg (Nat.not_lt.mpr hn)

theorem emitInsert_insert {s : State} (hn : s.next < 4096) (p : Code) (y : Byte) :
    emitInsert p y s = { putBits p.toNat s.cw s with
      dict := s.dict.write s.next ⟨p, y⟩, next := s.next + 1,
      cw := if 2 ^ s.cw < s.next + 1 ∧ s.cw < 12 then s.cw + 1 else s.cw,
      cand := some (y.setWidth 12) } := by
  rw [emitInsert, insertGrow_insert (by rwa [putBits_next])]
  simp only [State.insert, putBits_dict, putBits_next, putBits_cw]

theorem emitInsert_full {s : State} (hn : 4096 ≤ s.next) (p : Code) (y : Byte) :
    emitInsert p y s = { putBits p.toNat s.cw s with cand := some (y.setWidth 12) } := by
  rw [emitInsert, insertGrow_full (by rwa [putBits_next])]

/-- A symbol operand below `CLR` is the literal code of its low byte. -/
theorem setWidth_symbol {s : State} {y : Word} (hr : s.CodecRegs) (hy : y.toNat < s.clr) :
    ((y.setWidth 8 : Byte).setWidth 12 : Code) = y.setWidth 12 := by
  obtain ⟨-, h8, -⟩ := hr
  have hclr : s.clr ≤ 2 ^ 8 := Nat.pow_le_pow_right (by decide) h8
  apply BitVec.eq_of_toNat_eq
  simp only [BitVec.toNat_setWidth]
  omega

/-! ## The obligations on single commands -/

/-- Settles O37: the range check, then the state after `ENC_START`. -/
theorem encStartWritesClear : Obligations.EncStartWritesClear := by
  refine fun s m a1 d => ⟨rfl, fun hm => ⟨fun h => ?_, fun h2 h8 => exec_encStart hm ⟨h2, h8⟩⟩⟩
  have hrange : ¬ mcsInRange m := fun ⟨h2, h8⟩ => h.elim h2.not_gt h8.not_gt
  rw [exec_encStart_range hm hrange]
  exact raises_raise _ _

/-- Settles O38, one arm of the walk at a time. -/
theorem encPutFirstExtendEmit : Obligations.EncPutFirstExtendEmit := by
  intro s y hm hr hy
  rw [exec_encPut hm hr hy, ← setWidth_symbol hr hy]
  refine ⟨fun hc => by rw [walk_first hc], fun p c hc hl => by rw [walk_extend hc hl],
    fun p hc hl => ?_⟩
  rw [walk_emit hc hl]
  exact ⟨fun hn => by rw [emitInsert_insert hn], fun hn => by rw [emitInsert_full hn]⟩

/-- Settles O40 by the candidate there is, or none. -/
theorem encEndWritesEoiAndFrames : Obligations.EncEndWritesEoiAndFrames := by
  refine fun s a0 a1 d => ⟨rfl, fun hm hr => ?_⟩
  rw [exec_encEnd hm hr]
  refine ⟨fun hc => ?_, fun p hc => ?_⟩
  · rw [State.encEnd, putCandidate, hc]
    rfl
  · rw [State.encEnd, putCandidate, hc]
    simp only [putEoi, State.eoiCode, State.clr, putBits_mcs, putBits_cw]

/-- The control codes are below `2^CW`, since `CW` exceeds `MCS` (R188). -/
theorem eoiCode_lt {s : State} (hr : s.CodecRegs) : s.eoiCode < 2 ^ s.cw := by
  obtain ⟨h2, -, hcw, -⟩ := hr
  have hlo : 2 ^ 2 ≤ s.clr := Nat.pow_le_pow_right (by decide) h2
  have hhi : 2 ^ (s.mcs + 1) ≤ 2 ^ s.cw := Nat.pow_le_pow_right (by decide) hcw
  have hclr : 2 ^ (s.mcs + 1) = 2 * s.clr := by rw [pow_succ, Nat.mul_comm]; rfl
  unfold State.eoiCode
  omega

/-- A code that has a sequence is below `NEXT`, which the width holds (R30 (c), R188). -/
theorem State.CodecInv.seqCode_lt {s : State} (h : s.CodecInv) {c : Code} (hc : s.IsSeqCode c) :
    c.toNat < 2 ^ s.cw :=
  (hc.not_control h.clr_le_next).1.trans_le h.size

/-- Settles O41: the control codes by the range of `CW`, the candidate by that of `NEXT`. -/
theorem encoderCodesFitTheirWidth : Obligations.EncoderCodesFitTheirWidth := by
  intro s h hm
  have he := h.encInv hm
  have heoi : s.eoiCode < 2 ^ s.cw := eoiCode_lt he.regs
  exact ⟨(Nat.lt_succ_self _).trans heoi, heoi, fun p hp => he.seqCode_lt (he.candCode p hp)⟩

end Sys2Proof.Machine
end

section
/-! SUPPORT. The dynamic entries a state holds below `NEXT`, and that the sequence of a code (R29)
and `Lookup` (R31) depend on nothing else of the dictionary memory. -/

namespace Sys2Proof.Machine

/-- The dictionary's entry for a code: what the memory holds there, for dynamic codes below `NEXT`
(R28, R30). -/
def State.entry (s : State) (c : Nat) : Option DictEntry :=
  if s.clr + 2 ≤ c ∧ c < s.next then s.dict.read c else none

theorem entry_dynamic {s : State} {c : Nat} (h1 : s.clr + 2 ≤ c) (h2 : c < s.next) :
    s.entry c = s.dict.read c :=
  if_pos ⟨h1, h2⟩

/-- A fresh dictionary has no entries. -/
theorem entry_fresh {s : State} (h : s.next = s.clr + 2) (c : Nat) : s.entry c = none :=
  if_neg fun hc => by omega

theorem dynamic_of_entry {s : State} {c : Nat} {e : DictEntry} (h : s.entry c = some e) :
    s.clr + 2 ≤ c ∧ c < s.next ∧ s.dict.read c = some e := by
  unfold State.entry at h
  split at h
  · exact ⟨And.left ‹_›, And.right ‹_›, h⟩
  · cases h

/-- An insertion adds the entry at `NEXT` and keeps the others (R28). -/
theorem entry_insert {s : State} (hn : s.clr + 2 ≤ s.next) (p : Code) (y : Byte) (c : Nat) :
    (s.insert p y).entry c = if c = s.next then some ⟨p, y⟩ else s.entry c := by
  unfold State.entry
  rw [insert_clr, insert_next, insert_dict, Memory.read_write]
  by_cases h : c = s.next
  · rw [if_pos h, if_pos h, if_pos (by omega)]
  · have hiff : (s.clr + 2 ≤ c ∧ c < s.next + 1) ↔ s.clr + 2 ≤ c ∧ c < s.next := by omega
    rw [if_neg h, if_neg h, if_congr hiff rfl rfl]

/-- `Seq` by the entries: a literal stands for itself, a code with an entry for the sequence
of the code that the entry extends and the entry's symbol, any other code for nothing (R29). -/
theorem seq_eq_of_entry (s : State) (c : Code) :
    s.seq c =
      if c.toNat < s.clr then some [c.setWidth 8]
      else (s.entry c.toNat).bind fun e =>
        if e.pfx.toNat < c.toNat then (s.seq e.pfx).map (· ++ [e.sym]) else none := by
  by_cases hlit : c.toNat < s.clr
  · rw [seq_literal hlit, if_pos hlit]
  · rw [if_neg hlit, State.seq, seqAux, if_neg hlit, State.entry]
    split
    · cases s.dict.read c.toNat with
      | none => rfl
      | some e =>
        by_cases hp : e.pfx.toNat < c.toNat
        · simp only [Option.bind_some, if_pos hp, State.seq]
          rw [seqAux_depth s.dict s.clr s.next hp (Nat.lt_succ_self _)]
        · simp only [Option.bind_some, if_neg hp]
    · rfl

/-- States with the same control codes that agree on the entries up to a code agree on its
sequence. -/
theorem seq_congr {s t : State} {c : Code} (hclr : s.clr = t.clr)
    (h : ∀ x ≤ c.toNat, s.entry x = t.entry x) : s.seq c = t.seq c := by
  generalize hn : c.toNat = n
  induction n using Nat.strong_induction_on generalizing c with
  | _ n ih =>
    subst hn
    rw [seq_eq_of_entry, seq_eq_of_entry, hclr, h _ le_rfl]
    congr 2
    funext e
    by_cases hp : e.pfx.toNat < c.toNat
    · rw [if_pos hp, if_pos hp, ih _ hp (fun x hx => h x (hx.trans hp.le)) rfl]
    · rw [if_neg hp, if_neg hp]

/-- While an encode is in progress `Lookup` finds exactly the pairs that are entries (R31). -/
theorem lookup_eq_some_iff {s : State} (h : s.EncInv) {p c : Code} {y : Byte} :
    s.lookup p y = some c ↔ s.entry c.toNat = some ⟨p, y⟩ := by
  refine ⟨fun hl => ?_, fun he => ?_⟩
  · obtain ⟨h1, h2, hr⟩ := lookup_some h.wf hl
    rw [entry_dynamic h1 h2, hr]
  · obtain ⟨h1, h2, hr⟩ := dynamic_of_entry he
    exact lookup_eq_of_read h.wf h.unique h1 h2 hr

end Sys2Proof.Machine
end

section
/-! SUPPORT. A decode is a function of `mcs` and `CBUF` (R193): the decoder reads nothing else, the
entries of a dictionary it has not written included. -/

namespace Sys2Proof.Machine

/-- Two states that no decode tells apart: the decoder's registers, its two buffers and the entries
are the same. -/
structure SameDecode (s s' : State) : Prop where
  mode : s.mode = s'.mode
  mcs : s.mcs = s'.mcs
  cw : s.cw = s'.cw
  next : s.next = s'.next
  prev : s.prev = s'.prev
  bitpos : s.bitpos = s'.bitpos
  cbuf : s.cbuf = s'.cbuf
  oidx : s.oidx = s'.oidx
  eoif : s.eoif = s'.eoif
  exhf : s.exhf = s'.exhf
  entry : ∀ c, s.entry c = s'.entry c

/-- Two decodes that the host cannot tell apart where they stand: the same fault, or states that no
decode tells apart. -/
def SameOutcome (t t' : State) : Prop :=
  (t.mode = .fault ∧ t'.mode = .fault ∧ t.cause = t'.cause ∧ t.finfo = t'.finfo) ∨
    (t.mode ≠ .fault ∧ SameDecode t t')

/-- Every next state the first result answers, the second answers too, as far as a decode goes. -/
def Mirrors (r r' : Result) : Prop :=
  Yields (fun t => ∃ t', r' = .next t' ∧ SameOutcome t t') r

theorem mirrors_same {t t' : State} (hf : t.mode ≠ .fault) (h : SameDecode t t') :
    Mirrors (.next t) (.next t') :=
  yields_next ⟨t', rfl, .inr ⟨hf, h⟩⟩

theorem mirrors_raise (s s' : State) (c : Cause) (info : Nat) :
    Mirrors (.next (s.raise c info)) (.next (s'.raise c info)) :=
  yields_next ⟨_, rfl, .inl ⟨rfl, rfl, rfl, rfl⟩⟩

section
variable {s s' : State} (h : SameDecode s s')
include h

theorem SameDecode.clr : s.clr = s'.clr := by rw [State.clr, h.mcs, State.clr]

theorem SameDecode.clen : s.clen = s'.clen := by rw [State.clen, h.cbuf, State.clen]

theorem SameDecode.codeContext : s.codeContext = s'.codeContext := by
  rw [State.codeContext, h.mcs, h.next, h.prev, State.codeContext]

theorem SameDecode.codecRegs (hr : s.CodecRegs) : s'.CodecRegs := by
  unfold State.CodecRegs at hr ⊢
  rwa [← h.mcs, ← h.cw, ← h.next, ← h.clr]

theorem SameDecode.seq (c : Code) : s.seq c = s'.seq c := seq_congr h.clr fun x _ => h.entry x

theorem SameDecode.kwkwkSeq : s.kwkwkSeq = s'.kwkwkSeq := by
  rw [State.kwkwkSeq, h.prev, funext h.seq, State.kwkwkSeq]

/-- An insertion at `NEXT` and the same width after it keep two states the same. -/
theorem SameDecode.insert (hn : s.clr + 2 ≤ s.next) (p : Code) (f : Byte) {w w' : Nat}
    (hw : w = w') : SameDecode { s.insert p f with cw := w } { s'.insert p f with cw := w' } :=
  { h with
    cw := hw
    next := congrArg (· + 1) h.next
    entry := fun c => by
      have hn' : s'.clr + 2 ≤ s'.next := by rwa [← h.clr, ← h.next]
      have he : (s.insert p f).entry c = (s'.insert p f).entry c := by
        rw [entry_insert hn, entry_insert hn', h.next, h.entry]
      exact he }

theorem SameDecode.append (hn : s.clr + 2 ≤ s.next) (f : Byte) :
    SameDecode (append f s) (append f s') := by
  cases hp : s.prev with
  | none => rwa [append_of_prev_none hp, append_of_prev_none (h.prev ▸ hp)]
  | some p =>
    by_cases hroom : s.next < 4096
    · rw [append_insert hp hroom, append_insert (h.prev ▸ hp) (h.next ▸ hroom)]
      exact h.insert hn p f (by rw [h.next, h.cw])
    · rwa [append_full (not_lt.mp hroom), append_full (h.next ▸ not_lt.mp hroom)]

/-- The tail of a data code keeps two states the same (R151). -/
theorem SameDecode.emitSeq (hm : s.mode = .dec) (hn : s.clr + 2 ≤ s.next) (c : Code)
    (q : Option (List Byte)) : Mirrors (emitSeq c q s) (emitSeq c q s') := by
  intro t ht
  obtain ⟨-, hmode, -, f, r, rfl, -⟩ := emitSeq_effect ht
  cases ht
  have ho : SameDecode { s with oidx := s.oidx ++ f :: r } { s' with oidx := s'.oidx ++ f :: r } :=
    { h with oidx := congrArg (· ++ f :: r) h.oidx }
  exact ⟨_, rfl, .inr ⟨by simp [hm], { ho.append hn f with prev := rfl }⟩⟩

/-- A code that the first state executes as its class, the second does too. -/
theorem SameDecode.asClass {want : CodeClass} {c : Code} {k k' : Result}
    (hk : s.mode = .dec → s.CodecRegs → Mirrors k k') :
    Mirrors (asClass want c s k) (asClass want c s' k') := by
  refine yields_asClass fun hm hr hc => ?_
  rw [asClass_ok (h.mode ▸ hm) (h.codecRegs hr) (h.codeContext ▸ hc)]
  exact hk hm hr

/-- Executing a code keeps two states the same, or raises the same fault (R152 to R157). -/
theorem SameDecode.runCode (k : CodeClass) (c : Code) :
    Mirrors (runCode k c s) (runCode k c s') := by
  cases k with
  | clear =>
    refine h.asClass fun hm _ => mirrors_same (by simp [hm])
      { h with cw := by rw [h.mcs], next := by rw [h.clr], prev := rfl, entry := fun x => ?_ }
    rw [entry_fresh rfl, entry_fresh rfl]
  | eoi => exact h.asClass fun _ _ => mirrors_same (by simp) { h with mode := rfl, eoif := rfl }
  | literal => exact h.asClass fun hm hr => h.emitSeq hm hr.clr_le_next c _
  | dict =>
    refine h.asClass fun hm hr => ?_
    rw [← h.seq]
    exact h.emitSeq hm hr.clr_le_next c _
  | kwkwk =>
    refine h.asClass fun hm hr => ?_
    rw [← h.kwkwkSeq]
    exact h.emitSeq hm hr.clr_le_next c _
  | invalid => exact h.asClass fun _ _ => mirrors_raise s s' _ _

/-- One step of the decoder keeps two states the same, or raises the same fault (R151, R159). -/
theorem SameDecode.stepCode : Mirrors (stepCode s) (stepCode s') := by
  refine yields_codecOk fun hr => ?_
  have hfield : field s'.cbuf s'.bitpos s'.cw = field s.cbuf s.bitpos s.cw := by
    rw [h.cbuf, h.bitpos, h.cw]
  have hbits : s.bitpos + s.cw = s'.bitpos + s'.cw := by rw [h.bitpos, h.cw]
  have hclen := h.clen
  by_cases hb : s.bitpos + s.cw ≤ 8 * s.clen
  · have hread : SameDecode { s with bitpos := s.bitpos + s.cw }
        { s' with bitpos := s'.bitpos + s'.cw } := { h with bitpos := hbits }
    rw [getBits_some hb, stepCode_code (h.codecRegs hr) (by omega), hfield, ← h.codeContext]
    exact hread.runCode _ _
  · rw [getBits_none (by omega), stepCode_exhausted (h.codecRegs hr) (by omega)]
    exact mirrors_same (by simp) { h with mode := rfl, exhf := rfl }

end

/-- A run of the decoder ends in the same outcome from two states that are the same (R160). -/
theorem SameDecode.decLoop (k : Nat) {s s' : State} (h : SameDecode s s') :
    Mirrors (decLoop k s) (decLoop k s') := by
  induction k generalizing s s' with
  | zero => exact yields_fault
  | succ k ih =>
    rw [decLoop_succ, decLoop_succ]
    have hstep := h.stepCode
    cases e : Machine.stepCode s with
    | next t =>
      obtain ⟨t', e', hend⟩ := hstep t e
      rw [e']
      dsimp only
      rcases hend with ⟨hf, hf', hfault⟩ | ⟨hf, hsame⟩
      · rw [if_neg (by simp [hf]), if_neg (by simp [hf'])]
        exact yields_next ⟨t', rfl, .inl ⟨hf, hf', hfault⟩⟩
      · rw [← hsame.mode]
        split
        · exact ih hsame
        · exact mirrors_same hf hsame
    | fault => exact yields_fault
    | refused => exact yields_refused

theorem exec_decRun_eq_decLoop {s : State} (hm : s.mode = .dec) :
    exec .decRun s = decLoop (8 * s.clen + 1) s :=
  inMode_dec hm

theorem SameDecode.decRun {s s' : State} (h : SameDecode s s') (hm : s.mode = .dec) :
    Mirrors (exec .decRun s) (exec .decRun s') := by
  rw [exec_decRun_eq_decLoop hm, exec_decRun_eq_decLoop (h.mode ▸ hm), ← h.clen]
  exact h.decLoop _

/-! ## Runs of instructions -/

theorem runAll_cons {i : Instr} {rest : List Instr} {s t : State} (h : exec i s = .next t) :
    runAll (i :: rest) s = runAll rest t := by
  rw [runAll, h]

theorem runAll_singleton (i : Instr) (s : State) : runAll [i] s = exec i s := by
  rw [runAll]
  cases exec i s <;> rfl

/-! ## `DECODE mcs` -/

/-- The state after `DEC_START mcs` (R150). -/
def State.decStart (m : Word) (s : State) : State :=
  { s with
    mcs := m.toNat, cw := m.toNat + 1, next := 2 ^ m.toNat + 2, prev := none, oidx := [],
    bitpos := 0, eoif := false, exhf := false, mode := .dec }

theorem exec_decStart {s : State} {m : Word} (hm : s.mode = .idle) (h : mcsInRange m) :
    exec (.decStart m) s = .next (s.decStart m) := by
  rw [exec, execDecStart, inMode_idle hm, checked_ok h]
  rfl

theorem exec_decStart_range {s : State} {m : Word} (hm : s.mode = .idle) (h : ¬ mcsInRange m) :
    exec (.decStart m) s = .next (s.raise .badMinCodeSize m.toNat) := by
  rw [exec, execDecStart, inMode_idle hm, checked_bad h]

/-- After `DEC_START` no entry is dynamic, so that only `CBUF` matters. -/
theorem sameDecode_decStart {s s' : State} (h : s.cbuf = s'.cbuf) (m : Word) :
    SameDecode (s.decStart m) (s'.decStart m) where
  mode := rfl
  mcs := rfl
  cw := rfl
  next := rfl
  prev := rfl
  bitpos := rfl
  cbuf := h
  oidx := rfl
  eoif := rfl
  exhf := rfl
  entry c := by rw [entry_fresh rfl, entry_fresh rfl]

/-- `DECODE mcs` with `mcs` in range is the run from `DEC_START`. -/
theorem runAll_decodeCommands {s : State} {m : Word} (hm : s.mode = .idle) (h : mcsInRange m) :
    runAll (decodeCommands m) s = exec .decRun (s.decStart m) := by
  rw [decodeCommands, runAll_cons (exec_decStart hm h), runAll_singleton]

/-- `DECODE mcs` with `mcs` out of range is the fault, which `DEC_RUN` leaves. -/
theorem runAll_decodeCommands_range {s : State} {m : Word} (hm : s.mode = .idle)
    (h : ¬ mcsInRange m) :
    runAll (decodeCommands m) s = .next (s.raise .badMinCodeSize m.toNat) := by
  rw [decodeCommands, runAll_cons (exec_decStart_range hm h), runAll_singleton, exec, execDecRun,
    inMode_fault (raise_mode s _ _)]

/-- A block in reset that holds the compressed bytes `b` in registers wide enough for them. -/
def freshDecoder (b : List Byte) : State := { State.reset with cbuf := b, posw := b.length }

theorem freshDecoder_inv (b : List Byte) : (freshDecoder b).Inv :=
  inv_of_idle rfl
    ⟨rfl, rfl, rfl, ⟨le_rfl, Nat.two_pow_pos _⟩, ⟨Nat.zero_le _, Nat.lt_two_pow_self⟩,
      ⟨Nat.succ_pos 7, Nat.one_pos⟩⟩
    reset_inv.tableInv

/-- A decode that has started completes from every state: it mirrors that of a block in reset which
holds the same `CBUF`, and that block meets the invariant. -/
theorem decRun_decStart_completes (s : State) {m : Word} (h : mcsInRange m) :
    ∃ t, exec .decRun (s.decStart m) = .next t := by
  have hinv : ((freshDecoder s.cbuf).decStart m).Inv :=
    execDecStart_inv (freshDecoder_inv s.cbuf) m _ (exec_decStart rfl h)
  obtain ⟨t, ht⟩ := decLoop_completes hinv rfl (Nat.lt_succ_self _)
  have hrun := exec_decRun (s := (freshDecoder s.cbuf).decStart m) rfl (Nat.lt_succ_self _)
  have hsame : SameDecode ((freshDecoder s.cbuf).decStart m) (s.decStart m) :=
    sameDecode_decStart (s := freshDecoder s.cbuf) (s' := s) rfl m
  obtain ⟨t', ht', -⟩ := hsame.decRun rfl t (hrun.trans ht)
  exact ⟨t', ht'⟩

/-- Settles O56: out of range both raise the same fault; in range `DEC_START` makes the states the
same for a decode, and the run keeps them so. -/
theorem decodeDependsOnCompressedBytesOnly : Obligations.DecodeDependsOnCompressedBytesOnly := by
  intro m s s' hm hm' hcbuf
  by_cases hr : mcsInRange m
  · obtain ⟨t, ht⟩ := decRun_decStart_completes s hr
    obtain ⟨t', ht', hend⟩ := (sameDecode_decStart hcbuf m).decRun rfl t ht
    refine ⟨t, t', (runAll_decodeCommands hm hr).trans ht,
      (runAll_decodeCommands hm' hr).trans ht', ?_⟩
    rcases hend with ⟨hf, hf', hfault⟩ | ⟨hf, hsame⟩
    · exact ⟨hf.trans hf'.symm, fun _ => hfault, fun h => absurd hf h⟩
    · exact ⟨hsame.mode, fun h => absurd h hf, fun _ => ⟨hsame.oidx, hsame.eoif, hsame.exhf,
        hsame.bitpos, hsame.cw, hsame.next, hsame.prev⟩⟩
  · exact ⟨_, _, runAll_decodeCommands_range hm hr, runAll_decodeCommands_range hm' hr, rfl,
      fun _ => ⟨rfl, rfl⟩, fun h => absurd rfl h⟩

end Sys2Proof.Machine
end

section
/-! SUPPORT. The pseudo-command `ENCODE mcs, syms` (R95) as a walk over the symbols between
`ENC_START` and `ENC_END`. -/

namespace Sys2Proof.Machine

/-- An encode is in progress: the mode, the encoder's clauses of the invariant and the form of the
partial byte (R20). -/
structure State.Encoding (s : State) : Prop where
  mode : s.mode = .enc
  inv : s.EncInv
  writer : s.PartialOk

/-- The greedy walk over a sequence of symbols (R182). -/
def walks (syms : List Byte) (s : State) : State := syms.foldl (fun s y => walk y s) s

theorem walks_cons (y : Byte) (ys : List Byte) (s : State) :
    walks (y :: ys) s = walks ys (walk y s) := rfl

@[simp] theorem emitInsert_pbuf (p : Code) (y : Byte) (s : State) :
    (emitInsert p y s).pbuf = (putBits p.toNat s.cw s).pbuf := insertGrow_pbuf _ _ _

@[simp] theorem emitInsert_acc (p : Code) (y : Byte) (s : State) :
    (emitInsert p y s).acc = (putBits p.toNat s.cw s).acc := insertGrow_acc _ _ _

@[simp] theorem emitInsert_nacc (p : Code) (y : Byte) (s : State) :
    (emitInsert p y s).nacc = (putBits p.toNat s.cw s).nacc := insertGrow_nacc _ _ _

/-- One symbol of the walk leaves `MCS` and `EOUT` alone. -/
theorem walk_frame_mcs_eout (y : Byte) (s : State) :
    (walk y s).mcs = s.mcs ∧ (walk y s).eout = s.eout := by
  unfold walk
  split
  · exact ⟨rfl, rfl⟩
  · split
    · exact ⟨rfl, rfl⟩
    · simp only [emitInsert, insertGrow_mcs, insertGrow_eout, putBits_mcs, putBits_eout, and_self]

theorem walk_clr (y : Byte) (s : State) : (walk y s).clr = s.clr := by
  rw [State.clr, (walk_frame_mcs_eout y s).1, State.clr]

theorem walks_eout (syms : List Byte) (s : State) : (walks syms s).eout = s.eout := by
  induction syms generalizing s with
  | nil => rfl
  | cons y ys ih => rw [walks_cons, ih, (walk_frame_mcs_eout y s).2]

/-- One symbol of the walk goes on with the encode (R182 to R185). -/
theorem State.Encoding.walk {s : State} (h : s.Encoding) {y : Byte} (hy : y.toNat < s.clr) :
    (walk y s).Encoding := by
  have hmode := (walk_mode y s).trans h.mode
  rcases walk_cases h.inv hy with ⟨c, hc, e⟩ | ⟨p, hp, hnew, e⟩ <;> rw [e] at hmode ⊢
  · exact ⟨hmode, h.inv.setCand hc, h.writer⟩
  · refine ⟨hmode, h.inv.emitInsert hp hy hnew, ?_⟩
    have hw : (putBits p.toNat s.cw s).PartialOk := putBits_partialOk h.writer
    unfold State.PartialOk at hw ⊢
    rwa [emitInsert_acc, emitInsert_nacc]

theorem State.Encoding.walks {s : State} (h : s.Encoding) {syms : List Byte}
    (hs : ∀ y ∈ syms, y.toNat < s.clr) : (walks syms s).Encoding := by
  induction syms generalizing s with
  | nil => exact h
  | cons y ys ih =>
    obtain ⟨hy, hys⟩ := List.forall_mem_cons.mp hs
    exact ih (h.walk hy) (by rwa [walk_clr])

theorem encInit_partialOk (m : Word) (s : State) : (s.encInit m).PartialOk :=
  ⟨Nat.succ_pos 7, Nat.one_pos⟩

theorem encInit_encInv {s : State} {m : Word} (h : mcsInRange m) (hw : s.dict.wf = true) :
    (s.encInit m).EncInv :=
  ⟨(codecInv_fresh (s := s.encInit m) hw h.1 h.2 rfl rfl).1, nofun,
    fun _ _ h1 h2 => absurd h2 h1.not_gt⟩

/-- `ENC_START` starts an encode (R181). -/
theorem encStart_encoding {s : State} {m : Word} (h : mcsInRange m) (hw : s.dict.wf = true) :
    (s.encStart m).Encoding := by
  have he := (encInit_encInv h hw).putBits (2 ^ m.toNat) (m.toNat + 1)
  have hwriter := putBits_partialOk (v := 2 ^ m.toNat) (w := m.toNat + 1) (encInit_partialOk m s)
  exact ⟨rfl, ⟨⟨he.wf, he.regs, he.size, he.dictOk⟩, he.candCode, he.unique⟩, hwriter⟩

theorem encStart_clr (m : Word) (s : State) : (s.encStart m).clr = 2 ^ m.toNat := by
  rw [State.clr, State.encStart, putBits_mcs, State.encInit]

theorem encStart_eout (m : Word) (s : State) : (s.encStart m).eout = s.eout := putBits_eout _ _ _

/-- The symbols of an encode, put one at a time, are the walk over them. -/
theorem runAll_encPuts {s : State} (h : s.Encoding) {syms : List Byte}
    (hs : ∀ y ∈ syms, y.toNat < s.clr) (rest : List Instr) :
    runAll (syms.map (fun b => .encPut (b.setWidth 32)) ++ rest) s =
      runAll rest (walks syms s) := by
  induction syms generalizing s with
  | nil => rfl
  | cons y ys ih =>
    obtain ⟨hy, hys⟩ := List.forall_mem_cons.mp hs
    have hlt : (y.setWidth 32).toNat < s.clr := by
      rw [BitVec.toNat_setWidth]
      exact (Nat.mod_le _ _).trans_lt hy
    have hput : exec (.encPut (y.setWidth 32)) s = .next (walk y s) := by
      rw [exec_encPut h.mode h.inv.regs hlt]
      simp
    rw [List.map_cons, List.cons_append, runAll_cons hput, walks_cons]
    exact ih (h.walk hy) (by rwa [walk_clr])

/-- The state after `ENCODE mcs, syms`. -/
def State.encoded (m : Word) (syms : List Byte) (s : State) : State :=
  (walks syms (s.encStart m)).encEnd

/-- `ENCODE mcs, syms` completes (R95, R181 to R187). -/
theorem runAll_encodeCommands {s : State} {m : Word} {syms : List Byte} (hm : s.mode = .idle)
    (h : mcsInRange m) (hw : s.dict.wf = true) (hs : ∀ y ∈ syms, y.toNat < 2 ^ m.toNat) :
    runAll (encodeCommands m syms) s = .next (s.encoded m syms) := by
  have henc := encStart_encoding h hw
  have hs' : ∀ y ∈ syms, y.toNat < (s.encStart m).clr := by rwa [encStart_clr]
  have hend := henc.walks hs'
  rw [encodeCommands, List.cons_append, runAll_cons (exec_encStart hm h), runAll_encPuts henc hs',
    runAll_singleton, exec_encEnd hend.mode hend.inv.regs]
  rfl

/-- The bytes an encode packs: the stream up to `EOI`, completed by `Flush` (R187). -/
def State.packed (s : State) : List Byte := (flush (putEoi (putCandidate s))).pbuf

/-- `ENC_END` appends the packed bytes to `EOUT` as a sub-block run and keeps `CW` and `NEXT`
(R187). -/
theorem encEnd_outcome (s : State) :
    s.encEnd.mode = .idle ∧ s.encEnd.eout = s.eout ++ subBlocks s.packed.length s.packed ∧
      s.encEnd.cw = s.cw ∧ s.encEnd.next = s.next := by
  obtain ⟨v, w, e⟩ := putCandidate_frame s
  rw [State.encEnd, State.packed, e, putEoi]
  simp

theorem encoded_eout (m : Word) (syms : List Byte) (s : State) :
    (s.encoded m syms).eout = s.eout ++
      subBlocks (walks syms (s.encStart m)).packed.length (walks syms (s.encStart m)).packed := by
  obtain ⟨-, heout, -⟩ := encEnd_outcome (walks syms (s.encStart m))
  rw [State.encoded, heout, walks_eout, encStart_eout]

end Sys2Proof.Machine
end

section
/-! SUPPORT. What an encode appends to `EOUT` is a function of `mcs` and the symbols (R193). -/

namespace Sys2Proof.Machine

/-- Two states hold the same packed bits. -/
def SameWriter (s s' : State) : Prop := s.pbuf = s'.pbuf ∧ s.acc = s'.acc ∧ s.nacc = s'.nacc

theorem SameWriter.putBits {s s' : State} (h : SameWriter s s') (v w : Nat) :
    SameWriter (putBits v w s) (putBits v w s') := by
  induction w generalizing v s s' with
  | zero => exact h
  | succ w ih =>
    refine ih (s := putBit (v % 2) s) (s' := putBit (v % 2) s') ?_ _
    obtain ⟨hpbuf, hacc, hnacc⟩ := h
    unfold putBit SameWriter
    rw [hpbuf, hacc, hnacc]
    dsimp only
    split <;> exact ⟨rfl, rfl, rfl⟩

theorem SameWriter.flush_pbuf {s s' : State} (h : SameWriter s s') :
    (flush s).pbuf = (flush s').pbuf := by
  obtain ⟨hpbuf, hacc, hnacc⟩ := h
  unfold flush
  rw [hpbuf, hacc, hnacc]
  split
  · rfl
  · exact hpbuf

/-- Two states that no encode tells apart: the encoder's registers, the packed bits and the entries
are the same. -/
structure SameEncode (s s' : State) : Prop where
  mcs : s.mcs = s'.mcs
  cw : s.cw = s'.cw
  next : s.next = s'.next
  cand : s.cand = s'.cand
  writer : SameWriter s s'
  entry : ∀ c, s.entry c = s'.entry c

section
variable {s s' : State} (h : SameEncode s s')
include h

theorem SameEncode.clr : s.clr = s'.clr := by rw [State.clr, h.mcs, State.clr]

/-- `Lookup` depends on the entries only (R31). -/
theorem SameEncode.lookup (he : s.EncInv) (he' : s'.EncInv) (p : Code) (y : Byte) :
    s.lookup p y = s'.lookup p y := by
  refine Option.ext fun c => ?_
  rw [lookup_eq_some_iff he, lookup_eq_some_iff he', h.entry]

theorem SameEncode.putBits (v w : Nat) : SameEncode (putBits v w s) (putBits v w s') := by
  have hw := h.writer.putBits v w
  obtain ⟨a, n, p, e⟩ := putBits_frame v w s
  obtain ⟨a', n', p', e'⟩ := putBits_frame v w s'
  rw [e, e'] at hw ⊢
  exact { h with writer := hw }

theorem SameEncode.insertGrow (hn : s.clr + 2 ≤ s.next) (p : Code) (y : Byte) :
    SameEncode (insertGrow p y s) (insertGrow p y s') := by
  by_cases hroom : s.next < 4096
  · have hn' : s'.clr + 2 ≤ s'.next := by rwa [← h.clr, ← h.next]
    have hentry : ∀ c, (s.insert p y).entry c = (s'.insert p y).entry c := fun c => by
      rw [entry_insert hn, entry_insert hn', h.next, h.entry]
    rw [insertGrow_insert hroom, insertGrow_insert (h.next ▸ hroom)]
    exact { h with
      cw := by rw [h.cw, h.next]
      next := congrArg (· + 1) h.next
      entry := hentry }
  · rwa [insertGrow_full (not_lt.mp hroom), insertGrow_full (h.next ▸ not_lt.mp hroom)]

theorem SameEncode.emitInsert (hn : s.clr + 2 ≤ s.next) (p : Code) (y : Byte) :
    SameEncode (emitInsert p y s) (emitInsert p y s') := by
  have hput := h.putBits p.toNat s.cw
  have hclr : (Machine.putBits p.toNat s.cw s).clr = s.clr := by
    rw [State.clr, putBits_mcs, State.clr]
  have hgrow := hput.insertGrow (by rwa [hclr, putBits_next]) p y
  rw [Machine.emitInsert, Machine.emitInsert, ← h.cw]
  exact { hgrow with cand := rfl }

/-- One symbol of the walk keeps two states the same (R183 to R185). -/
theorem SameEncode.walk (he : s.EncInv) (he' : s'.EncInv) (y : Byte) :
    SameEncode (walk y s) (walk y s') := by
  cases hc : s.cand with
  | none =>
    rw [walk_first hc, walk_first (h.cand ▸ hc)]
    exact { h with cand := rfl }
  | some p =>
    have hlookup := h.lookup he he' p y
    cases hl : s.lookup p y with
    | some c =>
      rw [walk_extend hc hl, walk_extend (h.cand ▸ hc) (hlookup ▸ hl)]
      exact { h with cand := rfl }
    | none =>
      rw [walk_emit hc hl, walk_emit (h.cand ▸ hc) (hlookup ▸ hl)]
      exact h.emitInsert he.clr_le_next p y

/-- The packed bytes of an encode that ends are the same from two such states (R187). -/
theorem SameEncode.packed : s.packed = s'.packed := by
  have hcand : SameEncode (putCandidate s) (putCandidate s') := by
    unfold putCandidate
    rw [← h.cand, ← h.cw]
    split
    · exact h
    · exact h.putBits _ _
  have heoi : SameEncode (putEoi (putCandidate s)) (putEoi (putCandidate s')) := by
    unfold putEoi State.eoiCode
    rw [← hcand.clr, ← hcand.cw]
    exact hcand.putBits _ _
  exact heoi.writer.flush_pbuf

end

/-- The walk over a sequence of symbols keeps two states the same. -/
theorem SameEncode.walks {s s' : State} (h : SameEncode s s') (he : s.Encoding)
    (he' : s'.Encoding) {syms : List Byte} (hs : ∀ y ∈ syms, y.toNat < s.clr) :
    SameEncode (walks syms s) (walks syms s') := by
  induction syms generalizing s s' with
  | nil => exact h
  | cons y ys ih =>
    obtain ⟨hy, hys⟩ := List.forall_mem_cons.mp hs
    exact ih (h.walk he.inv he'.inv y) (he.walk hy) (he'.walk (h.clr ▸ hy)) (by rwa [walk_clr])

/-- After `ENC_START` no entry is dynamic and nothing but `CLR` is packed, whatever the state
was. -/
theorem sameEncode_encStart (m : Word) (s s' : State) :
    SameEncode (s.encStart m) (s'.encStart m) := by
  have h : SameEncode (s.encInit m) (s'.encInit m) :=
    ⟨rfl, rfl, rfl, rfl, ⟨rfl, rfl, rfl⟩, fun c => by rw [entry_fresh rfl, entry_fresh rfl]⟩
  exact { h.putBits (2 ^ m.toNat) (m.toNat + 1) with }

/-- Settles O57: the two walks keep what the encoder reads the same, so they pack the same bytes. -/
theorem encodeDependsOnSymbolsOnly : Obligations.EncodeDependsOnSymbolsOnly := by
  intro m syms s s' h2 h8 hs hm hm' hw hw'
  have hsame : SameEncode (walks syms (s.encStart m)) (walks syms (s'.encStart m)) :=
    (sameEncode_encStart m s s').walks (encStart_encoding ⟨h2, h8⟩ hw)
      (encStart_encoding ⟨h2, h8⟩ hw') (by rwa [encStart_clr])
  obtain ⟨hmode, -, hcw, hnext⟩ := encEnd_outcome (walks syms (s.encStart m))
  obtain ⟨hmode', -, hcw', hnext'⟩ := encEnd_outcome (walks syms (s'.encStart m))
  refine ⟨_, _, _, runAll_encodeCommands hm ⟨h2, h8⟩ hw hs,
    runAll_encodeCommands hm' ⟨h2, h8⟩ hw' hs, hmode, hmode', encoded_eout m syms s, ?_,
    hcw.trans (hsame.cw.trans hcw'.symm), hnext.trans (hsame.next.trans hnext'.symm)⟩
  rw [hsame.packed]
  exact encoded_eout m syms s'

end Sys2Proof.Machine
end

section
/-! SUPPORT. The packed bytes as a decoder reads them back: which fields stand where in the stream
that was written (R200, R201), and the run that frames them (R202). -/

namespace Sys2Proof.Machine

/-- The stream written so far stands at the front of the bytes `b`. -/
def State.WrittenTo (s : State) (b : List Byte) : Prop :=
  s.streamPos ≤ 8 * b.length ∧ ∀ k < s.streamPos, bitAt b k = bitAt s.stream k

/-- What was written before a field stands at the front too. -/
theorem State.WrittenTo.of_putBits {s : State} {b : List Byte} {v w : Nat} (h : s.PartialOk)
    (hb : (putBits v w s).WrittenTo b) : s.WrittenTo b := by
  obtain ⟨hlen, hbits⟩ := hb
  rw [putBits_streamPos h] at hlen hbits
  refine ⟨by omega, fun k hk => ?_⟩
  rw [hbits k (by omega), putBits_before h hk]

/-- A field that was written is read back where it was written. -/
theorem State.WrittenTo.field_eq {s : State} {b : List Byte} {v w : Nat} (h : s.PartialOk)
    (hv : v < 2 ^ w) (hb : (putBits v w s).WrittenTo b) :
    s.streamPos + w ≤ 8 * b.length ∧ field b s.streamPos w = v := by
  obtain ⟨hlen, hbits⟩ := hb
  rw [putBits_streamPos h] at hlen hbits
  refine ⟨hlen, ?_⟩
  rw [field_congr fun k _ hk => hbits k hk, putBits_field h hv]

/-- The insertion that follows a code writes nothing to the stream (R185). -/
theorem writtenTo_emitInsert {e : State} {p : Code} {y : Byte} {b : List Byte} :
    (emitInsert p y e).WrittenTo b ↔ (putBits p.toNat e.cw e).WrittenTo b := by
  unfold State.WrittenTo State.streamPos State.stream
  rw [emitInsert_pbuf, emitInsert_nacc, emitInsert_acc]

/-- The walk only adds to the stream. -/
theorem State.WrittenTo.of_walk {e : State} {y : Byte} {b : List Byte} (he : e.Encoding)
    (hy : y.toNat < e.clr) (hb : (walk y e).WrittenTo b) : e.WrittenTo b := by
  obtain ⟨c, -, hwalk⟩ | ⟨p, -, -, hwalk⟩ := walk_cases he.inv hy <;> rw [hwalk] at hb
  · exact hb
  · exact (writtenTo_emitInsert.mp hb).of_putBits he.writer

theorem State.WrittenTo.of_walks {e : State} {syms : List Byte} {b : List Byte} (he : e.Encoding)
    (hs : ∀ y ∈ syms, y.toNat < e.clr) (hb : (walks syms e).WrittenTo b) : e.WrittenTo b := by
  induction syms generalizing e with
  | nil => exact hb
  | cons y ys ih =>
    obtain ⟨hy, hys⟩ := List.forall_mem_cons.mp hs
    exact (ih (he.walk hy) (by rwa [walk_clr]) hb).of_walk he hy

theorem bitAt_beyond {b : List Byte} {k : Nat} (h : 8 * b.length ≤ k) : bitAt b k = 0 := by
  rw [bitAt, List.getD_eq_default _ _ (by omega)]
  simp

/-- `Flush` delivers the whole stream. -/
theorem writtenTo_flush {s : State} (h : s.PartialOk) : s.WrittenTo (flush s).pbuf := by
  refine ⟨?_, fun k hk => flush_stream hk⟩
  obtain ⟨hn, -⟩ := h
  unfold State.streamPos flush
  split
  · dsimp only
    rw [List.length_append, List.length_singleton]
    omega
  · omega

/-- The bits `Flush` adds are 0 (R201). -/
theorem bitAt_flush_padding {s : State} (h : s.PartialOk) {k : Nat} (hk : s.streamPos ≤ k) :
    bitAt (flush s).pbuf k = 0 := by
  obtain ⟨-, hacc⟩ := h
  unfold State.streamPos at hk
  unfold flush
  split
  · dsimp only
    by_cases hlast : k < 8 * s.pbuf.length + 8
    · have hpow : 2 ^ s.nacc ≤ 2 ^ (k - 8 * s.pbuf.length) :=
        Nat.pow_le_pow_right (by decide) (by omega)
      rw [bitAt_last _ _ (by omega) hlast, Nat.div_eq_of_lt (hacc.trans_le hpow)]
    · exact bitAt_beyond (by rw [List.length_append, List.length_singleton]; omega)
  · exact bitAt_beyond (by omega)

/-- The packed bytes of an encode hold the stream so far, the final candidate's code and `EOI`
(R187). -/
theorem writtenTo_packed {e : State} (h : e.PartialOk) :
    e.WrittenTo e.packed ∧ (putCandidate e).WrittenTo e.packed := by
  obtain ⟨v, w, hput⟩ := putCandidate_frame e
  have hcand : (putCandidate e).PartialOk := hput ▸ putBits_partialOk h
  have hb : (putCandidate e).WrittenTo e.packed :=
    (writtenTo_flush (putBits_partialOk hcand)).of_putBits hcand
  exact ⟨(hput ▸ hb).of_putBits h, hb⟩

/-- The run `Chunk` writes is the run of some legal blocks of the payload (R90, R202). -/
theorem subBlocks_eq_runBytes (p : List Byte) :
    ∃ blocks, LegalBlocks blocks ∧ blocks.flatten = p ∧ subBlocks p.length p = runBytes blocks := by
  generalize hn : p.length = n
  induction n using Nat.strong_induction_on generalizing p with
  | _ n ih =>
    subst hn
    by_cases h0 : p.length = 0
    · obtain rfl := List.length_eq_zero_iff.mp h0
      exact ⟨[], nofun, rfl, rfl⟩
    · by_cases hlong : 255 < p.length
      · have hlt : (p.drop 255).length < p.length := by rw [List.length_drop]; omega
        obtain ⟨blocks, hlegal, hflat, hrun⟩ := ih _ hlt (p.drop 255) rfl
        have hlen : (p.take 255).length = 255 := by rw [List.length_take]; omega
        refine ⟨p.take 255 :: blocks, legalBlocks_cons.mpr ⟨by omega, hlegal⟩, ?_, ?_⟩
        · rw [List.flatten_cons, hflat, List.take_append_drop]
        · rw [subBlocks_long le_rfl hlong, hrun, runBytes_cons, hlen]
          rfl
      · refine ⟨[p], legalBlocks_cons.mpr ⟨by omega, nofun⟩, by simp, ?_⟩
        rw [subBlocks_short le_rfl (by omega) (by omega), runBytes_cons]
        rfl

end Sys2Proof.Machine
end

section
/-! SUPPORT. One step of the decoder by the code that is read, and the rest of a run (R151,
R160). -/

namespace Sys2Proof.Machine

/-- A step that reads the code `c` executes it past its bits. -/
theorem stepCode_of_field {d : State} {c : Code} (hr : d.CodecRegs)
    (hb : d.bitpos + d.cw ≤ 8 * d.clen) (hc : field d.cbuf d.bitpos d.cw = c.toNat) :
    stepCode d = exec (decodeCode d.codeContext c) { d with bitpos := d.bitpos + d.cw } := by
  rw [stepCode_code hr hb, hc, BitVec.ofNat_toNat, BitVec.setWidth_eq, exec_decodeCode]

/-- A run is a step and the run from there, while the decode goes on. -/
theorem decRun_of_stepCode {d t : State} (hm : d.mode = .dec) (h : stepCode d = .next t)
    (ht : t.mode = .dec) : exec .decRun d = exec .decRun t := by
  obtain ⟨-, hiter⟩ := decRunIteratesDecStep d 0 0 []
  obtain ⟨hstep, -⟩ := hiter hm
  exact (hstep t ((exec_decStep hm).trans h)).1 ht

/-- A run whose first step ends the decode is that step. -/
theorem decRun_of_stepCode_end {d t : State} (hm : d.mode = .dec) (h : stepCode d = .next t)
    (ht : t.mode ≠ .dec) : exec .decRun d = .next t := by
  obtain ⟨-, hiter⟩ := decRunIteratesDecStep d 0 0 []
  obtain ⟨hstep, -⟩ := hiter hm
  exact (hstep t ((exec_decStep hm).trans h)).2 ht

/-- A step that reads a code of class `k` executes it as that class, past its bits (R86, R151). -/
theorem stepCode_of_class {d : State} {k : CodeClass} {c : Code} (hr : d.CodecRegs)
    (hb : d.bitpos + d.cw ≤ 8 * d.clen) (hc : field d.cbuf d.bitpos d.cw = c.toNat)
    (hk : ClassCondition d.codeContext c k) :
    stepCode d = exec (k.toInstr c) { d with bitpos := d.bitpos + d.cw } := by
  rw [stepCode_of_field hr hb hc, decodeCode, classify_eq_iff.mpr hk]

/-- The code that equals `EOI` ends the decode (R153). -/
theorem stepCode_eoi {d : State} (hm : d.mode = .dec) (hr : d.CodecRegs)
    (hb : d.bitpos + d.cw ≤ 8 * d.clen) (hc : field d.cbuf d.bitpos d.cw = d.eoiCode) :
    stepCode d = .next { d with bitpos := d.bitpos + d.cw }.endByEoi := by
  have hcode := code_toNat_of_field hr.cw_le d.cbuf d.bitpos
  rw [stepCode_of_class (k := .eoi) hr hb hcode.symm (hcode.trans hc)]
  exact (controlCodesResetAndStop { d with bitpos := d.bitpos + d.cw } _ hm hr).2 (hcode.trans hc)

/-- The code that equals `CLR` empties the dictionary, and the decode goes on (R152). -/
theorem stepCode_clear {d : State} (hm : d.mode = .dec) (hr : d.CodecRegs)
    (hb : d.bitpos + d.cw ≤ 8 * d.clen) (hc : field d.cbuf d.bitpos d.cw = d.clr) :
    stepCode d = .next { d with
      bitpos := d.bitpos + d.cw, next := d.clr + 2, cw := d.mcs + 1, prev := none } := by
  have hcode := code_toNat_of_field hr.cw_le d.cbuf d.bitpos
  rw [stepCode_of_class (k := .clear) hr hb hcode.symm (hcode.trans hc)]
  exact (controlCodesResetAndStop { d with bitpos := d.bitpos + d.cw } _ hm hr).1 (hcode.trans hc)

end Sys2Proof.Machine
end

section
/-! SUPPORT. A decoder that follows an encoder (R189, R191). Between codes the decoder's dictionary
is one entry behind the encoder's until both are full; both have the same width; and what the
decoder has emitted and what the encoder's candidate still holds back are the symbols put so far. -/

namespace Sys2Proof.Machine

/-! ## The symbols the candidate holds back -/

/-- The sequence of the candidate, whose code is not written yet. -/
def State.held (e : State) : List Byte := (e.cand.bind e.seq).getD []

theorem held_of_cand_none {e : State} (hc : e.cand = none) : e.held = [] := by
  rw [State.held, hc]
  rfl

theorem held_of_seq {e : State} {c : Code} {q : List Byte} (hc : e.cand = some c)
    (hq : e.seq c = some q) : e.held = q := by
  rw [State.held, hc, Option.bind_some, hq]
  rfl

/-- A candidate restarted at a symbol holds that symbol (R183, R185). -/
theorem held_symbol {e : State} {y : Byte} (hc : e.cand = some (y.setWidth 12))
    (hy : y.toNat < e.clr) : e.held = [y] := by
  have hlit : ((y.setWidth 12 : Code)).toNat < e.clr := by
    rw [BitVec.toNat_setWidth]
    exact (Nat.mod_le _ _).trans_lt hy
  rw [held_of_seq hc (seq_literal hlit), BitVec.setWidth_setWidth_of_le _ (by decide),
    BitVec.setWidth_eq]

/-- A dynamic code's sequence is that of the smaller code its entry extends, and the entry's symbol
(R29, R30 (a)). -/
theorem seq_of_entry {e : State} (hd : e.DictOk) {c p : Code} {y : Byte}
    (h : e.entry c.toNat = some ⟨p, y⟩) :
    p.toNat < c.toNat ∧ e.seq c = (e.seq p).map (· ++ [y]) := by
  obtain ⟨h1, h2, hr⟩ := dynamic_of_entry h
  obtain ⟨x, hx, hlt, -⟩ := hd _ h1 h2
  rw [hr] at hx
  cases hx
  exact ⟨hlt, seq_dynamic h1 h2 hr hlt⟩

/-- The candidate's sequence while an encode is in progress: it is not empty. -/
theorem seq_of_cand {e : State} (he : e.EncInv) {c : Code} (hc : e.cand = some c) :
    ∃ f q, e.seq c = some (f :: q) ∧ e.held = f :: q := by
  obtain ⟨f, q, hq, -⟩ := seq_of_isSeqCode he.dictOk (he.candCode c hc)
  exact ⟨f, q, hq, held_of_seq hc hq⟩

/-- An extended candidate holds the symbol too (R184). -/
theorem held_extend {e : State} (he : e.EncInv) {p c : Code} {y : Byte} (hp : e.cand = some p)
    (hl : e.lookup p y = some c) : ({ e with cand := some c }).held = e.held ++ [y] := by
  obtain ⟨f, q, hq, hheld⟩ := seq_of_cand he hp
  obtain ⟨-, hseq⟩ := seq_of_entry he.dictOk ((lookup_eq_some_iff he).mp hl)
  rw [hq] at hseq
  rw [hheld]
  exact held_of_seq (e := { e with cand := some c }) rfl hseq

/-! ## The two dictionaries -/

/-- How far the decoder's dictionary is: both are fresh and no data code was read; or the decoder
lacks the encoder's last entry, which extends the previous code by the first symbol held back; or
both are full (R191). -/
def Phase (e d : State) : Prop :=
  (d.prev = none ∧ d.next = e.next ∧ e.next = e.clr + 2) ∨
  (∃ p f q, d.prev = some p ∧ d.next + 1 = e.next ∧ e.entry d.next = some ⟨p, f⟩ ∧
    e.held = f :: q) ∨
  (d.next = e.next ∧ e.next = 4096)

/-- The decoder `d` has read every code the encoder `e` has written. -/
structure Follows (e d : State) : Prop where
  decoding : d.Decoding
  mcs : d.mcs = e.mcs
  cw : d.cw = e.cw
  known : ∀ x < d.next, d.entry x = e.entry x
  phase : Phase e d

/-- The width after a code is written and an entry inserted (R185), which is also the decoder's once
it has read the code (R191). -/
def State.grownWidth (e : State) : Nat :=
  if 2 ^ e.cw < e.next + 1 ∧ e.cw < 12 then e.cw + 1 else e.cw

/-- With a full dictionary the width has no room to grow (R186). -/
theorem grownWidth_full {e : State} (he : e.EncInv) (hfull : e.next = 4096) :
    e.grownWidth = e.cw := by
  have hsize := he.size
  refine if_neg fun ⟨_, hlt⟩ => ?_
  have hpow : 2 ^ e.cw ≤ 2 ^ 11 := Nat.pow_le_pow_right (by decide) (by omega)
  omega

/-- The first entry of a fresh dictionary does not let the width grow. -/
theorem grownWidth_fresh {e : State} (he : e.EncInv) (hfresh : e.next = e.clr + 2) :
    e.grownWidth = e.cw := by
  obtain ⟨h2, -, hcw, -⟩ := he.regs
  have hclr : 2 ^ 2 ≤ e.clr := Nat.pow_le_pow_right (by decide) h2
  have hpow : 2 ^ (e.mcs + 1) ≤ 2 ^ e.cw := Nat.pow_le_pow_right (by decide) hcw
  have htwice : 2 ^ (e.mcs + 1) = e.clr * 2 := pow_succ 2 e.mcs
  exact if_neg (by omega)

/-- What emitting a code and inserting an entry leaves of the registers, with room for the entry
(R185). -/
theorem emitInsert_room {e : State} (hn : e.next < 4096) (c : Code) (y : Byte) :
    ∃ a n p, emitInsert c y e = { e.insert c y with
      cw := e.grownWidth, cand := some (y.setWidth 12), acc := a, nacc := n, pbuf := p } := by
  obtain ⟨a, n, p, hput⟩ := putBits_frame c.toNat e.cw e
  exact ⟨a, n, p, by rw [emitInsert_insert hn, hput]; rfl⟩

/-- What emitting a code leaves of the registers, with no room for an entry (R186). -/
theorem emitInsert_no_room {e : State} (hn : ¬ e.next < 4096) (c : Code) (y : Byte) :
    ∃ a n p, emitInsert c y e = { e with
      cand := some (y.setWidth 12), acc := a, nacc := n, pbuf := p } := by
  obtain ⟨a, n, p, hput⟩ := putBits_frame c.toNat e.cw e
  exact ⟨a, n, p, by rw [emitInsert_full (not_lt.mp hn), hput]⟩

theorem streamPos_emitInsert {e : State} (h : e.PartialOk) (c : Code) (y : Byte) :
    (emitInsert c y e).streamPos = e.streamPos + e.cw := by
  rw [State.streamPos, emitInsert_pbuf, emitInsert_nacc]
  exact putBits_streamPos h

section
variable {e d : State} (h : Follows e d) (he : e.EncInv)
include h

theorem Follows.clr : d.clr = e.clr := by rw [State.clr, h.mcs, State.clr]

/-- A code below the decoder's `NEXT` stands for the same sequence on both sides. -/
theorem Follows.seq {c : Code} (hc : c.toNat < d.next) : d.seq c = e.seq c :=
  seq_congr h.clr fun _ hx => h.known _ (hx.trans_lt hc)

include he

theorem Follows.next_bounds : e.clr + 2 ≤ d.next ∧ d.next ≤ e.next := by
  have hclr := he.clr_le_next
  rcases h.phase with ⟨-, hnext, -⟩ | ⟨p, f, q, -, hnext, hentry, -⟩ | ⟨hnext, -⟩
  · omega
  · obtain ⟨hlo, -⟩ := dynamic_of_entry hentry
    omega
  · omega

theorem Follows.codecRegs : d.CodecRegs := by
  obtain ⟨hlo, hhi⟩ := h.next_bounds he
  obtain ⟨h2, h8, hcw, hmax, -, hnext⟩ := he.regs
  rw [State.CodecRegs, h.mcs, h.cw, h.clr]
  exact ⟨h2, h8, hcw, hmax, hlo, hhi.trans hnext⟩

/-- The one code the decoder may lack is its own `NEXT`: the candidate then stands for the previous
code's sequence and that sequence's first symbol (R156, R191). -/
theorem Follows.lacking {c : Code} {f : Byte} {q : List Byte} (hc : e.cand = some c)
    (hq : e.seq c = some (f :: q)) (hlack : d.next ≤ c.toNat) :
    c.toNat = d.next ∧ ∃ p r, d.prev = some p ∧ d.seq p = some (f :: r) ∧ q = r ++ [f] := by
  obtain ⟨hlt, -⟩ := (he.candCode c hc).not_control he.clr_le_next
  obtain ⟨-, hnext, -⟩ | ⟨p, g, r, hp, hnext, hentry, hheld⟩ | ⟨hnext, -⟩ := h.phase
  · omega
  · have hcd : c.toNat = d.next := by omega
    rw [← hcd] at hentry
    obtain ⟨hpc, hseq⟩ := seq_of_entry he.dictOk hentry
    obtain ⟨l, hl, hfq⟩ := Option.map_eq_some_iff.mp (hseq.symm.trans hq)
    obtain ⟨g', r', hne, -⟩ := seq_of_isSeqCode he.dictOk (isSeqCode_of_seq hl)
    obtain rfl : l = g' :: r' := Option.some.inj (hl.symm.trans hne)
    obtain ⟨rfl, -⟩ : g = f ∧ r = q := List.cons.inj (hheld.symm.trans (held_of_seq hc hq))
    obtain ⟨rfl, rfl⟩ := List.cons.inj hfq
    exact ⟨hcd, p, r', hp, (h.seq (hcd ▸ hpc)).trans hl, rfl⟩
  · omega

/-- The decoder executes the candidate's code by emitting the candidate's sequence: as a literal or
a dynamic code where it knows the code, as `KWKWK` where it lacks it. -/
theorem Follows.exec_code {c : Code} {f : Byte} {q : List Byte} (hc : e.cand = some c)
    (hq : e.seq c = some (f :: q)) :
    exec (decodeCode d.codeContext c) d = .next (d.emit c f q) := by
  have hm := h.decoding.1
  have hr := h.codecRegs he
  rw [decodeCode]
  by_cases hknown : c.toNat < d.next
  · have hqd : d.seq c = some (f :: q) := (h.seq hknown).trans hq
    obtain ⟨hlit, hclass⟩ | ⟨hlo, hhi, hclass⟩ := classify_seqCode (isSeqCode_of_seq hqd)
    · rw [hclass]
      rw [seq_literal hlit] at hqd
      cases hqd
      exact exec_literal hm hr hlit
    · rw [hclass]
      exact exec_dict hm hr hlo hhi hqd
  · obtain ⟨hcd, p, r, hp, hqd, rfl⟩ := h.lacking he hc hq (not_lt.mp hknown)
    have hclr := hr.clr_le_next
    rw [classify_kwkwk (x := d.codeContext) (hcd ▸ hclr) hcd (Option.isSome_of_eq_some hp)]
    exact exec_kwkwk hm hr hcd hp hqd

/-- `Append` of the candidate's first symbol brings the decoder's dictionary level with the
encoder's, and its width to what the encoder's will be (R158, R185, R191). -/
theorem Follows.append {f : Byte} {q : List Byte} (hheld : e.held = f :: q) :
    (append f d).next = e.next ∧ (append f d).cw = e.grownWidth ∧
      ∀ x < e.next, (append f d).entry x = e.entry x := by
  obtain ⟨hlo, -⟩ := h.next_bounds he
  obtain ⟨-, -, -, -, -, hmax⟩ := he.regs
  dsimp only [Config.dictMax] at hmax
  have hsize := he.size
  obtain ⟨hprev, hnext, hfresh⟩ | ⟨p, g, r, hprev, hnext, hentry, hheld'⟩ | ⟨hnext, hfull⟩ :=
    h.phase
  · rw [append_of_prev_none hprev, grownWidth_fresh he hfresh, ← hnext]
    exact ⟨rfl, h.cw, h.known⟩
  · obtain ⟨rfl, -⟩ : f = g ∧ q = r := List.cons.inj (hheld.symm.trans hheld')
    have hins : ∀ x, (d.insert p f).entry x = if x = d.next then some ⟨p, f⟩ else d.entry x :=
      entry_insert (by rw [h.clr]; exact hlo) p f
    rw [append_insert hprev (by omega), h.cw, State.grownWidth, ← hnext]
    refine ⟨rfl, if_congr (by omega) rfl rfl, fun x hx => (hins x).trans ?_⟩
    split
    · rw [‹x = d.next›, hentry]
    · exact h.known x (by omega)
  · rw [append_full (by omega), grownWidth_full he hfull, ← hnext]
    exact ⟨rfl, h.cw, h.known⟩

end

/-! ## Reading along -/

/-- The decoder `d`, whose `CBUF` is `b`, has read every code the encoder `e` has written; what it
has emitted and what the candidate holds back is `out`. -/
structure Tracks (b out : List Byte) (e d : State) : Prop extends Follows e d where
  cbuf : d.cbuf = b
  bitpos : d.bitpos = e.streamPos
  output : d.oidx ++ e.held = out

/-- The decoder `d` has also read the candidate's code `c`, which the encoder `e` writes next: its
dictionary and its output are complete. -/
structure CaughtUp (b out : List Byte) (e : State) (c : Code) (d : State) : Prop where
  decoding : d.Decoding
  mcs : d.mcs = e.mcs
  cw : d.cw = e.grownWidth
  next : d.next = e.next
  known : ∀ x < e.next, d.entry x = e.entry x
  prev : d.prev = some c
  cbuf : d.cbuf = b
  bitpos : d.bitpos = e.streamPos + e.cw
  output : d.oidx = out

/-- A candidate set to hold one symbol more keeps the decoder where it is (R183, R184). -/
theorem Tracks.setCand {b out : List Byte} {e d : State} (h : Tracks b out e d) {c : Code}
    {y : Byte} (hheld : ({ e with cand := some c }).held = e.held ++ [y]) :
    Tracks b (out ++ [y]) { e with cand := some c } d where
  decoding := h.decoding
  mcs := h.mcs
  cw := h.cw
  known := h.known
  phase := by
    obtain hfresh | ⟨p, f, q, hp, hnext, hentry, hold⟩ | hfull := h.phase
    · exact .inl hfresh
    · exact .inr (.inl ⟨p, f, q ++ [y], hp, hnext, hentry, by rw [hheld, hold]; rfl⟩)
    · exact .inr (.inr hfull)
  cbuf := h.cbuf
  bitpos := h.bitpos
  output := by rw [hheld, ← List.append_assoc, h.output]

section
variable {b out : List Byte} {e d : State} (he : e.Encoding)
include he

/-- The decoder reads the candidate's code at the width it is written with. -/
theorem Tracks.read (h : Tracks b out e d) {c : Code} (hc : e.cand = some c)
    (hb : (putBits c.toNat e.cw e).WrittenTo b) :
    ∃ d', exec .decRun d = exec .decRun d' ∧ CaughtUp b out e c d' := by
  obtain ⟨f, q, hq, hheld⟩ := seq_of_cand he.inv hc
  obtain ⟨hlen, hfield⟩ := hb.field_eq he.writer (he.inv.seqCode_lt (he.inv.candCode c hc))
  have hread : Follows e { d with bitpos := d.bitpos + d.cw } :=
    ⟨h.decoding, h.mcs, h.cw, h.known, h.phase⟩
  have hstep : stepCode d = .next ({ d with bitpos := d.bitpos + d.cw }.emit c f q) := by
    rw [stepCode_of_field (h.codecRegs he.inv)
      (by rw [State.clen, h.cbuf, h.bitpos, h.cw]; exact hlen)
      (by rw [h.cbuf, h.bitpos, h.cw]; exact hfield)]
    exact hread.exec_code he.inv hc hq
  have hout : Follows e { d with bitpos := d.bitpos + d.cw, oidx := d.oidx ++ f :: q } :=
    ⟨h.decoding, h.mcs, h.cw, h.known, h.phase⟩
  obtain ⟨hnext, hcw, hknown⟩ := hout.append he.inv hheld
  obtain ⟨dd, nn, ww, ha⟩ :=
    append_frame f { d with bitpos := d.bitpos + d.cw, oidx := d.oidx ++ f :: q }
  rw [State.emit, ha] at hstep
  rw [ha] at hnext hcw hknown
  refine ⟨_, decRun_of_stepCode h.decoding.1 hstep h.decoding.1, h.decoding, h.mcs, hcw, hnext,
    hknown, rfl, h.cbuf, ?_, ?_⟩
  · exact congrArg₂ (· + ·) h.bitpos h.cw
  · rw [← h.output, hheld]

/-- A decoder that has caught up is one entry behind once the encoder has inserted (R185). -/
theorem CaughtUp.tracks_insert {c : Code} {y : Byte} (h : CaughtUp b out e c d)
    (hy : y.toNat < e.clr) (hroom : e.next < 4096) :
    Tracks b (out ++ [y]) (emitInsert c y e) d := by
  have hpos := streamPos_emitInsert he.writer c y
  obtain ⟨a, n, p, hins⟩ := emitInsert_room hroom c y
  rw [hins] at hpos ⊢
  have hentry : ∀ x, (e.insert c y).entry x = if x = e.next then some ⟨c, y⟩ else e.entry x :=
    entry_insert he.inv.clr_le_next c y
  have hheld := held_symbol (e := { e.insert c y with
    cw := e.grownWidth, cand := some (y.setWidth 12), acc := a, nacc := n, pbuf := p }) rfl hy
  have hlast : (e.insert c y).entry d.next = some ⟨c, y⟩ := by rw [hentry, if_pos h.next]
  have hknown : ∀ x < d.next, d.entry x = (e.insert c y).entry x := fun x hx => by
    rw [h.next] at hx
    rw [hentry, if_neg hx.ne, h.known x hx]
  have hnext : d.next + 1 = e.next + 1 := congrArg (· + 1) h.next
  exact ⟨⟨h.decoding, h.mcs, h.cw, hknown, .inr (.inl ⟨c, y, [], h.prev, hnext, hlast, hheld⟩)⟩,
    h.cbuf, h.bitpos.trans hpos.symm, by rw [hheld, h.output]⟩

/-- A decoder that has caught up with a full dictionary stays level with it (R186). -/
theorem CaughtUp.tracks_full {c : Code} {y : Byte} (h : CaughtUp b out e c d)
    (hy : y.toNat < e.clr) (hroom : ¬ e.next < 4096) :
    Tracks b (out ++ [y]) (emitInsert c y e) d := by
  have hpos := streamPos_emitInsert he.writer c y
  obtain ⟨a, n, p, hins⟩ := emitInsert_no_room hroom c y
  rw [hins] at hpos ⊢
  have hheld := held_symbol (e := { e with
    cand := some (y.setWidth 12), acc := a, nacc := n, pbuf := p }) rfl hy
  have hfull : e.next = 4096 := by
    obtain ⟨-, -, -, -, -, hmax⟩ := he.inv.regs
    exact le_antisymm hmax (not_lt.mp hroom)
  have hcw := h.cw.trans (grownWidth_full he.inv hfull)
  have hknown : ∀ x < d.next, d.entry x = e.entry x := fun x hx => h.known x (h.next ▸ hx)
  exact ⟨⟨h.decoding, h.mcs, hcw, hknown, .inr (.inr ⟨h.next, hfull⟩)⟩, h.cbuf,
    h.bitpos.trans hpos.symm, by rw [hheld, h.output]⟩

/-- One symbol of the walk: the decoder reads the code it wrote, if it wrote one (R182 to R185). -/
theorem Tracks.walk (h : Tracks b out e d) {y : Byte} (hy : y.toNat < e.clr)
    (hb : (walk y e).WrittenTo b) :
    ∃ d', exec .decRun d = exec .decRun d' ∧ Tracks b (out ++ [y]) (walk y e) d' := by
  cases hc : e.cand with
  | none =>
    rw [walk_first hc]
    refine ⟨d, rfl, h.setCand ?_⟩
    rw [held_of_cand_none hc]
    exact held_symbol (e := { e with cand := some (y.setWidth 12) }) rfl hy
  | some p =>
    cases hl : e.lookup p y with
    | some c =>
      rw [walk_extend hc hl]
      exact ⟨d, rfl, h.setCand (held_extend he.inv hc hl)⟩
    | none =>
      rw [walk_emit hc hl] at hb ⊢
      obtain ⟨d', hrun, hcaught⟩ := h.read he hc (writtenTo_emitInsert.mp hb)
      refine ⟨d', hrun, ?_⟩
      by_cases hroom : e.next < 4096
      · exact hcaught.tracks_insert he hy hroom
      · exact hcaught.tracks_full he hy hroom

end

/-- The walk over the symbols, of which the last state's stream holds every code. -/
theorem Tracks.walks {b out syms : List Byte} {e d : State} (h : Tracks b out e d) (he : e.Encoding)
    (hs : ∀ y ∈ syms, y.toNat < e.clr) (hb : (walks syms e).WrittenTo b) :
    ∃ d', exec .decRun d = exec .decRun d' ∧ Tracks b (out ++ syms) (walks syms e) d' := by
  induction syms generalizing out e d with
  | nil => exact ⟨d, rfl, by rwa [List.append_nil]⟩
  | cons y ys ih =>
    obtain ⟨hy, hys⟩ := List.forall_mem_cons.mp hs
    have henc := he.walk hy
    have hys' : ∀ x ∈ ys, x.toNat < (Machine.walk y e).clr := by rwa [walk_clr]
    obtain ⟨d₁, hrun₁, h₁⟩ := h.walk he hy (hb.of_walks henc hys')
    obtain ⟨d₂, hrun₂, h₂⟩ := ih h₁ henc hys' hb
    refine ⟨d₂, hrun₁.trans hrun₂, ?_⟩
    rwa [List.append_assoc] at h₂

/-! ## The end of the stream (R187, R191 (d)) -/

/-- At `EOI`, at the width it was written with or one bit more, the decode ends: the bit more is a
padding bit, which is 0, or there is none. -/
theorem decRun_at_eoi {d u : State} (hd : d.Decoding) (hr : d.CodecRegs) (hu : u.PartialOk)
    (hmcs : d.mcs = u.mcs) (hcbuf : d.cbuf = (flush (putEoi u)).pbuf)
    (hpos : d.bitpos = u.streamPos) (hcw : d.cw = u.cw ∨ d.cw = u.cw + 1)
    (heoi : u.eoiCode < 2 ^ u.cw) :
    ∃ v, exec .decRun d = .next v ∧ v.mode = .idle ∧ v.oidx = d.oidx ∧ v.eoif ≠ v.exhf := by
  obtain ⟨hm, heoif, hexhf⟩ := hd
  by_cases hb : d.bitpos + d.cw ≤ 8 * d.clen
  · have hput : (putEoi u).PartialOk := putBits_partialOk hu
    obtain ⟨-, hfield⟩ := (writtenTo_flush hput).field_eq hu heoi
    have hcode : field d.cbuf d.bitpos d.cw = d.eoiCode := by
      have heq : d.eoiCode = u.eoiCode := by unfold State.eoiCode State.clr; rw [hmcs]
      rw [hcbuf, hpos, heq]
      rcases hcw with hcw | hcw <;> rw [hcw]
      · exact hfield
      · have hzero := bitAt_flush_padding hput (putBits_streamPos hu).le
        rw [field_succ, hzero, Nat.zero_mul]
        exact hfield
    have hend := decRun_of_stepCode_end hm (stepCode_eoi hm hr hb hcode) (by simp)
    exact ⟨_, hend, rfl, rfl, by simp [hexhf]⟩
  · have hend := decRun_of_stepCode_end hm (stepCode_exhausted hr (by omega)) (by simp)
    exact ⟨_, hend, rfl, rfl, by simp [heoif]⟩

/-- A decoder that has caught up has the encoder's width, or one bit more (R191). -/
theorem grownWidth_cases (e : State) : e.grownWidth = e.cw ∨ e.grownWidth = e.cw + 1 := by
  unfold State.grownWidth
  split
  · exact .inr rfl
  · exact .inl rfl

theorem CaughtUp.codecRegs {b out : List Byte} {e d : State} {c : Code} (h : CaughtUp b out e c d)
    (he : e.EncInv) : d.CodecRegs := by
  obtain ⟨h2, h8, hcw, hmax, hlo, hhi⟩ := he.regs
  have hwidth : e.cw ≤ e.grownWidth ∧ e.grownWidth ≤ 12 := by
    unfold State.grownWidth
    split
    · exact ⟨Nat.le_succ _, And.right ‹_›⟩
    · exact ⟨le_rfl, hmax⟩
  rw [State.CodecRegs, State.clr, h.mcs, h.next, h.cw]
  exact ⟨h2, h8, hcw.trans hwidth.1, hwidth.2, hlo, hhi⟩

/-- From where the decoder follows the encoder, the run reads the final candidate's code and `EOI`,
and all symbols are out (R187, R189). -/
theorem Tracks.finish {out : List Byte} {e d : State} (h : Tracks e.packed out e d)
    (he : e.Encoding) :
    ∃ v, exec .decRun d = .next v ∧ v.mode = .idle ∧ v.oidx = out ∧ v.eoif ≠ v.exhf := by
  have heoi := eoiCode_lt he.inv.regs
  cases hc : e.cand with
  | none =>
    have hput : putCandidate e = e := by rw [putCandidate, hc]
    have hcbuf : d.cbuf = (flush (putEoi e)).pbuf := by rw [h.cbuf, State.packed, hput]
    have hout := h.output
    rw [held_of_cand_none hc, List.append_nil] at hout
    rw [← hout]
    exact decRun_at_eoi h.decoding (h.codecRegs he.inv) he.writer h.mcs hcbuf h.bitpos (.inl h.cw)
      heoi
  | some c =>
    have hput : putCandidate e = putBits c.toNat e.cw e := by rw [putCandidate, hc]
    have hwriter : (putBits c.toNat e.cw e).PartialOk := putBits_partialOk he.writer
    obtain ⟨-, hpacked⟩ := writtenTo_packed he.writer
    have hb : (putBits c.toNat e.cw e).WrittenTo e.packed := hput ▸ hpacked
    obtain ⟨d', hrun, hd⟩ := h.read he hc hb
    have hcbuf : d'.cbuf = (flush (putEoi (putBits c.toNat e.cw e))).pbuf := by
      rw [hd.cbuf, State.packed, hput]
    have hcw : d'.cw = (putBits c.toNat e.cw e).cw ∨ d'.cw = (putBits c.toNat e.cw e).cw + 1 := by
      rw [putBits_cw, hd.cw]
      exact grownWidth_cases e
    have heoi' : (putBits c.toNat e.cw e).eoiCode < 2 ^ (putBits c.toNat e.cw e).cw := by
      unfold State.eoiCode State.clr
      rw [putBits_mcs, putBits_cw]
      exact heoi
    rw [hrun, ← hd.output]
    exact decRun_at_eoi hd.decoding (hd.codecRegs he.inv) hwriter (by rw [putBits_mcs, hd.mcs])
      hcbuf (hd.bitpos.trans (putBits_streamPos he.writer).symm) hcw heoi'

/-! ## The inverse law (R189) -/

theorem decStart_codecRegs {m : Word} (h : mcsInRange m) (w : State) : (w.decStart m).CodecRegs :=
  (encInit_encInv (s := State.reset) h Memory.wf_reset).regs

/-- After the first code, which is `CLR`, the decoder follows the encoder that `ENC_START` made. -/
theorem decRun_decStart_tracks {s w : State} {m : Word} (hm : mcsInRange m)
    (hb : (s.encStart m).WrittenTo w.cbuf) :
    ∃ d, exec .decRun (w.decStart m) = exec .decRun d ∧ Tracks w.cbuf [] (s.encStart m) d := by
  have hpow : 2 ^ m.toNat < 2 ^ (m.toNat + 1) :=
    Nat.pow_lt_pow_right (by decide) (Nat.lt_succ_self _)
  have hput : (putBits (2 ^ m.toNat) (m.toNat + 1) (s.encInit m)).WrittenTo w.cbuf := hb
  obtain ⟨hlen, hfield⟩ := hput.field_eq (encInit_partialOk m s) hpow
  have hstart : (s.encInit m).streamPos = 0 := rfl
  rw [hstart] at hlen hfield
  have hclear := stepCode_clear (d := w.decStart m) rfl (decStart_codecRegs hm w) hlen hfield
  have hpos : (s.encStart m).streamPos = 0 + (m.toNat + 1) :=
    putBits_streamPos (encInit_partialOk m s)
  have hmcs : (s.encStart m).mcs = m.toNat := putBits_mcs _ _ _
  have hcw : (s.encStart m).cw = m.toNat + 1 := putBits_cw _ _ _
  have hnext : (s.encStart m).next = 2 ^ m.toNat + 2 := putBits_next _ _ _
  have hcand : (s.encStart m).cand = none := putBits_cand _ _ _
  have hfresh : (s.encStart m).next = (s.encStart m).clr + 2 := by rw [hnext, encStart_clr]
  refine ⟨_, decRun_of_stepCode rfl hclear rfl, ⟨⟨rfl, rfl, rfl⟩, hmcs.symm, hcw.symm,
    fun x _ => ?_, .inl ⟨rfl, hnext.symm, hfresh⟩⟩, rfl, hpos.symm, ?_⟩
  · rw [entry_fresh rfl, entry_fresh hfresh]
  · rw [held_of_cand_none hcand]
    rfl

/-- `DECODE mcs` of the bytes an encode packed gives the symbols (R189). -/
theorem decRun_packed {s w : State} {m : Word} {syms : List Byte} (hm : mcsInRange m)
    (hw : s.dict.wf = true) (hs : ∀ y ∈ syms, y.toNat < 2 ^ m.toNat)
    (hcbuf : w.cbuf = (walks syms (s.encStart m)).packed) :
    ∃ v, exec .decRun (w.decStart m) = .next v ∧ v.mode = .idle ∧ v.oidx = syms ∧
      v.eoif ≠ v.exhf := by
  have he := encStart_encoding hm hw
  have hs' : ∀ y ∈ syms, y.toNat < (s.encStart m).clr := by rwa [encStart_clr]
  have hend := he.walks hs'
  obtain ⟨hpacked, -⟩ := writtenTo_packed hend.writer
  have hb : (walks syms (s.encStart m)).WrittenTo w.cbuf := hcbuf ▸ hpacked
  obtain ⟨d₀, hrun₀, h₀⟩ := decRun_decStart_tracks hm (hb.of_walks he hs')
  obtain ⟨d, hrun, h⟩ := h₀.walks he hs' hb
  rw [hcbuf, List.nil_append] at h
  rw [hrun₀, hrun]
  exact h.finish hend

theorem exec_rdSubblocks_run {s : State} {blocks : List (List Byte)} {rest : List Byte}
    (hm : s.mode = .idle) (hb : LegalBlocks blocks)
    (h : s.ibuf.drop s.rpos = runBytes blocks ++ rest) :
    exec .rdSubblocks s = .next { s with
      rpos := s.rpos + (runBytes blocks).length, cbuf := blocks.flatten, bitpos := 0,
      pay := [] } :=
  (inMode_idle hm).trans (readSubblocks_run hm hb h)

/-- The state after the run of `blocks`, and nothing else, was loaded by `RD_OPEN` and read by
`RD_SUBBLOCKS`. -/
def State.readRunOf (blocks : List (List Byte)) (u : State) : State :=
  { u with
    ibuf := runBytes blocks, rpos := (runBytes blocks).length, cbuf := blocks.flatten,
    bitpos := 0, pay := [] }

/-- A run loaded and read is its payload in `CBUF` (R121, R126). -/
theorem runAll_rdOpen_rdSubblocks {u : State} (hm : u.mode = .idle) {blocks : List (List Byte)}
    (hb : LegalBlocks blocks) (hlen : (runBytes blocks).length < 2 ^ u.posw) (rest : List Instr) :
    runAll (.rdOpen (runBytes blocks) :: .rdSubblocks :: rest) u =
      runAll rest (u.readRunOf blocks) := by
  have hopen : exec (.rdOpen (runBytes blocks)) u =
      .next { u with ibuf := runBytes blocks, rpos := 0 } := by
    rw [exec, execRdOpen, inMode_idle hm, checked_ok hlen]
  have hread := exec_rdSubblocks_run (s := { u with ibuf := runBytes blocks, rpos := 0 })
    (rest := []) hm hb (List.append_nil _).symm
  rw [Nat.zero_add] at hread
  rw [runAll_cons hopen]
  exact runAll_cons hread

/-- A decode leaves the byte cursor where it is (R163). -/
theorem rpos_of_decRun {d v : State} (h : exec .decRun d = .next v) (hv : v.mode ≠ .fault) :
    v.rpos = d.rpos := by
  have hmove := (exec_decodes (i := .decRun) rfl d v h).resolve_left hv
  rw [hmove]

/-- Settles O58: the decoder that reads the run back tracks the encoder that wrote it. -/
theorem decodeInvertsEncode : Obligations.DecodeInvertsEncode := by
  intro m syms s u h2 h8 hs hm hw hu
  obtain ⟨blocks, hlegal, hflat, hrun⟩ :=
    subBlocks_eq_runBytes (walks syms (s.encStart m)).packed
  obtain ⟨hmode, -⟩ := encEnd_outcome (walks syms (s.encStart m))
  refine ⟨_, runBytes blocks, runAll_encodeCommands hm ⟨h2, h8⟩ hw hs, hmode,
    hrun ▸ encoded_eout m syms s, fun hlen => ?_⟩
  rw [runAll_rdOpen_rdSubblocks hu hlegal hlen, runAll_decodeCommands (by exact hu) ⟨h2, h8⟩]
  obtain ⟨v, hv, hidle, hout, hflags⟩ :=
    decRun_packed (w := u.readRunOf blocks) ⟨h2, h8⟩ hw hs hflat
  exact ⟨v, hv, hidle, rpos_of_decRun hv (by simp [hidle]), hout, hflags⟩

end Sys2Proof.Machine
end

section
/-! SUPPORT. The canonical sub-blocks of a payload: 255 bytes each but the last (R90, R202). -/

namespace Sys2Proof.Machine

/-- The payloads of the sub-blocks `Chunk` writes, with the bound of `subBlocks` on their number. -/
def canonicalBlocks : Nat → List Byte → List (List Byte)
  | 0, _ => []
  | _ + 1, [] => []
  | k + 1, b :: p => (b :: p).take 255 :: canonicalBlocks k ((b :: p).drop 255)

/-- `Chunk` frames the canonical blocks (R202). -/
theorem subBlocks_eq_runBytes_canonicalBlocks (k : Nat) (p : List Byte) :
    subBlocks k p = runBytes (canonicalBlocks k p) := by
  induction k generalizing p with
  | zero => rfl
  | succ k ih =>
    cases p with
    | nil => rfl
    | cons b p =>
      have htake : (b :: p).take (min 255 (b :: p).length) = (b :: p).take 255 :=
        List.take_eq_take_min.symm
      have hdrop : (b :: p).drop (min 255 (b :: p).length) = (b :: p).drop 255 :=
        List.drop_eq_drop_min.symm
      rw [canonicalBlocks, runBytes_cons, ← ih, List.length_take, subBlocks]
      simp only [Config.sbMax, htake, hdrop]

theorem canonicalBlocks_legal (k : Nat) (p : List Byte) : LegalBlocks (canonicalBlocks k p) := by
  induction k generalizing p with
  | zero => exact nofun
  | succ k ih =>
    cases p with
    | nil => exact nofun
    | cons b p =>
      refine legalBlocks_cons.mpr ⟨?_, ih _⟩
      rw [List.length_take, List.length_cons]
      omega

theorem canonicalBlocks_flatten {k : Nat} {p : List Byte} (hk : p.length ≤ k) :
    (canonicalBlocks k p).flatten = p := by
  induction k generalizing p with
  | zero => exact (List.length_eq_zero_iff.mp (Nat.le_zero.mp hk)).symm
  | succ k ih =>
    cases p with
    | nil => rfl
    | cons b p =>
      have hrest : ((b :: p).drop 255).length ≤ k := by
        rw [List.length_drop]
        omega
      rw [canonicalBlocks, List.flatten_cons, ih hrest, List.take_append_drop]

/-- A block that another one follows is full (R202). -/
theorem canonicalBlocks_full (k : Nat) (p : List Byte) :
    ∀ b ∈ (canonicalBlocks k p).dropLast, b.length = 255 := by
  induction k generalizing p with
  | zero => exact nofun
  | succ k ih =>
    cases p with
    | nil => exact nofun
    | cons c p =>
      by_cases hnil : canonicalBlocks k ((c :: p).drop 255) = []
      · rw [canonicalBlocks, hnil]
        exact nofun
      · have hlong : 255 < (c :: p).length := by
          by_contra hshort
          rw [List.drop_eq_nil_of_le (Nat.not_lt.mp hshort)] at hnil
          exact hnil (by cases k <;> rfl)
        rw [canonicalBlocks, List.dropLast_cons_of_ne_nil hnil, List.forall_mem_cons]
        exact ⟨List.length_take_of_le hlong.le, ih _⟩

/-- A run has a size byte per block and the terminator besides its payload (R90). -/
theorem runBytes_length (blocks : List (List Byte)) :
    (runBytes blocks).length = blocks.flatten.length + blocks.length + 1 := by
  induction blocks with
  | nil => rfl
  | cons b bs ih =>
    rw [runBytes_cons, List.flatten_cons, List.length_append, List.length_append, ih,
      List.length_cons, List.length_cons]
    omega

/-- `L` bytes make `ceil(L / 255)` canonical blocks (R202). -/
theorem canonicalBlocks_length {k : Nat} {p : List Byte} (hk : p.length ≤ k) :
    (canonicalBlocks k p).length = (p.length + 254) / 255 := by
  induction k generalizing p with
  | zero => rw [Nat.le_zero.mp hk]; rfl
  | succ k ih =>
    cases p with
    | nil => rfl
    | cons b p =>
      have hdrop : ((b :: p).drop 255).length = p.length + 1 - 255 := List.length_drop
      rw [List.length_cons] at hk
      rw [canonicalBlocks, List.length_cons, ih (by omega), hdrop, List.length_cons]
      omega

end Sys2Proof.Machine
end

section
/-! SUPPORT. The writer's commands in `IDLE` mode, one equation per outcome (R203 to R208). -/

namespace Sys2Proof.Machine

/-- Without a partial byte `Flush` does nothing (R201). -/
theorem flush_aligned {s : State} (hn : s.nacc = 0) : flush s = s :=
  if_neg hn.not_gt

/-- A partial byte is completed (R201). -/
theorem flush_partial {s : State} (hn : 0 < s.nacc) :
    flush s = { s with pbuf := s.pbuf ++ [s.acc], acc := 0, nacc := 0 } :=
  if_pos hn

/-- Everything `Flush` writes (R201). -/
theorem flush_eq (s : State) :
    flush s = { s with
      pbuf := s.pbuf ++ (if 0 < s.nacc then [s.acc] else []),
      acc := if 0 < s.nacc then 0 else s.acc, nacc := 0 } := by
  by_cases hn : 0 < s.nacc
  · rw [flush_partial hn, if_pos hn, if_pos hn]
  · have h0 : s.nacc = 0 := Nat.eq_zero_of_not_pos hn
    rw [flush_aligned h0, if_neg hn, if_neg hn, List.append_nil, ← h0]

/-- `PutBits` writes the stream's three parts only (R200). -/
theorem putBits_eq (v w : Nat) (s : State) :
    putBits v w s = { s with
      acc := (putBits v w s).acc, nacc := (putBits v w s).nacc, pbuf := (putBits v w s).pbuf } := by
  obtain ⟨a, n, p, h⟩ := putBits_frame v w s
  rw [h]

variable {s : State} (hm : s.mode = .idle)
include hm

theorem exec_wrSubblocks : exec .wrSubblocks s = .next (chunk (flush s)) :=
  inMode_idle hm

theorem exec_bwFlush : exec .bwFlush s = .next (flush s) :=
  inMode_idle hm

theorem exec_wrU8 {v : Word} (hv : byteInRange v) :
    exec (.wrU8 v) s = .next { s with eout := s.eout ++ [v.setWidth 8] } := by
  rw [exec, execWrU8, inMode_idle hm, checked_ok hv]

theorem exec_wrU8_range {v : Word} (hv : ¬ byteInRange v) :
    exec (.wrU8 v) s = .next (s.raise .badOperand opWrU8.toNat) := by
  rw [exec, execWrU8, inMode_idle hm, checked_bad hv]

theorem exec_wrU16 {v : Word} (hv : u16InRange v) :
    exec (.wrU16 v) s = .next { s with eout := s.eout ++ u16Bytes v } := by
  rw [exec, execWrU16, inMode_idle hm, checked_ok hv]

theorem exec_wrU16_range {v : Word} (hv : ¬ u16InRange v) :
    exec (.wrU16 v) s = .next (s.raise .badOperand opWrU16.toNat) := by
  rw [exec, execWrU16, inMode_idle hm, checked_bad hv]

theorem exec_bwPut {v w : Word} (hw : widthInRange w) (hv : v.toNat < 2 ^ w.toNat) :
    exec (.bwPut v w) s = .next (putBits v.toNat w.toNat s) := by
  rw [exec, execBwPut, inMode_idle hm, checked_ok hw, checked_ok hv]

theorem exec_bwPut_width {v w : Word} (hw : ¬ widthInRange w) :
    exec (.bwPut v w) s = .next (s.raise .badOperand opBwPut.toNat) := by
  rw [exec, execBwPut, inMode_idle hm, checked_bad hw]

theorem exec_bwPut_value {v w : Word} (hw : widthInRange w) (hv : 2 ^ w.toNat ≤ v.toNat) :
    exec (.bwPut v w) s = .next (s.raise .badOperand opBwPut.toNat) := by
  rw [exec, execBwPut, inMode_idle hm, checked_ok hw, checked_bad hv.not_gt]

end Sys2Proof.Machine
end

section
/-! The obligations on the bit writer (R200 to R209). -/

namespace Sys2Proof.Machine

/-- The two bytes of a 16-bit field by its number (R53, R205). -/
theorem u16Bytes_eq (v : Word) :
    u16Bytes v = [BitVec.ofNat 8 (v.toNat % 256), BitVec.ofNat 8 (v.toNat / 256)] := by
  have hlo : v.setWidth 8 = BitVec.ofNat 8 (v.toNat % 256) := by
    apply BitVec.eq_of_toNat_eq
    rw [BitVec.toNat_setWidth, BitVec.toNat_ofNat, Nat.mod_mod]
  have hhi : (v >>> 8).setWidth 8 = BitVec.ofNat 8 (v.toNat / 256) := by
    apply BitVec.eq_of_toNat_eq
    rw [BitVec.toNat_setWidth, BitVec.toNat_ushiftRight, Nat.shiftRight_eq_div_pow,
      BitVec.toNat_ofNat]
  rw [u16Bytes, hlo, hhi]

/-- Settles O46: the run of the packed bytes, loaded and read, is its payload. -/
theorem framingRoundTrip : Obligations.FramingRoundTrip := by
  intro s u hs hn hu
  obtain ⟨blocks, hlegal, hflat, hrun⟩ := subBlocks_eq_runBytes s.pbuf
  refine ⟨chunk s, runBytes blocks, ?_, by rw [chunk_eout, hrun], fun hlen =>
    ⟨u.readRunOf blocks, runAll_rdOpen_rdSubblocks hu hlegal hlen [], hu, hflat,
      congrArg List.length hflat, rfl⟩⟩
  rw [exec_wrSubblocks hs, flush_aligned hn]

/-- Settles O43: the two checks, then what `PutBits` does to the stream. -/
theorem bwPutWritesFieldAtStreamEnd : Obligations.BwPutWritesFieldAtStreamEnd := by
  refine fun s v w d => ⟨rfl, fun hm => ⟨fun h => ?_, fun h1 h16 hv => ?_,
    fun hn ha h1 h16 hv => ?_⟩⟩
  · have hw : ¬ widthInRange w := fun ⟨h1, h16⟩ => h.elim h1.not_gt h16.not_gt
    rw [exec_bwPut_width hm hw]
    exact raises_raise _ _
  · rw [exec_bwPut_value hm ⟨h1, h16⟩ hv]
    exact raises_raise _ _
  · have hs : s.PartialOk := ⟨hn, ha⟩
    obtain ⟨hn', ha'⟩ := putBits_partialOk (v := v.toNat) (w := w.toNat) hs
    exact ⟨_, exec_bwPut hm ⟨h1, h16⟩ hv, putBits_eq _ _ s, hn', ha', putBits_streamPos hs,
      putBits_field hs hv, fun k => putBits_before hs⟩

/-- Settles O45: the flushed bytes are framed in their canonical blocks. -/
theorem wrSubblocksAppendsCanonicalRun : Obligations.WrSubblocksAppendsCanonicalRun := by
  refine fun s a0 a1 d p => ⟨rfl, fun hm hp => ⟨canonicalBlocks p.length p,
    canonicalBlocks_legal _ _, canonicalBlocks_full _ _, canonicalBlocks_flatten le_rfl, ?_, ?_⟩⟩
  · rw [runBytes_length, canonicalBlocks_flatten le_rfl, canonicalBlocks_length le_rfl]
  · rw [exec_wrSubblocks hm, chunk, flush_eq, ← hp, subBlocks_eq_runBytes_canonicalBlocks]

/-- Settles O42 by the outcomes of the three commands. -/
theorem writerBytesGoToEout : Obligations.WriterBytesGoToEout := by
  refine fun s v a1 d => ⟨rfl, rfl, rfl, fun hm =>
    ⟨inMode_idle hm, fun h => ?_, exec_wrU8 hm, fun h => ?_, fun h => ?_⟩⟩
  · rw [exec_wrU8_range hm h.not_ge]
    exact raises_raise _ _
  · rw [exec_wrU16_range hm h.not_ge]
    exact raises_raise _ _
  · rw [exec_wrU16 hm h, u16Bytes_eq]

/-- Settles O44 by the partial byte there is, or none. -/
theorem bwFlushCompletesPartialByte : Obligations.BwFlushCompletesPartialByte := by
  refine fun s a0 a1 d => ⟨rfl, fun hm => ?_⟩
  rw [exec_bwFlush hm]
  exact ⟨fun hn => by rw [flush_partial hn], fun hn => by rw [flush_aligned hn]⟩

end Sys2Proof.Machine
end

section
/-! SUPPORT. Every command completes under the invariant (R220): one rule per guard of a command, then
each command by what its body answers. -/

namespace Sys2Proof.Machine

/-- The result is a next state. -/
def Completes (r : Result) : Prop := ∃ t, r = .next t

theorem completes_next (t : State) : Completes (.next t) := ⟨t, rfl⟩

/-- A guarded command (R224) owes its body in the mode it needs. -/
theorem completes_inMode {need : Mode} {op : Byte} {s : State} {k : Result}
    (hk : s.mode = need → Completes k) : Completes (inMode need op s k) := by
  rcases inMode_cases (need := need) (op := op) (s := s) (k := k) with
    ⟨-, e⟩ | ⟨-, hm, e⟩ | ⟨-, -, e⟩ <;> rw [e]
  · exact completes_next _
  · exact hk hm
  · exact completes_next _

/-- A checked operand (R224) owes the rest of the body. -/
theorem completes_checked {ok : Prop} [Decidable ok] {c : Cause} {info : Nat} {s : State}
    {k : Result} (hk : Completes k) : Completes (checked ok c info s k) := by
  by_cases h : ok
  · rwa [checked_ok h]
  · rw [checked_bad h]
    exact completes_next _

/-! ## The commands that read (R122 to R127, R142) -/

theorem execRdU8_completes (s : State) : Completes (execRdU8 s) :=
  completes_inMode fun _ => by
    cases readByte s with
    | none | some => exact completes_next _

theorem execRdU16_completes (s : State) : Completes (execRdU16 s) :=
  completes_inMode fun _ => by split <;> exact completes_next _

theorem execRdExpect_completes (k : Word) (s : State) : Completes (execRdExpect k s) :=
  completes_inMode fun _ => completes_checked <| by
    cases readByte s with
    | none => exact completes_next _
    | some bt =>
      dsimp only
      split <;> exact completes_next _

theorem execRdBytes_completes (n : Word) (s : State) : Completes (execRdBytes n s) :=
  completes_inMode fun _ => by
    cases readRun n.toNat s with
    | none | some => exact completes_next _

theorem execBrGet_completes (w : Word) (s : State) : Completes (execBrGet w s) :=
  completes_inMode fun _ => completes_checked <| by
    cases getBits w.toNat s with
    | none | some => exact completes_next _

/-- The loop of R126 ends within its bound. -/
theorem execRdSubblocks_completes (s : State) : Completes (execRdSubblocks s) :=
  completes_inMode fun hm =>
    have ⟨t, ht, _⟩ := readSubblocks_cases hm
    ⟨t, ht⟩

/-- With a byte at `RPOS`, `RD_IMAGEDATA` is `RD_SUBBLOCKS` past it (R127). -/
theorem execRdImagedata_completes (s : State) : Completes (execRdImagedata s) := by
  by_cases hm : s.mode = .idle
  · rcases byte_or_end s with ⟨b, hb⟩ | hend
    · rw [execRdImagedata_byte hm hb]
      exact execRdSubblocks_completes _
    · exact ⟨_, execRdImagedata_underrun hm hend⟩
  · exact completes_inMode fun h => absurd h hm

theorem execIllegal_completes (op : Byte) (s : State) : Completes (execIllegal op s) := by
  unfold execIllegal
  split <;> exact completes_next _

/-! ## The codec under the invariant (R12 to R14, R30) -/

/-- The check of the codec registers passes in a decode or an encode (R12 to R14). -/
theorem completes_codecOk {s : State} {k : Result} (h : s.Inv) (hm : s.mode = .dec ∨ s.mode = .enc)
    (hk : Completes k) : Completes (codecOk s k) := by
  rwa [codecOk_ok (h.codecInv hm).regs]

/-- Each code of the run consumes bits of `CBUF`, which ends it within its bound (R161). -/
theorem execDecRun_completes {s : State} (h : s.Inv) : Completes (execDecRun s) :=
  completes_inMode fun hm => decLoop_completes h hm (s.codesLeft_lt.trans_le (by omega))

/-! ## One command, one access, one step -/

/-- Every command completes under the invariant. -/
theorem exec_completes {i : Instr} {s : State} (hi : i.format = .cmd) (h : s.Inv) :
    Completes (exec i s) := by
  cases i with
  | nop | reset => exact completes_next _
  | rdOpen | cbLoad | decStart | encStart | wrU8 | wrU16 =>
    exact completes_inMode fun _ => completes_checked (completes_next _)
  | brRewind | wrOpen | bwFlush | wrSubblocks => exact completes_inMode fun _ => completes_next _
  | bwPut =>
    exact completes_inMode fun _ => completes_checked (completes_checked (completes_next _))
  | rdU8 => exact execRdU8_completes s
  | rdU16 => exact execRdU16_completes s
  | rdExpect k => exact execRdExpect_completes k s
  | rdBytes n => exact execRdBytes_completes n s
  | rdSubblocks => exact execRdSubblocks_completes s
  | rdImagedata => exact execRdImagedata_completes s
  | brGet w => exact execBrGet_completes w s
  | decStep => exact completes_inMode fun hm => stepCode_completes h hm
  | decRun => exact execDecRun_completes h
  | encPut =>
    exact completes_inMode fun hm =>
      completes_codecOk h (.inr hm) (completes_checked (completes_next _))
  | encEnd => exact completes_inMode fun hm => completes_codecOk h (.inr hm) (completes_next _)
  | illegal op => exact execIllegal_completes op s
  | clear | eoi | literal | dict | kwkwk | invalid | sbData | sbEnd => cases hi

/-- Every access of the host completes under the invariant. -/
theorem access_completes {s : State} (h : s.Inv) (a : HostAccess) : Completes (access a s) := by
  cases a with
  | write no v data =>
    rw [access]
    split
    · exact exec_completes (decodeCommand_format _) (latchCmd_inv h v)
    · exact completes_next _
  | read | readOidx | readEout | hardReset => exact completes_next _

/-- Settles O50: a step is the host's oldest access, and every access completes. -/
theorem noStepStopsUnderInvariant : Obligations.NoStepStopsUnderInvariant := by
  intro s h
  cases hp : s.pending with
  | nil => exact ⟨s, step_of_no_pending hp⟩
  | cons a rest =>
    rw [step_of_pending hp]
    exact access_completes (h.of_hostSide rfl) a

end Sys2Proof.Machine
end

section
/-! SUPPORT. `NOP` and `FAULT` mode (R221, R225), and the command that a write of `CMD` runs (R220,
R26). -/

namespace Sys2Proof.Machine

/-- Settles O4: `NOP` changes nothing in any mode, and every other command but `RESET` checks for
`FAULT` mode first. -/
theorem faultModeIgnoresCommands : Obligations.FaultModeIgnoresCommands := by
  intro i s hi hne hm
  cases i with
  | nop => rfl
  | reset => exact absurd rfl hne
  | illegal op => exact if_pos hm
  | clear | eoi | literal | dict | kwkwk | invalid | sbData | sbEnd => cases hi
  | rdOpen | rdU8 | rdU16 | rdExpect | rdBytes | rdSubblocks | rdImagedata | cbLoad | brGet
  | brRewind | decStart | decStep | decRun | encStart | encPut | encEnd | wrOpen | wrU8 | wrU16
  | bwPut | bwFlush | wrSubblocks => exact inMode_fault hm

/-- Settles O2: opcode 0x00 is the first row of the opcode map, and `NOP` answers its own state. -/
theorem nopChangesNothing : Obligations.NopChangesNothing :=
  fun _ _ _ _ => ⟨rfl, rfl⟩

/-- What a write of `CMD` leaves in the register, as one update of the state (R26, R225). -/
theorem latchCmd_eq (s : State) (v : Word) :
    s.latchCmd v = { s with cmd := if s.mode = .fault then s.cmd else v.setWidth 8 } := by
  unfold State.latchCmd
  split <;> rfl

/-- A write of `CMD` runs the command of its opcode and of the operand registers (R26, R220). -/
theorem access_write_cmd (v : Word) (d : List Byte) (s : State) :
    access (.write regCmd v d) s = exec (s.command v d) (s.latchCmd v) := by
  rw [access, if_pos rfl]

/-- Settles O51: the step is the write of `CMD`, which latches the opcode outside `FAULT` mode. -/
theorem stepRunsDecodedCommand : Obligations.StepRunsDecodedCommand := by
  intro s v d rest h
  rw [step_of_pending h, BitVec.ofNat_toNat]
  show access (.write regCmd v d) _ = _
  rw [access_write_cmd, latchCmd_eq]
  rfl

end Sys2Proof.Machine
end

section
/-! SUPPORT. The faults of a command's checks (R224): the wrong mode (R236), an operand outside its
range (R233, R235, R237). -/

namespace Sys2Proof.Machine

/-- A result that is a raised fault, as the host sees it (R241). -/
theorem raises_of_eq {s : State} {r : Result} {c : Cause} {info : Nat}
    (h : r = .next (s.raise c info)) : Raises s r c info :=
  h ▸ raises_raise c info

/-- A guarded command outside the one mode it is legal in (R224, R236). -/
theorem raises_inMode_wrong {need : Mode} {op : Byte} {s : State} {k : Result}
    (hf : s.mode ≠ .fault) (h : (s.mode == need) = false) :
    Raises s (inMode need op s k) .illegalCommand op.toNat :=
  raises_of_eq (inMode_wrong hf (ne_of_beq_false h))

/-- Settles O5: an unassigned opcode raises in every mode, and each command but `NOP` and `RESET`
checks its mode before its operands. -/
theorem wrongModeRaisesIllegalCommand : Obligations.WrongModeRaisesIllegalCommand := by
  intro i s op hop hf hl
  cases i with
  | nop | reset => cases hl
  | illegal op =>
    cases hop
    exact raises_of_eq (if_neg hf)
  | clear | eoi | literal | dict | kwkwk | invalid | sbData | sbEnd => cases hop
  | rdOpen | rdU8 | rdU16 | rdExpect | rdBytes | rdSubblocks | rdImagedata | cbLoad | brGet
  | brRewind | decStart | decStep | decRun | encStart | encPut | encEnd | wrOpen | wrU8 | wrU16
  | bwPut | bwFlush | wrSubblocks =>
    cases hop
    exact raises_inMode_wrong hf hl

theorem exec_rdOpen_range {s : State} {d : List Byte} (hm : s.mode = .idle)
    (h : ¬ dataInRange s.posw d) :
    exec (.rdOpen d) s = .next (s.raise .badOperand opRdOpen.toNat) := by
  rw [exec, execRdOpen, inMode_idle hm, checked_bad h]

theorem exec_cbLoad_range {s : State} {d : List Byte} (hm : s.mode = .idle)
    (h : ¬ dataInRange s.posw d) :
    exec (.cbLoad d) s = .next (s.raise .badOperand opCbLoad.toNat) := by
  rw [exec, execCbLoad, inMode_idle hm, checked_bad h]

theorem exec_encPut_range {s : State} {y : Word} (hm : s.mode = .enc) (hr : s.CodecRegs)
    (hy : s.clr ≤ y.toNat) :
    exec (.encPut y) s = .next (s.raise .symbolRange y.toNat) := by
  rw [exec, execEncPut, inMode_enc hm, codecOk_ok hr, checked_bad hy.not_gt]

theorem not_widthInRange {w : Word} (h : w.toNat < 1 ∨ 16 < w.toNat) : ¬ widthInRange w :=
  fun ⟨h1, h16⟩ => h.elim h1.not_gt h16.not_gt

theorem not_mcsInRange {m : Word} (h : m.toNat < 2 ∨ 8 < m.toNat) : ¬ mcsInRange m :=
  fun ⟨h2, h8⟩ => h.elim h2.not_gt h8.not_gt

/-- Settles O6, one range check at a time. -/
theorem operandOutOfRangeRaisesBadOperand : Obligations.OperandOutOfRangeRaisesBadOperand := by
  refine fun s hm => ⟨fun k h => ?_, fun w h => ?_, fun v w h => ?_, fun v w h1 h16 h => ?_,
    fun v h => ?_, fun v h => ?_, fun d h => ?_, fun d h => ?_⟩
  · exact raises_of_eq (execRdExpect_range hm h.not_ge)
  · exact raises_of_eq (execBrGet_range hm (not_widthInRange h))
  · exact raises_of_eq (exec_bwPut_width hm (not_widthInRange h))
  · exact raises_of_eq (exec_bwPut_value hm ⟨h1, h16⟩ h)
  · exact raises_of_eq (exec_wrU8_range hm h.not_ge)
  · exact raises_of_eq (exec_wrU16_range hm h.not_ge)
  · exact raises_of_eq (exec_rdOpen_range hm h.not_gt)
  · exact raises_of_eq (exec_cbLoad_range hm h.not_gt)

/-- Settles O7: the check of the minimum code size, and of the symbol against `CLR`. -/
theorem codecOperandOutOfRangeFaults : Obligations.CodecOperandOutOfRangeFaults := by
  refine fun s => ⟨fun m hm h => ⟨?_, ?_⟩, fun y hm hr hy => ?_⟩
  · exact raises_of_eq (exec_decStart_range hm (not_mcsInRange h))
  · exact raises_of_eq (exec_encStart_range hm (not_mcsInRange h))
  · exact raises_of_eq (exec_encPut_range hm hr hy)

end Sys2Proof.Machine
end

section
/-! SUPPORT. The exits from `FAULT` mode (R243): what each access of the host does there. -/

namespace Sys2Proof.Machine

/-- A fault as it stands: the mode, and `CAUSE` and `FINFO` of the first fault (R25). -/
def State.KeepsFault (s t : State) : Prop :=
  t.mode = .fault ∧ t.cause = s.cause ∧ t.finfo = s.finfo

/-- The accesses that leave `FAULT` mode (R243): a hardware reset, and a write of `CMD` whose low 8
bits are the opcode of `RESET` (log 19). -/
def HostAccess.Resets (a : HostAccess) : Prop :=
  a = .hardReset ∨ ∃ v d, a = .write regCmd v d ∧ v.toNat % 256 = 0x01

/-- The opcode map gives `RESET` to the opcode 0x01 alone (R82). -/
theorem decodeCommand_reset {w : CmdWords} (h : decodeCommand w = .reset) : w.op.toNat = 0x01 := by
  unfold decodeCommand at h
  split at h
  case h_2 hop => exact hop
  all_goals cases h

/-- In `FAULT` mode a write of `CMD` is a reset, or it is ignored (R225). -/
theorem access_write_cmd_fault {s : State} (hm : s.mode = .fault) (v : Word) (d : List Byte) :
    (v.toNat % 256 = 0x01 ∧ access (.write regCmd v d) s = .next s.resetBlock) ∨
      access (.write regCmd v d) s = .next s := by
  have hlatch : s.latchCmd v = s := if_pos hm
  rw [access_write_cmd, hlatch]
  by_cases hr : s.command v d = .reset
  · rw [hr]
    have hop : (v.setWidth 8).toNat = 0x01 := decodeCommand_reset hr
    rw [BitVec.toNat_setWidth] at hop
    exact .inl ⟨hop, rfl⟩
  · exact .inr (faultModeIgnoresCommands _ s (decodeCommand_format _) hr hm)

/-- A write of another register leaves the fault as it stands (R27, R40). -/
theorem writeReg_keepsFault {s : State} (hm : s.mode = .fault) (no : Byte) (v : Word) :
    s.KeepsFault (s.writeReg no v) := by
  unfold State.writeReg
  split <;> exact ⟨hm, rfl, rfl⟩

/-- Everything an access can do in `FAULT` mode. -/
theorem access_fault_cases {s t : State} {a : HostAccess} (hm : s.mode = .fault)
    (h : access a s = .next t) : a.Resets ∧ t = s.resetBlock ∨ s.KeepsFault t := by
  cases a with
  | hardReset =>
    cases h
    exact .inl ⟨.inl rfl, rfl⟩
  | read | readOidx | readEout =>
    cases h
    exact .inr ⟨hm, rfl, rfl⟩
  | write no v d =>
    by_cases hno : no = regCmd
    · subst hno
      rcases access_write_cmd_fault hm v d with ⟨hv, e⟩ | e <;> cases e.symm.trans h
      · exact .inl ⟨.inr ⟨v, d, rfl, hv⟩, rfl⟩
      · exact .inr ⟨hm, rfl, rfl⟩
    · rw [access, if_neg hno] at h
      cases h
      exact .inr (writeReg_keepsFault hm no v)

/-- Everything a step can do in `FAULT` mode: a reset by the host's next access, or nothing to the
fault (R243). -/
theorem step_fault_cases {s t : State} (hm : s.mode = .fault) (h : step s = .next t) :
    (∃ a rest, s.pending = a :: rest ∧ a.Resets ∧ t.AtResetValues) ∨ s.KeepsFault t := by
  cases hp : s.pending with
  | nil =>
    cases (step_of_no_pending hp).symm.trans h
    exact .inr ⟨hm, rfl, rfl⟩
  | cons a rest =>
    rw [step_of_pending hp] at h
    refine (access_fault_cases (by exact hm) h).imp_left fun ⟨ha, e⟩ => ⟨a, rest, rfl, ha, ?_⟩
    exact e ▸ resetBlock_atResetValues _

/-- Settles O8: a step that resets is in `IDLE` mode, and every other keeps the fault. -/
theorem onlyResetLeavesFaultMode : Obligations.OnlyResetLeavesFaultMode := by
  intro s t hm h
  rcases step_fault_cases hm h with ⟨a, rest, hp, ha, ht⟩ | ⟨hmode, hcause, hfinfo⟩
  · have hidle : t.mode = .idle := ht.1
    refine ⟨fun _ => ⟨ht, rest, ?_⟩, fun hf => by simp [hidle] at hf⟩
    rw [hp]
    rcases ha with rfl | ⟨v, d, rfl, hv⟩
    · exact .inl rfl
    · exact .inr ⟨v, d, rfl, hv⟩
  · exact ⟨fun hne => absurd hmode hne, fun _ => ⟨hcause, hfinfo⟩⟩

end Sys2Proof.Machine
end

section
/-! SUPPORT. The instances of a platform (R62, R249): a step of one writes its own place alone. -/

namespace Sys2Proof.Machine

/-- A step of instance `k` writes place `k` with the next state of what stands there; where nothing
stands, the write is void. -/
theorem stepInstance_next_iff {k : Nat} {p q : Platform} :
    stepInstance k p = .next q ↔
      ∃ t, (∀ s, p[k]? = some s → step s = .next t) ∧ q = p.set k t := by
  rw [stepInstance]
  cases hk : p[k]? with
  | none =>
    have hset (t : State) : p.set k t = p :=
      List.set_eq_of_length_le (List.getElem?_eq_none_iff.mp hk)
    constructor
    · rintro ⟨⟩
      exact ⟨State.reset, nofun, (hset _).symm⟩
    · rintro ⟨t, -, rfl⟩
      rw [hset]
  | some s =>
    cases hs : step s with
    | next t => simp [hs, eq_comm]
    | fault | refused => simp [hs]

/-- Settles O55: two steps write different places, each from what its own place holds. -/
theorem instancesShareNothing : Obligations.InstancesShareNothing := by
  intro p q j k hjk hq
  obtain ⟨t, ht, rfl⟩ := stepInstance_next_iff.mp hq
  have hk : (p.set j t)[k]? = p[k]? := List.getElem?_set_ne hjk
  refine ⟨hk, List.length_set, fun r hr => ?_⟩
  obtain ⟨u, hu, rfl⟩ := stepInstance_next_iff.mp hr
  rw [hk] at hu
  have hj : (p.set k u)[j]? = p[j]? := List.getElem?_set_ne hjk.symm
  exact ⟨p.set k u, stepInstance_next_iff.mpr ⟨u, hu, rfl⟩,
    stepInstance_next_iff.mpr ⟨t, hj ▸ ht, List.set_comm _ _ hjk⟩⟩

end Sys2Proof.Machine
end
